-- ==== Sys2Proof/Word.lean ====
section
/-! DEFINITION. The word types of the block: 32-bit descriptor words and uints (00_scope.md R7, R9),
64-bit element addresses (R7, 20_memory.md R64). A value of `F` is a `Nat`, the residue below `P_MOD` that names it
(40_field_arith.md R140). -/

namespace Sys2Proof

/-- A 32-bit register-window or descriptor word (10_state.md R24, 30_encoding.md R100). -/
abbrev Word := BitVec 32

/-- A `uint`: the 32-bit unsigned integers of every size and index (40_field_arith.md R149). -/
abbrev U32 := BitVec 32

/-- A 64-bit global-memory element address (10_state.md R39, 30_encoding.md R106). -/
abbrev Addr := BitVec 64

end Sys2Proof
end

