-- ==== Sys2Proof/Config.lean ====
section
/-! DEFINITION. What an implementation fixes (the open parameters of 00_scope.md R7, as plain data that
State holds) and the free values of the model: constants without a body, of which no proof can see anything. -/

namespace Sys2Proof

/-- `field_dec` and `field_enc` for a modulus `p` and `words` descriptor words, patterns read as numbers
(00_scope.md R7): the decoder answers elements of `F` only, and it undoes the encoder. -/
structure FieldCodec (p words : Nat) where
  dec : Nat → Option Nat
  enc : Nat → Nat
  dec_lt : ∀ w v, dec w = some v → v < p
  enc_lt : ∀ v, v < p → enc v < 2 ^ (32 * words)
  dec_enc : ∀ v, v < p → dec (enc v) = some v

/-- The carriage of configuration `TOY17` (00_scope.md R8) at any modulus that fits: an element is carried
as its representative, and a pattern at or above the modulus denotes no element. -/
def canonicalCodec (p words : Nat) (h : p ≤ 2 ^ (32 * words)) : FieldCodec p words where
  dec w := if w < p then some w else none
  enc v := v
  dec_lt w v hw := by
    by_cases hp : w < p <;> simp [hp] at hw
    omega
  enc_lt v hv := by omega
  dec_enc v hv := by simp [hv]

/-- How a by-value field element is carried in descriptor words (00_scope.md R7, 92_eei_decisions.md D2). -/
inductive Carriage where
  /-- The representative itself, as in `TOY17` (R8). -/
  | canonical
  /-- Any other `field_dec` and `field_enc`: `Config.externalCodec`, of which nothing but R7's law is known. -/
  | external
deriving DecidableEq, Repr

/-- The open parameters of 00_scope.md R7 that some rule of the block depends on. DESIGN CHOICE (log 3): they
are plain data in State, which no step changes, so that a statement about every state is about every
implementation. -/
structure Params where
  /-- `P_MOD` -/
  pMod : Nat
  /-- `FIELD_WORDS` -/
  fieldWords : Nat
  /-- which `field_dec` and `field_enc` -/
  carriage : Carriage
  /-- `LG_SCRATCH` -/
  lgScratch : Nat
  /-- `LG_LANES_MAX` -/
  lgLanesMax : Nat
  /-- `REG_BASE`, a byte address of the platform -/
  regBase : Nat
deriving DecidableEq, Repr

/-- A 32-bit draw: what a read of an unwritten `DESC` word returns (10_state.md R29). Free (log 9). -/
opaque Config.freeWord : Nat → BitVec 32

/-- A number no rule fixes; reduced modulo `P_MOD` it is a free element of `F` (logs 11 and 13). -/
opaque Config.freeElem : Nat → Nat

/-- The by-value carriage of an implementation that is not `TOY17`'s. Free but for the law of 00_scope.md R7
that its type holds (log 5). The argument only says that some carriage exists. -/
opaque Config.externalCodec (p words : Nat) [Inhabited (FieldCodec p words)] : FieldCodec p words

/-- Configuration `TOY17` (00_scope.md R8). `REG_BASE` is not part of it: 0 is a DESIGN CHOICE (log 4). -/
def Config.toy17 : Params where
  pMod := 17
  fieldWords := 1
  carriage := .canonical
  lgScratch := 3
  lgLanesMax := 2
  regBase := 0

end Sys2Proof
end

