-- ==== Sys2Proof/Syntax.lean ====
section
/-! DEFINITION. The three commands of `ECGPU-CMD` version 1 (00_scope.md R3), with their operands assembled from
the descriptor words (30_encoding.md R103 to R108). -/

namespace Sys2Proof

/-- Operands of `NTT_STAGE`, Format N (30_encoding.md R103). -/
structure NttOperands where
  /-- element address of `x[0]` -/
  x : Addr
  /-- element address of `y[0]` -/
  y : Addr
  /-- element address of `pq[0]` -/
  pq : Addr
  /-- element address of `omegas[0]` -/
  om : Addr
  scratchLen : U32
  n : U32
  lgp : U32
  deg : U32
  maxDeg : U32
deriving DecidableEq, Repr

/-- Operands of `SCALAR_MUL`, Format S (30_encoding.md R104). The scalar is the pattern of R107, least significant
word first; what element it denotes is decided at admission. -/
structure ScalarOperands where
  /-- element address of `elements[0]` -/
  el : Addr
  n : U32
  scalar : List Word
deriving DecidableEq, Repr

/-- Operands of `LOOKUP_EVAL`, Format L (30_encoding.md R105). -/
structure LookupOperands where
  /-- `value` -/
  val : Addr
  /-- `table` -/
  tab : Addr
  /-- `permuted_input_coset` -/
  pic : Addr
  /-- `permuted_table_coset` -/
  ptc : Addr
  /-- `product_coset` -/
  prd : Addr
  /-- `l0` -/
  l0 : Addr
  /-- `l_last` -/
  ll : Addr
  /-- `l_active_row` -/
  la : Addr
  /-- `challenges` -/
  ch : Addr
  rotScale : U32
  size : U32
deriving DecidableEq, Repr

/-- One constructor per row of spec/opcode_table.json. -/
inductive Instr where
  /-- `NTT_STAGE` (41_ntt_stage.md R160) -/
  | nttStage (o : NttOperands)
  /-- `SCALAR_MUL` (43_scalar_mul.md R210) -/
  | scalarMul (o : ScalarOperands)
  /-- `LOOKUP_EVAL` (44_lookup_eval.md R220) -/
  | lookupEval (o : LookupOperands)
deriving DecidableEq, Repr

end Sys2Proof
end

