-- ==== Sys2Proof/WellFormed.lean ====
section
/-! DEFINITION. Which parameters are an implementation (00_scope.md R7) and which commands a descriptor can carry
(30_encoding.md R100, R104). A parameter precondition of a command is no matter of form: breaking one is
`BAD_PARAM` at admission (60_exceptions.md R252). -/

namespace Sys2Proof

/-- The ranges of 00_scope.md R7, and that some carriage of by-value elements exists: `FIELD_WORDS` words have a
pattern for each of the `P_MOD` elements. -/
abbrev Params.Ok (c : Params) : Prop :=
  2 ≤ c.pMod ∧ 1 ≤ c.fieldWords ∧ c.fieldWords ≤ 28 ∧ 1 ≤ c.lgScratch ∧ c.lgScratch ≤ 31 ∧
    c.lgLanesMax ≤ 30 ∧ c.pMod ≤ 2 ^ (32 * c.fieldWords)

/-- A by-value scalar has exactly `FIELD_WORDS` words (30_encoding.md R104); every other field has its width by
its type. -/
abbrev Instr.WellFormed (c : Params) : Instr → Prop
  | .nttStage _ => True
  | .scalarMul o => o.scalar.length = c.fieldWords
  | .lookupEval _ => True

end Sys2Proof
end

