-- ==== Sys2Proof/Decode.lean ====
section
/-! DEFINITION. The descriptor decoder, total on any list of descriptor words written or not (30_encoding.md R100 to
R110, 60_exceptions.md R252 steps 1 to 3), and the encoder from the same format tables. -/

namespace Sys2Proof

/-- Why a descriptor names no command, in the words of 60_exceptions.md R251. -/
inductive DecodeError where
  /-- a word the command needs holds no value: `DESC_UNWRITTEN` -/
  | unwritten
  /-- word 0 names no command: `ILLEGAL_OPCODE` -/
  | illegalOpcode
deriving DecidableEq, Repr

/-- Bits 7:0 of word 0 (30_encoding.md R101). -/
def opcodeField (w : Word) : BitVec 8 := w.extractLsb' 0 8

/-- Bits 31:8 of word 0, which must be zero (30_encoding.md R101). -/
def reservedField (w : Word) : BitVec 24 := w.extractLsb' 8 24

/-- `{W_HI, W_LO}` (30_encoding.md R106). -/
def addrOf (lo hi : Word) : Addr := hi ++ lo

/-- `W_LO` of an address. -/
def addrLo (a : Addr) : Word := a.extractLsb' 0 32

/-- `W_HI` of an address. -/
def addrHi (a : Addr) : Word := a.extractLsb' 32 32

/-- The first `k` words, if every one of them has been written (60_exceptions.md R252 step 3). -/
def takeWritten : Nat → List (Option Word) → Option (List Word)
  | 0, _ => some []
  | _ + 1, [] => none
  | _ + 1, none :: _ => none
  | k + 1, some w :: ws => (takeWritten k ws).map (w :: ·)

/-- The words of Format N after word 0 (30_encoding.md R103). -/
def decodeFormatN : List Word → Option NttOperands
  | [xLo, xHi, yLo, yHi, pqLo, pqHi, omLo, omHi, scratchLen, n, lgp, deg, maxDeg] =>
    some { x := addrOf xLo xHi, y := addrOf yLo yHi, pq := addrOf pqLo pqHi, om := addrOf omLo omHi,
           scratchLen, n, lgp, deg, maxDeg }
  | _ => none

/-- The words of Format S after word 0 (30_encoding.md R104). -/
def decodeFormatS : List Word → Option ScalarOperands
  | elLo :: elHi :: n :: scalar => some { el := addrOf elLo elHi, n, scalar }
  | _ => none

/-- The words of Format L after word 0 (30_encoding.md R105). -/
def decodeFormatL : List Word → Option LookupOperands
  | [valLo, valHi, tabLo, tabHi, picLo, picHi, ptcLo, ptcHi, prdLo, prdHi, l0Lo, l0Hi, llLo, llHi,
      laLo, laHi, chLo, chHi, rotScale, size] =>
    some { val := addrOf valLo valHi, tab := addrOf tabLo tabHi, pic := addrOf picLo picHi,
           ptc := addrOf ptcLo ptcHi, prd := addrOf prdLo prdHi, l0 := addrOf l0Lo l0Hi,
           ll := addrOf llLo llHi, la := addrOf laLo laHi, ch := addrOf chLo chHi, rotScale, size }
  | _ => none

/-- The operand words of one format, then the command they make; a missing word is `DESC_UNWRITTEN`. -/
def decodeOperands {α : Type} (k : Nat) (format : List Word → Option α) (mk : α → Instr)
    (rest : List (Option Word)) : Except DecodeError Instr :=
  match (takeWritten k rest).bind format with
  | some o => .ok (mk o)
  | none => .error .unwritten

/-- The decoder: word 0, then the words the opcode needs and no others (30_encoding.md R100 to R110; the order of
the tests is that of 60_exceptions.md R252, steps 1 to 3). -/
def decode (fieldWords : Nat) : List (Option Word) → Except DecodeError Instr
  | [] => .error .unwritten
  | none :: _ => .error .unwritten
  | some w :: rest =>
    if reservedField w ≠ 0 then .error .illegalOpcode
    else if opcodeField w = 0x01 then decodeOperands 13 decodeFormatN .nttStage rest
    else if opcodeField w = 0x02 then decodeOperands (3 + fieldWords) decodeFormatS .scalarMul rest
    else if opcodeField w = 0x03 then decodeOperands 20 decodeFormatL .lookupEval rest
    else .error .illegalOpcode

/-- The descriptor words of a command (30_encoding.md R102 to R106). -/
def encode : Instr → List Word
  | .nttStage o =>
    [0x00000001, addrLo o.x, addrHi o.x, addrLo o.y, addrHi o.y, addrLo o.pq, addrHi o.pq,
      addrLo o.om, addrHi o.om, o.scratchLen, o.n, o.lgp, o.deg, o.maxDeg]
  | .scalarMul o => [0x00000002, addrLo o.el, addrHi o.el, o.n] ++ o.scalar
  | .lookupEval o =>
    [0x00000003, addrLo o.val, addrHi o.val, addrLo o.tab, addrHi o.tab, addrLo o.pic, addrHi o.pic,
      addrLo o.ptc, addrHi o.ptc, addrLo o.prd, addrHi o.prd, addrLo o.l0, addrHi o.l0,
      addrLo o.ll, addrHi o.ll, addrLo o.la, addrHi o.la, addrLo o.ch, addrHi o.ch, o.rotScale, o.size]

/-- Word `k` of a descriptor whose bits are `w`, the bits at and above `nbits` zero: bits `32k+31 .. 32k`. -/
def tableWord (nbits w k : Nat) : Word :=
  if 32 * k + 32 ≤ nbits then BitVec.ofNat 32 (w >>> (32 * k))
  else BitVec.ofNat 32 ((w >>> (32 * k)) % 2 ^ (nbits - 32 * k))

/-- All 32 descriptor words, written, from the bits of a table row. -/
def tableWords (nbits w : Nat) : List (Option Word) := (List.range 32).map fun k => some (tableWord nbits w k)

/-- What the decoder reads from a descriptor whose bits are `w`, under the parameters of `State.reset`. -/
def decodeTableWord (nbits w : Nat) : Option Instr :=
  match decode Config.toy17.fieldWords (tableWords nbits w) with
  | .ok i => some i
  | .error _ => none

end Sys2Proof
end

