-- ==== Sys2Proof/Machine/Field.lean ====
section
/-! DEFINITION. The field contract (40_field_arith.md R140 to R147): the ring of integers modulo `P_MOD`, an element
being its residue; and the carriage of a by-value element (30_encoding.md R107). -/

namespace Sys2Proof.Machine

/-- `ONE`, the residue 1 (40_field_arith.md R146). -/
def fone (p : Nat) : Nat := 1 % p

/-- `fadd` (40_field_arith.md R141). -/
def fadd (p a b : Nat) : Nat := (a + b) % p

/-- `fsub`: `a - b`, first operand minus second (40_field_arith.md R142). -/
def fsub (p a b : Nat) : Nat := (a + (p - b % p)) % p

/-- `fmul` (40_field_arith.md R143). -/
def fmul (p a b : Nat) : Nat := a * b % p

/-- `fsqr` (40_field_arith.md R144). -/
def fsqr (p a : Nat) : Nat := a * a % p

/-- `a^e`, the `e`-fold product, `a^0 = ONE` (00_scope.md R10). -/
def fpow (p a e : Nat) : Nat := a ^ e % p

/-- A free element of `F` (log 13). -/
def freeElement (p k : Nat) : Nat := Config.freeElem k % p

/-- The number whose 32-bit digits the words are, least significant first (30_encoding.md R107). -/
def patternOf : List (BitVec 32) → Nat
  | [] => 0
  | w :: ws => w.toNat + 2 ^ 32 * patternOf ws

/-- The `k` words that carry a pattern, least significant first. -/
def wordsOfPattern : Nat → Nat → List (BitVec 32)
  | 0, _ => []
  | k + 1, n => BitVec.ofNat 32 n :: wordsOfPattern k (n / 2 ^ 32)

/-- The carriage an implementation uses; none if `FIELD_WORDS` words cannot carry `P_MOD` elements. -/
def codecOf (c : Params) : Option (FieldCodec c.pMod c.fieldWords) :=
  if h : c.pMod ≤ 2 ^ (32 * c.fieldWords) then
    match c.carriage with
    | .canonical => some (canonicalCodec c.pMod c.fieldWords h)
    | .external => some (@Config.externalCodec c.pMod c.fieldWords ⟨canonicalCodec c.pMod c.fieldWords h⟩)
  else none

/-- `field_dec`: the element a by-value pattern denotes, or none (00_scope.md R7). -/
def fieldDec (c : Params) (ws : List (BitVec 32)) : Option Nat :=
  (codecOf c).bind fun codec => codec.dec (patternOf ws)

/-- `field_enc`: the words that carry an element (00_scope.md R7). -/
def fieldEnc (c : Params) (v : Nat) : List (BitVec 32) :=
  match codecOf c with
  | some codec => wordsOfPattern c.fieldWords (codec.enc v)
  | none => []

end Sys2Proof.Machine
end

