-- ==== Sys2Proof/Machine/State.lean ====
section
/-! DEFINITION. The state of the block and of the host that drives it, as plain data (10_state.md R20 to R45), the
reasons a step can stop, and the machine right after reset. -/

namespace Sys2Proof.Machine

/-- `STATUS.STATE` (10_state.md R27). -/
inductive SeqState where
  | idle
  | busy
  | done
  | fault
deriving DecidableEq, Repr

/-- `FAULT_CAUSE.CODE` (60_exceptions.md R251). -/
inductive FaultCode where
  | none
  | descUnwritten
  | illegalOpcode
  | badParam
  | outOfRange
  | overlap
  | uninitRead
deriving DecidableEq, Repr

/-- The two levels of description of 00_scope.md R13. DESIGN CHOICE (log 1): the run says in State which one it
uses. -/
inductive Level where
  /-- an admitted launch is one step, from `IDLE` to `DONE` (R13, 60_exceptions.md R277) -/
  | functional
  /-- an admitted launch creates lanes, which then step one by one (60_exceptions.md R271, R275) -/
  | lane
deriving DecidableEq, Repr

/-- A run `lo, lo+1, .., hi-1` of allocated element addresses; `Dom` is a list of them (10_state.md R39). -/
structure Region where
  lo : Nat
  hi : Nat
deriving DecidableEq, Repr

/-! ### Lanes of `NTT_STAGE` (10_state.md R33, R35; 41_ntt_stage.md R176) -/

/-- The lines of `SEED`; `geometry` forms the derived quantities the later lines name (log 15). -/
inductive SeedLine where
  | geometry | k | exponent | lookup | ladder
deriving DecidableEq, Repr

/-- The lines of `STAGE(i)`. -/
inductive StageLine where
  | load | put | ladder
deriving DecidableEq, Repr

/-- The lines of `BFLY(rnd, i)`. -/
inductive BflyLine where
  | span | pair | read | sum | diff | twist | put
deriving DecidableEq, Repr

/-- The lines of `SCAT(i)`. -/
inductive ScatLine where
  | base | low | high
deriving DecidableEq, Repr

/-- Lane progress (10_state.md R35). The temporaries `i` and `rnd` of R33 are the label's arguments (log 22). -/
inductive NttProgress where
  | seed (line : SeedLine)
  | stage (i : U32) (line : StageLine)
  | bar (j : Nat)
  | bfly (rnd : Nat) (i : U32) (line : BflyLine)
  | scat (i : U32) (line : ScatLine)
  | ended
deriving DecidableEq, Repr

/-- A lane of `NTT_STAGE`: its number, its progress, and its temporaries, which hold no value until the
micro-program writes them (10_state.md R32, R33). The group number `index` is the group's (log 22). -/
structure NttLane where
  lid : U32
  progress : NttProgress
  t : Option U32
  p : Option U32
  k : Option U32
  count : Option U32
  counth : Option U32
  counts : Option U32
  counte : Option U32
  pqshift : Option U32
  bit : Option U32
  di : Option U32
  i0 : Option U32
  i1 : Option U32
  e : Option U32
  /-- `base` of the scatter lines (41_ntt_stage.md R176) -/
  base : Option U32
  twiddle : Option Nat
  tmp : Option Nat
  a : Option Nat
  b : Option Nat
  d : Option Nat
deriving DecidableEq, Repr

/-- A group of `NTT_STAGE`: its number, its barrier (10_state.md R37), its scratch buffer (R36) and its lanes. -/
structure NttGroup where
  index : U32
  /-- the current barrier instance -/
  gen : Nat
  /-- numbers of the lanes that have arrived at it and are not released, rising -/
  arrived : List Nat
  /-- scratch cells `u[0] ..`; a cell not yet written holds no value. After the group's last lane has reached `END`
  the contents are not defined (10_state.md R36): that they stay as last written is a DESIGN CHOICE (log 34) -/
  scratch : List (Option Nat)
  lanes : List NttLane
deriving DecidableEq, Repr

/-! ### Lanes of `SCALAR_MUL` and `LOOKUP_EVAL` (10_state.md R34, R35) -/

/-- Progress of a `SCALAR_MUL` lane: `RUN`, one step per memory access (10_state.md R35), then `END`. -/
inductive ScalarProgress where
  | load | store | ended
deriving DecidableEq, Repr

structure ScalarLane where
  gid : U32
  progress : ScalarProgress
  v : Option Nat
deriving DecidableEq, Repr

/-- Progress of a `LOOKUP_EVAL` lane: `RUN`, one step per statement of 44_lookup_eval.md R232, then `END`. -/
inductive LookupProgress where
  | y | beta | gamma | rNext | rPrev | v | z | zn | a | ap | s | tb | q0 | ql | qa
  | term1 | term2 | term3 | term4 | term5 | store | ended
deriving DecidableEq, Repr

structure LookupLane where
  idx : U32
  progress : LookupProgress
  rNext : Option U32
  rPrev : Option U32
  y : Option Nat
  beta : Option Nat
  gamma : Option Nat
  v : Option Nat
  z : Option Nat
  zn : Option Nat
  a : Option Nat
  ap : Option Nat
  s : Option Nat
  tb : Option Nat
  q0 : Option Nat
  ql : Option Nat
  qa : Option Nat
  /-- `t1 .. t5`: R34 lists them and R232 assigns none, so when they are written is a DESIGN CHOICE (log 22) -/
  t1 : Option Nat
  t2 : Option Nat
  t3 : Option Nat
  t4 : Option Nat
  t5 : Option Nat
deriving DecidableEq, Repr

/-- The launch in flight: `LDESC` as the operands assembled from the latched words (10_state.md R30,
20_memory.md R62; log 18), and the lanes. -/
inductive Launch where
  | ntt (o : NttOperands) (groups : List NttGroup)
  /-- `factor` is the by-value element assembled at `START` (30_encoding.md R107) -/
  | scalar (o : ScalarOperands) (factor : Nat) (lanes : List ScalarLane)
  | lookup (o : LookupOperands) (lanes : List LookupLane)
deriving DecidableEq, Repr

/-! ### The host (10_state.md R20 (a), 60_exceptions.md R278) -/

/-- What the host can do to the block and to global memory. `addr` of a register access is a platform byte
address and `bytes` its size (10_state.md R24). -/
inductive HostOp where
  | regWrite (addr bytes : Nat) (value : Word)
  | regRead (addr bytes : Nat)
  /-- poll `STATUS` until it reads `IDLE` or `DONE` (30_encoding.md R112 step 1) -/
  | awaitReady
  /-- write `CTRL` with `START`, and with `CLEAR` too if the state is `DONE` (R112 step 3) -/
  | startCommand
  /-- poll `STATUS` until it reads `DONE` or `FAULT`; a program stops at a `FAULT` (R112 step 4) -/
  | awaitEnd
  | memWrite (addr : Nat) (value : Nat)
  | memRead (addr : Nat)
  /-- allocate the `len` element addresses from `lo` -/
  | alloc (lo len : Nat)
  /-- release the `len` element addresses from `lo` -/
  | free (lo len : Nat)
  /-- drive the reset input (70_reset_and_hazards.md R290) -/
  | reset
deriving DecidableEq, Repr

/-- How far the host's program has come (60_exceptions.md R279): whether its last write of `START` was taken up, and what
its reads of `STATUS` have shown. -/
inductive HostRun where
  /-- no `START` written, or the last one dropped -/
  | notStarted
  /-- the last `START` was taken up, and no read of `STATUS` has returned `DONE` since -/
  | started
  /-- and a read of `STATUS` has returned `DONE` since; `final` is global memory at the first such read -/
  | good (final : List (Nat × Nat))
  /-- a read of `STATUS` has returned `FAULT` -/
  | faulted
deriving DecidableEq, Repr

/-- Everything the spec gives the machine, the host's script, and the model's own fields. -/
structure State where
  /-- `STATUS.STATE` -/
  status : SeqState
  /-- `FAULT_CAUSE.CODE` -/
  cause : FaultCode
  /-- `DESC[0..31]`; a word not written since reset holds no value (10_state.md R29) -/
  desc : Vector (Option Word) 32
  /-- the launch in flight, absent when there is none -/
  launch : Option Launch
  /-- `GM`: the cells that hold a value, addresses strictly rising (10_state.md R39) -/
  gm : List (Nat × Nat)
  /-- `Dom`: the allocated element addresses, as separate runs in rising order (10_state.md R39) -/
  dom : List Region
  /-- the open parameters (00_scope.md R7; log 3) -/
  cfg : Params
  /-- the level of description (00_scope.md R13; log 1) -/
  level : Level
  /-- the picks still to come between the agents able to step (10_state.md R22; log 2) -/
  sched : List Nat
  /-- what the host has still to do (log 10) -/
  host : List HostOp
  /-- the commands whose footprint belongs to the block, newest first: from the accepted `START` to the read of `STATUS`
  that returns `DONE` (20_memory.md R73, 70_reset_and_hazards.md R302; log 35) -/
  held : List Instr
  /-- how far the host's program has come (60_exceptions.md R279; log 36) -/
  run : HostRun
  /-- the word the host's last register read returned (log 19) -/
  rdata : Word
  /-- the element the host's last global-memory read returned (log 19) -/
  edata : Nat
  /-- how many free values have been drawn (log 9) -/
  draws : Nat
deriving DecidableEq, Repr

/-- Why the machine stops. None can happen in an admitted launch by 41_ntt_stage.md R177 and R184,
43_scalar_mul.md R215 and 44_lookup_eval.md R238; each is SAFE: the model stops where no rule gives a value. -/
inductive Fault where
  /-- a lane's access at or above 2^64 or outside `Dom` (20_memory.md R67); raised by lane steps; safe -/
  | memoryOutsideDom
  /-- a lane's read of a cell that holds no value (20_memory.md R68); raised by lane steps; safe -/
  | memoryNoValue
  /-- a read of a scratch cell that holds no value, or outside the buffer (10_state.md R36); raised by lane
  steps of `NTT_STAGE`; safe -/
  | scratchNoValue
  /-- a read of a temporary that holds no value (10_state.md R32); raised by lane steps; safe -/
  | temporaryNoValue
  /-- `BUSY` and no agent can step (93_implementation_defined.md U21); raised by `step`; safe -/
  | stuck
deriving DecidableEq, Repr

/-- What the model has no move for. Each is SAFE: a run that asks for it stops there. -/
inductive Refusal where
  /-- an instruction without a meaning yet, by its mnemonic; raised by `exec`'s arms only; safe -/
  | notModelled (mnemonic : String)
  /-- a register-window access that is not an aligned 32-bit word of the window (10_state.md R24); raised by the
  host's register operations; safe -/
  | registerAccess
  /-- a host access to a footprint that belongs to the block (20_memory.md R73, 70_reset_and_hazards.md R302, U18); raised
  by the host's memory operations; safe -/
  | hostFootprint
  /-- a host access to an element address outside `Dom`; raised by the host's memory operations; safe -/
  | hostOutsideDom
  /-- an allocation past the end of the 64-bit address space; raised by `alloc`; safe -/
  | hostAllocation
deriving DecidableEq, Repr

/-- Right after reset (10_state.md R45): `IDLE`, no fault code, every descriptor word unwritten, no launch. The
fields the spec gives no value for are DESIGN CHOICES: `gm` (log 8), `dom` (log 7), `cfg` (logs 3 and 4), `level`
(log 1), `sched` (log 2), `host` (log 10), `held` (log 35), `run` (log 36), `rdata` and `edata` (log 19), `draws` (log 9). -/
def State.reset : State where
  status := .idle
  cause := .none
  desc := Vector.replicate 32 none
  launch := none
  gm := []
  dom := []
  cfg := Config.toy17
  level := .lane
  sched := []
  host := []
  held := []
  run := .notStarted
  rdata := 0
  edata := 0
  draws := 0

end Sys2Proof.Machine
end

