-- ==== Sys2Proof/Machine/Ops.lean ====
section
/-! DEFINITION. The named operations over global memory, scratch, temporaries and the sequencer: element reads and
writes (20_memory.md R60 to R69), allocation, the admission check, taking a fault, starting and ending a launch,
and reset. -/

namespace Sys2Proof.Machine

/-! ### Global memory as a list of cells with a value, addresses strictly rising -/

/-- The canonical form: addresses strictly rising. An unlisted cell holds no value, so no entry repeats that. -/
abbrev gmWf (gm : List (Nat × Nat)) : Prop := gm.Pairwise fun c d => c.1 < d.1

/-- The value of a cell, if it holds one. -/
def gmRead : List (Nat × Nat) → Nat → Option Nat
  | [], _ => none
  | (b, v) :: gm, a => if a = b then some v else gmRead gm a

/-- The cell at `a` holds `v` from now on. -/
def gmWrite : List (Nat × Nat) → Nat → Nat → List (Nat × Nat)
  | [], a, v => [(a, v)]
  | (b, w) :: gm, a, v =>
    if a < b then (a, v) :: (b, w) :: gm
    else if a = b then (a, v) :: gm
    else (b, w) :: gmWrite gm a v

/-- Stores in order. -/
def gmStores (gm : List (Nat × Nat)) (stores : List (Nat × Nat)) : List (Nat × Nat) :=
  stores.foldl (fun gm st => gmWrite gm st.1 st.2) gm

/-- The cells at the addresses listed hold no value from now on. -/
def gmErase (gm : List (Nat × Nat)) (as : List Nat) : List (Nat × Nat) :=
  gm.filter fun c => !as.contains c.1

/-- `GM[a]` of a functional form. A cell without a value gives a free element; admission has tested that no read
of a launch meets one (20_memory.md R68; log 13). -/
def valueAt (p : Nat) (gm : List (Nat × Nat)) (a : Nat) : Nat := (gmRead gm a).getD (freeElement p a)

/-! ### `Dom` -/

/-- Membership in `Dom` (10_state.md R39). -/
def domHas (dom : List Region) (a : Nat) : Bool := dom.any fun r => decide (r.lo ≤ a ∧ a < r.hi)

/-- The canonical form: no run is empty, and runs are in rising order with a gap between them. -/
abbrev domWf (dom : List Region) : Prop :=
  (∀ r ∈ dom, r.lo < r.hi) ∧ dom.Pairwise fun r r' => r.hi < r'.lo

/-- `Dom` with `lo .. hi-1` allocated; `lo < hi`. -/
def domAdd : List Region → Nat → Nat → List Region
  | [], lo, hi => [⟨lo, hi⟩]
  | r :: rs, lo, hi =>
    if hi < r.lo then ⟨lo, hi⟩ :: r :: rs
    else if r.hi < lo then r :: domAdd rs lo hi
    else domAdd rs (min lo r.lo) (max hi r.hi)

/-- `Dom` with `lo .. hi-1` released; `lo < hi`. -/
def domRemove (dom : List Region) (lo hi : Nat) : List Region :=
  dom.flatMap fun r =>
    ([⟨r.lo, min r.hi lo⟩, ⟨max r.lo hi, r.hi⟩] : List Region).filter fun q => decide (q.lo < q.hi)

/-! ### Accesses of lanes -/

/-- Element address `B + i`, without wrap (20_memory.md R64). -/
def elemAddr (base : Addr) (i : U32) : Nat := base.toNat + i.toNat

/-- An element address that exists: below 2^64 and in `Dom` (20_memory.md R67). -/
def addrOk (dom : List Region) (a : Nat) : Bool := decide (a < 2 ^ 64) && domHas dom a

/-- `MemRead(B + i, 1)` (00_scope.md R11). -/
def memLoad (s : State) (base : Addr) (i : U32) : Except Fault Nat :=
  if addrOk s.dom (elemAddr base i) then
    match gmRead s.gm (elemAddr base i) with
    | some v => .ok v
    | none => .error .memoryNoValue
  else .error .memoryOutsideDom

/-- `MemWrite(B + i, 1, v)` (00_scope.md R11). -/
def memStore (s : State) (base : Addr) (i : U32) (v : Nat) : Except Fault (List (Nat × Nat)) :=
  if addrOk s.dom (elemAddr base i) then .ok (gmWrite s.gm (elemAddr base i) v)
  else .error .memoryOutsideDom

/-- The value of a temporary (10_state.md R32). -/
def temp {α : Type} (x : Option α) : Except Fault α :=
  match x with
  | some v => .ok v
  | none => .error .temporaryNoValue

/-- `u[i]` read (10_state.md R36). -/
def scratchRead (u : List (Option Nat)) (i : U32) : Except Fault Nat :=
  match u[i.toNat]? with
  | some (some v) => .ok v
  | _ => .error .scratchNoValue

/-- `u[i] <- v` (10_state.md R36); a cell outside the buffer does not exist. -/
def scratchWrite (u : List (Option Nat)) (i : U32) (v : Nat) : Except Fault (List (Option Nat)) :=
  if i.toNat < u.length then .ok (u.set i.toNat (some v)) else .error .scratchNoValue

/-! ### What the host's program has seen, and whose launch it is -/

/-- A write of `START` with the sequencer in state `q`; a faulted run stays faulted (R279). -/
def HostRun.starting : HostRun → SeqState → HostRun
  | .faulted, _ => .faulted
  | _, .idle => .started
  | _, _ => .notStarted

/-- A read of `STATUS` that returns `q` while global memory is `gm`. The first that returns `DONE` keeps `gm`, and a later
one does not replace it (R279). -/
def HostRun.seeing : HostRun → SeqState → List (Nat × Nat) → HostRun
  | _, .fault, _ => .faulted
  | .started, .done, gm => .good gm
  | r, _, _ => r

/-- The command of a launch. -/
def Launch.command : Launch → Instr
  | .ntt o _ => .nttStage o
  | .scalar o _ _ => .scalarMul o
  | .lookup o _ => .lookupEval o

/-! ### Sequencer -/

/-- Fault entry, the one way a launch is refused: the state and the code, and nothing else (60_exceptions.md R256). -/
def State.enterFault (s : State) (code : FaultCode) : State :=
  { s with status := .fault, cause := code }

/-- Admission step 8: the lanes exist, the state is `BUSY`, and the footprint is the block's (60_exceptions.md R252, R271,
R278). -/
def State.enterBusy (s : State) (l : Launch) : State :=
  { s with status := .busy, launch := some l, held := l.command :: s.held }

/-- `BUSY -> DONE`: lanes, groups, scratch and `LDESC` cease to exist (60_exceptions.md R272). The footprint stays the
block's until the host has read `DONE` (70_reset_and_hazards.md R302). -/
def State.endLaunch (s : State) : State :=
  { s with status := .done, launch := none }

/-- An admitted launch as one step of the functional level: its writes have taken effect and the state is `DONE`
(00_scope.md R13, 20_memory.md R72), and the footprint is the block's until the host has read that
(70_reset_and_hazards.md R302). -/
def State.complete (s : State) (i : Instr) (gm : List (Nat × Nat)) : State :=
  { s with status := .done, gm := gm, held := i :: s.held }

/-- `CLEAR` (60_exceptions.md R273). -/
def State.clear (s : State) : State :=
  match s.status with
  | .done => { s with status := .idle }
  | _ => s

/-- What a command asks of admission: its parameter preconditions, its read footprint, the part of that which
belongs to other arrays than the output, and its write footprint (20_memory.md R67 to R69). -/
structure Request where
  paramsOk : Bool
  reads : List Nat
  others : List Nat
  writes : List Nat

/-- Steps 4 to 7 of the admission check, in this order; the first failing test decides (60_exceptions.md R252). -/
def admission (s : State) (r : Request) : Option FaultCode :=
  if !r.paramsOk then some .badParam
  else if !(r.reads ++ r.writes).all (addrOk s.dom) then some .outOfRange
  else if r.writes.any r.others.contains then some .overlap
  else if !r.reads.all (fun a => (gmRead s.gm a).isSome) then some .uninitRead
  else none

/-- `START` of a decoded command: ignored unless the state is `IDLE` (60_exceptions.md R271); refused by taking the
fault admission names; else admitted, with `l` as the launch in flight (lane level) or `gm` as the memory of the
functional form (functional level). -/
def startLaunch (r : Request) (l : Launch) (gm : List (Nat × Nat)) (s : State) : Host.Outcome State Fault Refusal :=
  match s.status with
  | .idle =>
    match admission s r with
    | some code => .next (s.enterFault code)
    | none =>
      match s.level with
      | .lane => .next (s.enterBusy l)
      | .functional => .next (s.complete l.command gm)
  | _ => .next s

/-- A lane's step, as an outcome of the machine. -/
def outcomeOf (r : Except Fault State) : Host.Outcome State Fault Refusal :=
  match r with
  | .ok s => .next s
  | .error f => .fault f

end Sys2Proof.Machine
end

