-- ==== Sys2Proof/Machine/Operands.lean ====
section
/-! DEFINITION. Every operand form of the three commands: derived quantities, index formulas in 32-bit uints
(40_field_arith.md R149 to R152), lane partitions, and the footprints admission tests. Both levels of description
use these same formulas. -/

namespace Sys2Proof.Machine

/-- `ispow2` (00_scope.md R9). -/
def isPow2 (v : U32) : Bool := (List.range 32).any fun k => v.toNat == 2 ^ k

/-- `log2`, the exponent of a power of two (00_scope.md R9). R9 defines it for nothing else: the whole part of the
logarithm there, and 0 at 0, is a DESIGN CHOICE (log 31) on which no admitted launch and no expanded macro rests. -/
def log2 (v : U32) : Nat := Nat.log2 v.toNat

/-- `bitreverse(i, w)` on numbers: bit `j` of the result is bit `w-1-j` of `i` (00_scope.md R12). R12 defines it for
`i < 2^w` only: that it reverses the low `w` bits of a greater `i` and drops the others is a DESIGN CHOICE (log 37) on
which no admitted launch rests. -/
def bitreverse : Nat → Nat → Nat
  | _, 0 => 0
  | i, w + 1 => i % 2 * 2 ^ w + bitreverse (i / 2) w

/-- The uints `0 .. n-1`. -/
def upTo (n : U32) : List U32 := (List.range n.toNat).map (BitVec.ofNat 32)

/-! ### `NTT_STAGE` (41_ntt_stage.md) -/

/-- `t = n >> deg`: how many groups, and the source stride (R162). -/
def nttT (o : NttOperands) : U32 := o.n >>> o.deg

/-- `p = 1 << lgp`: the destination stride (R162). -/
def nttP (o : NttOperands) : U32 := 1#32 <<< o.lgp

/-- `count = 1 << deg`: elements per group (R162). -/
def nttCount (o : NttOperands) : U32 := 1#32 <<< o.deg

/-- `counth = count >> 1` (R162). -/
def nttCounth (o : NttOperands) : U32 := nttCount o >>> 1

/-- `pqshift = max_deg - deg` (R162). -/
def nttPqshift (o : NttOperands) : U32 := o.maxDeg - o.deg

/-- `k = index & (p - 1)` (R164). -/
def nttK (o : NttOperands) (index : U32) : U32 := index &&& (nttP o - 1)

/-- `e = (n >> lgp >> deg) * k` (R167). -/
def nttExponent (o : NttOperands) (k : U32) : U32 := ((o.n >>> o.lgp) >>> o.deg) * k

/-- Source index `index + i*t` (R165). -/
def nttSource (o : NttOperands) (index i : U32) : U32 := index + i * nttT o

/-- `bit = counth >> rnd` (R170). -/
def nttBit (o : NttOperands) (rnd : Nat) : U32 := nttCounth o >>> rnd

/-- `di = i & (bit - 1)` (R171). -/
def pairDi (bit i : U32) : U32 := i &&& (bit - 1)

/-- `i0 = (i << 1) - di` (R171). -/
def pairLow (bit i : U32) : U32 := (i <<< 1) - pairDi bit i

/-- `i1 = i0 + bit` (R171). -/
def pairHigh (bit i : U32) : U32 := pairLow bit i + bit

/-- `(di << rnd) << pqshift` (R172, R173). -/
def pqIndex (di : U32) (rnd : Nat) (pqshift : U32) : U32 := (di <<< rnd) <<< pqshift

/-- Destination base `((index - k) << deg) + k` (R175). -/
def nttBase (o : NttOperands) (index k : U32) : U32 := ((index - k) <<< o.deg) + k

/-- Destination index `base + j*p` of local position `j` (R175). -/
def nttDest (o : NttOperands) (base j : U32) : U32 := base + j * nttP o

/-- `bitreverse(i, deg)` as a uint (R174). -/
def nttReverse (o : NttOperands) (i : U32) : U32 := BitVec.ofNat 32 (bitreverse i.toNat o.deg.toNat)

/-- `lgl = min(LG_LANES_MAX, deg - 1)` (R166). -/
def nttLgl (c : Params) (o : NttOperands) : Nat := min c.lgLanesMax (o.deg.toNat - 1)

/-- `count / L` (R166). -/
def nttShare (c : Params) (o : NttOperands) : U32 := nttCount o >>> nttLgl c o

/-- `v >> 1`: the bound on pair numbers from a bound on local elements (R166). -/
def half (v : U32) : U32 := v >>> 1

/-- `counts = (count / L) * lid` (R166). -/
def nttCounts (c : Params) (o : NttOperands) (lid : U32) : U32 := nttShare c o * lid

/-- `counte = counts + count / L` (R166). -/
def nttCounte (c : Params) (o : NttOperands) (lid : U32) : U32 := nttCounts c o lid + nttShare c o

/-- Preconditions P1 to P5, P4 without wrap (R163). -/
def nttParamsOk (c : Params) (o : NttOperands) : Bool :=
  (isPow2 o.n && decide (2 ≤ o.n.toNat)) &&
  decide (1 ≤ o.deg.toNat ∧ o.deg.toNat ≤ o.maxDeg.toNat) &&
  decide (o.maxDeg.toNat ≤ 31) &&
  decide (o.lgp.toNat + o.deg.toNat ≤ log2 o.n) &&
  decide (2 ^ o.deg.toNat ≤ o.scratchLen.toNat ∧ o.deg.toNat ≤ c.lgScratch)

/-- The cells `B + i` for `i` in `lo .. lo+len-1`. -/
def cellsFrom (base : Addr) (lo len : Nat) : List Nat := (List.range len).map fun j => base.toNat + (lo + j)

/-- The `pq` cells a launch reads: `PQ + (q << pqshift)`, `1 <= q < counth` (R173, R178). -/
def nttPqCells (o : NttOperands) : List Nat :=
  (List.range ((nttCounth o).toNat - 1)).map fun j =>
    o.pq.toNat + (j + 1) * 2 ^ (o.maxDeg.toNat - o.deg.toNat)

/-- The `omegas` cells a launch may read: `OM + j`, `m-lgp-deg <= j < m-deg` (R178). -/
def nttOmegaCells (o : NttOperands) : List Nat :=
  cellsFrom o.om (log2 o.n - o.lgp.toNat - o.deg.toNat) o.lgp.toNat

/-- The read footprint (R178). -/
def nttReads (o : NttOperands) : List Nat :=
  cellsFrom o.x 0 o.n.toNat ++ nttPqCells o ++ nttOmegaCells o

/-- The write footprint (R178). -/
def nttWrites (o : NttOperands) : List Nat := cellsFrom o.y 0 o.n.toNat

/-- What admission tests of `NTT_STAGE` (R163, R178, R179). -/
def nttRequest (c : Params) (o : NttOperands) : Request where
  paramsOk := nttParamsOk c o
  reads := nttReads o
  others := nttReads o
  writes := nttWrites o

/-! ### `SCALAR_MUL` (43_scalar_mul.md) -/

/-- Read footprint and write footprint (R214). -/
def scalarCells (o : ScalarOperands) : List Nat := cellsFrom o.el 0 o.n.toNat

/-- What admission tests of `SCALAR_MUL`: the pattern denotes an element, and the cells; there is no other array
(R211, R214). -/
def scalarRequest (c : Params) (o : ScalarOperands) : Request where
  paramsOk := (fieldDec c o.scalar).isSome
  reads := scalarCells o
  others := []
  writes := scalarCells o

/-! ### `LOOKUP_EVAL` (44_lookup_eval.md) -/

/-- `r_next = (idx + rot_scale) & (size - 1)` (R225). -/
def lookupNext (o : LookupOperands) (idx : U32) : U32 := (idx + o.rotScale) &&& (o.size - 1)

/-- `r_prev = (idx + size - rot_scale) & (size - 1)`, left to right (R225). -/
def lookupPrev (o : LookupOperands) (idx : U32) : U32 := ((idx + o.size) - o.rotScale) &&& (o.size - 1)

/-- Preconditions P1 to P3 (R223). -/
def lookupParamsOk (o : LookupOperands) : Bool :=
  isPow2 o.size && isPow2 o.rotScale && decide (o.rotScale.toNat < o.size.toNat)

/-- The cells of the eight read-only arrays (R236, R237). -/
def lookupOthers (o : LookupOperands) : List Nat :=
  [o.tab, o.pic, o.ptc, o.prd, o.l0, o.ll, o.la].flatMap (fun b => cellsFrom b 0 o.size.toNat) ++
    cellsFrom o.ch 0 3

/-- The write footprint (R236). -/
def lookupWrites (o : LookupOperands) : List Nat := cellsFrom o.val 0 o.size.toNat

/-- What admission tests of `LOOKUP_EVAL` (R223, R236, R237). -/
def lookupRequest (o : LookupOperands) : Request where
  paramsOk := lookupParamsOk o
  reads := lookupWrites o ++ lookupOthers o
  others := lookupOthers o
  writes := lookupWrites o

/-! ### Footprints of commands and of the launch in flight -/

/-- The cells a command reads. -/
def commandReads : Instr → List Nat
  | .nttStage o => nttReads o
  | .scalarMul o => scalarCells o
  | .lookupEval o => lookupWrites o ++ lookupOthers o

/-- The cells a command writes. -/
def commandWrites : Instr → List Nat
  | .nttStage o => nttWrites o
  | .scalarMul o => scalarCells o
  | .lookupEval o => lookupWrites o

/-- The cells a launch reads. -/
def launchReads (l : Launch) : List Nat := commandReads l.command

/-- The cells a launch writes. -/
def launchWrites (l : Launch) : List Nat := commandWrites l.command

end Sys2Proof.Machine
end

