-- ==== Sys2Proof/Machine/LookupEval.lean ====
section
/-! DEFINITION. `LOOKUP_EVAL` (44_lookup_eval.md R220 to R242): the five terms, the functional form of R233, and the
lane program of R232. -/

namespace Sys2Proof.Machine

/-! ### The five terms -/

/-- `t1 = fmul(q0, fsub(ONE, z))` (R227). -/
def lookupTerm1 (p q0 z : Nat) : Nat := fmul p q0 (fsub p (fone p) z)

/-- `t2 = fmul(ql, fsub(fsqr(z), z))` (R228). -/
def lookupTerm2 (p ql z : Nat) : Nat := fmul p ql (fsub p (fsqr p z) z)

/-- `t3 = fmul(qa, fsub(fmul(fmul(fadd(a, beta), fadd(s, gamma)), zn), fmul(z, tb)))` (R229). -/
def lookupTerm3 (p qa a beta s gamma zn z tb : Nat) : Nat :=
  fmul p qa (fsub p (fmul p (fmul p (fadd p a beta) (fadd p s gamma)) zn) (fmul p z tb))

/-- `t4 = fmul(q0, fsub(a, s))` (R230). -/
def lookupTerm4 (p q0 a s : Nat) : Nat := fmul p q0 (fsub p a s)

/-- `t5 = fmul(fmul(qa, fsub(a, s)), fsub(a, ap))` (R231). -/
def lookupTerm5 (p qa a s ap : Nat) : Nat := fmul p (fmul p qa (fsub p a s)) (fsub p a ap)

/-- `v <- fadd(fmul(v, y), t)` (R226). -/
def foldTerm (p v y t : Nat) : Nat := fadd p (fmul p v y) t

/-! ### Functional form (R233) -/

/-- `v5(idx)`, all reads from the memory at `START`. -/
def lookupValue (p : Nat) (o : LookupOperands) (gm : List (Nat × Nat)) (idx : U32) : Nat :=
  let get := fun (base : Addr) (i : U32) => valueAt p gm (elemAddr base i)
  let y := get o.ch 0
  let beta := get o.ch 1
  let gamma := get o.ch 2
  let z := get o.prd idx
  let zn := get o.prd (lookupNext o idx)
  let a := get o.pic idx
  let ap := get o.pic (lookupPrev o idx)
  let s := get o.ptc idx
  let tb := get o.tab idx
  let q0 := get o.l0 idx
  let ql := get o.ll idx
  let qa := get o.la idx
  let v1 := foldTerm p (get o.val idx) y (lookupTerm1 p q0 z)
  let v2 := foldTerm p v1 y (lookupTerm2 p ql z)
  let v3 := foldTerm p v2 y (lookupTerm3 p qa a beta s gamma zn z tb)
  let v4 := foldTerm p v3 y (lookupTerm4 p q0 a s)
  foldTerm p v4 y (lookupTerm5 p qa a s ap)

/-- Every store of the launch: `VAL + idx` receives `v5(idx)` (R233). -/
def lookupStores (p : Nat) (o : LookupOperands) (gm : List (Nat × Nat)) : List (Nat × Nat) :=
  (upTo o.size).map fun idx => (elemAddr o.val idx, lookupValue p o gm idx)

/-- `GM'` of R233. -/
def lookupMemory (p : Nat) (o : LookupOperands) (gm : List (Nat × Nat)) : List (Nat × Nat) :=
  gmStores gm (lookupStores p o gm)

/-! ### Lanes (R232) -/

/-- Lane `idx` as it is created (10_state.md R32, R275). -/
def newLookupLane (idx : U32) : LookupLane where
  idx := idx
  progress := .y
  rNext := none
  rPrev := none
  y := none
  beta := none
  gamma := none
  v := none
  z := none
  zn := none
  a := none
  ap := none
  s := none
  tb := none
  q0 := none
  ql := none
  qa := none
  t1 := none
  t2 := none
  t3 := none
  t4 := none
  t5 := none

/-- The launch an admitted `START` creates: `size` lanes (R224). -/
def newLookupLaunch (o : LookupOperands) : Launch := .lookup o ((upTo o.size).map newLookupLane)

/-- What a lane's step leaves: the lane and global memory. -/
structure LookupEffect where
  lane : LookupLane
  gm : List (Nat × Nat)
deriving DecidableEq, Repr

/-- One step of a lane: the statement of R232 its progress names; a lane at `END` stays. R232 assigns no `t1 .. t5`, which
10_state.md R34 lists: that the step of fold `k` also writes `t_k` is a DESIGN CHOICE (log 22). -/
def lookupLaneStep (m : State) (o : LookupOperands) (l : LookupLane) : Except Fault LookupEffect :=
  let p := m.cfg.pMod
  match l.progress with
  | .y => do
    let y ← memLoad m o.ch 0
    return ⟨{ l with y := some y, progress := .beta }, m.gm⟩
  | .beta => do
    let beta ← memLoad m o.ch 1
    return ⟨{ l with beta := some beta, progress := .gamma }, m.gm⟩
  | .gamma => do
    let gamma ← memLoad m o.ch 2
    return ⟨{ l with gamma := some gamma, progress := .rNext }, m.gm⟩
  | .rNext => .ok ⟨{ l with rNext := some (lookupNext o l.idx), progress := .rPrev }, m.gm⟩
  | .rPrev => .ok ⟨{ l with rPrev := some (lookupPrev o l.idx), progress := .v }, m.gm⟩
  | .v => do
    let v ← memLoad m o.val l.idx
    return ⟨{ l with v := some v, progress := .z }, m.gm⟩
  | .z => do
    let z ← memLoad m o.prd l.idx
    return ⟨{ l with z := some z, progress := .zn }, m.gm⟩
  | .zn => do
    let r ← temp l.rNext
    let zn ← memLoad m o.prd r
    return ⟨{ l with zn := some zn, progress := .a }, m.gm⟩
  | .a => do
    let a ← memLoad m o.pic l.idx
    return ⟨{ l with a := some a, progress := .ap }, m.gm⟩
  | .ap => do
    let r ← temp l.rPrev
    let ap ← memLoad m o.pic r
    return ⟨{ l with ap := some ap, progress := .s }, m.gm⟩
  | .s => do
    let s ← memLoad m o.ptc l.idx
    return ⟨{ l with s := some s, progress := .tb }, m.gm⟩
  | .tb => do
    let tb ← memLoad m o.tab l.idx
    return ⟨{ l with tb := some tb, progress := .q0 }, m.gm⟩
  | .q0 => do
    let q0 ← memLoad m o.l0 l.idx
    return ⟨{ l with q0 := some q0, progress := .ql }, m.gm⟩
  | .ql => do
    let ql ← memLoad m o.ll l.idx
    return ⟨{ l with ql := some ql, progress := .qa }, m.gm⟩
  | .qa => do
    let qa ← memLoad m o.la l.idx
    return ⟨{ l with qa := some qa, progress := .term1 }, m.gm⟩
  | .term1 => do
    let v ← temp l.v
    let y ← temp l.y
    let q0 ← temp l.q0
    let z ← temp l.z
    let t := lookupTerm1 p q0 z
    return ⟨{ l with t1 := some t, v := some (foldTerm p v y t), progress := .term2 }, m.gm⟩
  | .term2 => do
    let v ← temp l.v
    let y ← temp l.y
    let ql ← temp l.ql
    let z ← temp l.z
    let t := lookupTerm2 p ql z
    return ⟨{ l with t2 := some t, v := some (foldTerm p v y t), progress := .term3 }, m.gm⟩
  | .term3 => do
    let v ← temp l.v
    let y ← temp l.y
    let qa ← temp l.qa
    let a ← temp l.a
    let beta ← temp l.beta
    let s ← temp l.s
    let gamma ← temp l.gamma
    let zn ← temp l.zn
    let z ← temp l.z
    let tb ← temp l.tb
    let t := lookupTerm3 p qa a beta s gamma zn z tb
    return ⟨{ l with t3 := some t, v := some (foldTerm p v y t), progress := .term4 }, m.gm⟩
  | .term4 => do
    let v ← temp l.v
    let y ← temp l.y
    let q0 ← temp l.q0
    let a ← temp l.a
    let s ← temp l.s
    let t := lookupTerm4 p q0 a s
    return ⟨{ l with t4 := some t, v := some (foldTerm p v y t), progress := .term5 }, m.gm⟩
  | .term5 => do
    let v ← temp l.v
    let y ← temp l.y
    let qa ← temp l.qa
    let a ← temp l.a
    let s ← temp l.s
    let ap ← temp l.ap
    let t := lookupTerm5 p qa a s ap
    return ⟨{ l with t5 := some t, v := some (foldTerm p v y t), progress := .store }, m.gm⟩
  | .store => do
    let v ← temp l.v
    let gm ← memStore m o.val l.idx v
    return ⟨{ l with progress := .ended }, gm⟩
  | .ended => .ok ⟨l, m.gm⟩

/-- The machine after lane number `li` has stepped. -/
def lookupLaneMove (s : State) (o : LookupOperands) (ls : List LookupLane) (li : Nat) (l : LookupLane) :
    Except Fault State := do
  let r ← lookupLaneStep s o l
  return { s with gm := r.gm, launch := some (.lookup o (ls.set li r.lane)) }

/-- The moves of the lanes: each lane not at `END` (10_state.md R22). -/
def lookupMoves (s : State) (o : LookupOperands) (ls : List LookupLane) : List (Except Fault State) :=
  (ls.zipIdx.filter fun l => l.1.progress != .ended).map fun l => lookupLaneMove s o ls l.2 l.1

/-- Every lane has progress `END` (60_exceptions.md R272). -/
def lookupEnded (ls : List LookupLane) : Bool := ls.all fun l => l.progress == .ended

/-! ### The command -/

/-- `LOOKUP_EVAL` (R220): admission by R223, R236 and R237, then R232 or R233. -/
def execLookupEval (o : LookupOperands) (s : State) : Host.Outcome State Fault Refusal :=
  startLaunch (lookupRequest o) (newLookupLaunch o) (lookupMemory s.cfg.pMod o s.gm) s

end Sys2Proof.Machine
end

