-- ==== Sys2Proof/Machine/PowLookup.lean ====
section
/-! DEFINITION. `POW_LOOKUP`, the twiddle power lookup (42_pow_lookup.md R200 to R204): the table positions the
exponent's digits select, and the product of the entries there. -/

namespace Sys2Proof.Machine

/-- The loop of R200: the positions read, from the least significant digit up, until the remaining exponent is
zero; `fuel` is at least its number of digits. -/
def powPositions : Nat → U32 → Nat → List U32
  | 0, _, _ => []
  | fuel + 1, e, j =>
    if e = 0 then []
    else if e &&& 1 ≠ 0 then BitVec.ofNat 32 j :: powPositions fuel (e >>> 1) (j + 1)
    else powPositions fuel (e >>> 1) (j + 1)

/-- The positions of the set digits of a uint. -/
def powReads (e : U32) : List U32 := powPositions 32 e 0

/-- The product of the entries read, from `ONE` (R200). -/
def powProduct (p : Nat) (entries : List Nat) : Nat := entries.foldl (fmul p) (fone p)

/-- `POW_LOOKUP(B, e)` on a memory (R200). -/
def powLookup (p : Nat) (gm : List (Nat × Nat)) (base : Addr) (e : U32) : Nat :=
  powProduct p ((powReads e).map fun j => valueAt p gm (elemAddr base j))

/-- The loads of a lane's lookup, in order (R201). -/
def loadAll (s : State) (base : Addr) : List U32 → Except Fault (List Nat)
  | [] => .ok []
  | j :: js =>
    match memLoad s base j with
    | .error f => .error f
    | .ok v =>
      match loadAll s base js with
      | .error f => .error f
      | .ok vs => .ok (v :: vs)

/-- `POW_LOOKUP(B, e)` as a lane runs it (41_ntt_stage.md R176). -/
def lanePowLookup (s : State) (base : Addr) (e : U32) : Except Fault Nat :=
  match loadAll s base (powReads e) with
  | .ok vs => .ok (powProduct s.cfg.pMod vs)
  | .error f => .error f

end Sys2Proof.Machine
end

