-- ==== Sys2Proof/Machine/NttStage.lean ====
section
/-! DEFINITION. `NTT_STAGE` (41_ntt_stage.md R160 to R186): the functional form of R180, and the lane micro-program of
R176 with its scratch and its barrier. -/

namespace Sys2Proof.Machine

/-! ### Functional form (R180) -/

/-- `twiddle = POW_LOOKUP(OM, (n >> lgp >> deg) * k)` of a group (R167). -/
def groupTwiddle (p : Nat) (o : NttOperands) (gm : List (Nat × Nat)) (index : U32) : Nat :=
  powLookup p gm o.om (nttExponent o (nttK o index))

/-- Step 2: `u[i] = fmul(tw^i, GM[X + index + i*t])` (R168). -/
def groupStaged (p : Nat) (o : NttOperands) (gm : List (Nat × Nat)) (index : U32) : List Nat :=
  (upTo (nttCount o)).map fun i =>
    fmul p (fpow p (groupTwiddle p o gm index) i.toNat) (valueAt p gm (elemAddr o.x (nttSource o index i)))

/-- `u[i]` of a group's buffer; every `i` used is inside it. -/
def cellOf (p : Nat) (u : List Nat) (i : U32) : Nat := u.getD i.toNat (freeElement p i.toNat)

/-- The difference of a butterfly, times its `pq` entry when the digit index is not zero (R172). -/
def twisted (p : Nat) (o : NttOperands) (gm : List (Nat × Nat)) (rnd : Nat) (di : U32) (d : Nat) : Nat :=
  if di ≠ 0 then fmul p (valueAt p gm (elemAddr o.pq (pqIndex di rnd (nttPqshift o)))) d else d

/-- The butterfly of pair number `i` in round `rnd` (R171, R172). -/
def butterfly (p : Nat) (o : NttOperands) (gm : List (Nat × Nat)) (rnd : Nat) (u : List Nat) (i : U32) : List Nat :=
  let bit := nttBit o rnd
  let a := cellOf p u (pairLow bit i)
  let b := cellOf p u (pairHigh bit i)
  (u.set (pairLow bit i).toNat (fadd p a b)).set (pairHigh bit i).toNat
    (twisted p o gm rnd (pairDi bit i) (fsub p a b))

/-- Round `rnd`: one butterfly per pair number (R170). -/
def groupRound (p : Nat) (o : NttOperands) (gm : List (Nat × Nat)) (u : List Nat) (rnd : Nat) : List Nat :=
  (upTo (nttCounth o)).foldl (butterfly p o gm rnd) u

/-- The buffer after all rounds (R170). -/
def groupResult (p : Nat) (o : NttOperands) (gm : List (Nat × Nat)) (index : U32) : List Nat :=
  (List.range o.deg.toNat).foldl (groupRound p o gm) (groupStaged p o gm index)

/-- The element address local index `i` is scattered to: `Y + base + bitreverse(i, deg)*p` (R174, R175). -/
def nttStoreAddr (o : NttOperands) (index i : U32) : Nat :=
  elemAddr o.y (nttDest o (nttBase o index (nttK o index)) (nttReverse o i))

/-- Step 4: the stores of a group (R174). -/
def groupStores (p : Nat) (o : NttOperands) (gm : List (Nat × Nat)) (index : U32) : List (Nat × Nat) :=
  (upTo (nttCount o)).map fun i => (nttStoreAddr o index i, cellOf p (groupResult p o gm index) i)

/-- Every store of the launch; all reads are from the memory at `START` (R180). -/
def nttStores (p : Nat) (o : NttOperands) (gm : List (Nat × Nat)) : List (Nat × Nat) :=
  (upTo (nttT o)).flatMap (groupStores p o gm)

/-- `GM'` of R180. -/
def nttMemory (p : Nat) (o : NttOperands) (gm : List (Nat × Nat)) : List (Nat × Nat) :=
  gmStores gm (nttStores p o gm)

/-! ### Lanes (R176) -/

/-- A lane as it is created: at its first statement, no temporary holding a value (10_state.md R32, R275). -/
def newNttLane (lid : U32) : NttLane where
  lid := lid
  progress := .seed .geometry
  t := none
  p := none
  k := none
  count := none
  counth := none
  counts := none
  counte := none
  pqshift := none
  bit := none
  di := none
  i0 := none
  i1 := none
  e := none
  base := none
  twiddle := none
  tmp := none
  a := none
  b := none
  d := none

/-- A group as it is created: `L` lanes, barrier instance 0, an empty scratch buffer of `2^deg` cells (R166;
10_state.md R36, R37). -/
def newNttGroup (c : Params) (o : NttOperands) (index : U32) : NttGroup where
  index := index
  gen := 0
  arrived := []
  scratch := List.replicate (nttCount o).toNat none
  lanes := (upTo (1#32 <<< nttLgl c o)).map newNttLane

/-- The launch an admitted `START` creates: `n >> deg` groups (R164). -/
def newNttLaunch (c : Params) (o : NttOperands) : Launch :=
  .ntt o ((upTo (nttT o)).map (newNttGroup c o))

/-- What a lane's step leaves: the lane, its group's scratch, and global memory. -/
structure NttEffect where
  lane : NttLane
  scratch : List (Option Nat)
  gm : List (Nat × Nat)
deriving DecidableEq, Repr

/-- The lines of `SEED` (R176). R176 names derived quantities of R162 and R166 without a line that forms them: that the
step `geometry` writes them first is a DESIGN CHOICE (log 15). -/
def nttSeedStep (s : State) (o : NttOperands) (g : NttGroup) (l : NttLane) : SeedLine → Except Fault NttEffect
  | .geometry =>
    .ok ⟨{ l with t := some (nttT o), p := some (nttP o), count := some (nttCount o),
                  counth := some (nttCounth o), pqshift := some (nttPqshift o),
                  counts := some (nttCounts s.cfg o l.lid), counte := some (nttCounte s.cfg o l.lid),
                  progress := .seed .k }, g.scratch, s.gm⟩
  | .k => do
    let p ← temp l.p
    return ⟨{ l with k := some (g.index &&& (p - 1)), progress := .seed .exponent }, g.scratch, s.gm⟩
  | .exponent => do
    let k ← temp l.k
    return ⟨{ l with e := some (nttExponent o k), progress := .seed .lookup }, g.scratch, s.gm⟩
  | .lookup => do
    let e ← temp l.e
    let tw ← lanePowLookup s o.om e
    return ⟨{ l with twiddle := some tw, progress := .seed .ladder }, g.scratch, s.gm⟩
  | .ladder => do
    let tw ← temp l.twiddle
    let counts ← temp l.counts
    return ⟨{ l with tmp := some (fpow s.cfg.pMod tw counts.toNat), progress := .stage counts .load },
      g.scratch, s.gm⟩

/-- The lines of `STAGE(i)`; after the lane's last element it arrives at barrier instance 0 (R176). -/
def nttStageStep (s : State) (o : NttOperands) (g : NttGroup) (l : NttLane) (i : U32) :
    StageLine → Except Fault NttEffect
  | .load => do
    let t ← temp l.t
    let a ← memLoad s o.x (g.index + i * t)
    return ⟨{ l with a := some a, progress := .stage i .put }, g.scratch, s.gm⟩
  | .put => do
    let tmp ← temp l.tmp
    let a ← temp l.a
    let u ← scratchWrite g.scratch i (fmul s.cfg.pMod tmp a)
    return ⟨{ l with progress := .stage i .ladder }, u, s.gm⟩
  | .ladder => do
    let tmp ← temp l.tmp
    let tw ← temp l.twiddle
    let counte ← temp l.counte
    return ⟨{ l with tmp := some (fmul s.cfg.pMod tmp tw),
                     progress := if i + 1 < counte then .stage (i + 1) .load else .bar 0 }, g.scratch, s.gm⟩

/-- The lines of `BFLY(rnd, i)`; after the lane's last pair it arrives at barrier instance `rnd + 1` (R176). -/
def nttBflyStep (s : State) (o : NttOperands) (g : NttGroup) (l : NttLane) (rnd : Nat) (i : U32) :
    BflyLine → Except Fault NttEffect
  | .span => do
    let counth ← temp l.counth
    return ⟨{ l with bit := some (counth >>> rnd), progress := .bfly rnd i .pair }, g.scratch, s.gm⟩
  | .pair => do
    let bit ← temp l.bit
    return ⟨{ l with di := some (pairDi bit i), i0 := some (pairLow bit i), i1 := some (pairHigh bit i),
                     progress := .bfly rnd i .read }, g.scratch, s.gm⟩
  | .read => do
    let i0 ← temp l.i0
    let i1 ← temp l.i1
    let a ← scratchRead g.scratch i0
    let b ← scratchRead g.scratch i1
    return ⟨{ l with a := some a, b := some b, progress := .bfly rnd i .sum }, g.scratch, s.gm⟩
  | .sum => do
    let i0 ← temp l.i0
    let a ← temp l.a
    let b ← temp l.b
    let u ← scratchWrite g.scratch i0 (fadd s.cfg.pMod a b)
    return ⟨{ l with progress := .bfly rnd i .diff }, u, s.gm⟩
  | .diff => do
    let a ← temp l.a
    let b ← temp l.b
    return ⟨{ l with d := some (fsub s.cfg.pMod a b), progress := .bfly rnd i .twist }, g.scratch, s.gm⟩
  | .twist => do
    let di ← temp l.di
    let d ← temp l.d
    if di ≠ 0 then
      let pqshift ← temp l.pqshift
      let w ← memLoad s o.pq (pqIndex di rnd pqshift)
      return ⟨{ l with d := some (fmul s.cfg.pMod w d), progress := .bfly rnd i .put }, g.scratch, s.gm⟩
    else
      return ⟨{ l with progress := .bfly rnd i .put }, g.scratch, s.gm⟩
  | .put => do
    let i1 ← temp l.i1
    let d ← temp l.d
    let counte ← temp l.counte
    let u ← scratchWrite g.scratch i1 d
    return ⟨{ l with progress := if i + 1 < half counte then .bfly rnd (i + 1) .span else .bar (rnd + 1) },
      u, s.gm⟩

/-- The lines of `SCAT(i)`; after the lane's last pair number it ends (R176). -/
def nttScatStep (s : State) (o : NttOperands) (g : NttGroup) (l : NttLane) (i : U32) :
    ScatLine → Except Fault NttEffect
  | .base => do
    let k ← temp l.k
    return ⟨{ l with base := some (nttBase o g.index k), progress := .scat i .low }, g.scratch, s.gm⟩
  | .low => do
    let base ← temp l.base
    let p ← temp l.p
    let v ← scratchRead g.scratch (nttReverse o i)
    let gm ← memStore s o.y (base + i * p) v
    return ⟨{ l with progress := .scat i .high }, g.scratch, gm⟩
  | .high => do
    let base ← temp l.base
    let p ← temp l.p
    let counth ← temp l.counth
    let counte ← temp l.counte
    let v ← scratchRead g.scratch (nttReverse o (i + counth))
    let gm ← memStore s o.y (base + (i + counth) * p) v
    return ⟨{ l with progress := if i + 1 < half counte then .scat (i + 1) .base else .ended }, g.scratch, gm⟩

/-- Whether a lane can step: it is not at a barrier and not at `END` (10_state.md R21, R35). -/
def nttAble (l : NttLane) : Bool :=
  match l.progress with
  | .bar _ => false
  | .ended => false
  | _ => true

/-- One step of a lane: the statement its progress names; a lane that cannot step stays. -/
def nttLaneStep (s : State) (o : NttOperands) (g : NttGroup) (l : NttLane) : Except Fault NttEffect :=
  match l.progress with
  | .seed line => nttSeedStep s o g l line
  | .stage i line => nttStageStep s o g l i line
  | .bfly rnd i line => nttBflyStep s o g l rnd i line
  | .scat i line => nttScatStep s o g l i line
  | .bar _ => .ok ⟨l, g.scratch, s.gm⟩
  | .ended => .ok ⟨l, g.scratch, s.gm⟩

/-- A lane number put into a rising list without repeats. -/
def insertLid : Nat → List Nat → List Nat
  | a, [] => [a]
  | a, b :: bs => if a < b then a :: b :: bs else if a = b then b :: bs else b :: insertLid a bs

/-- `arrived` after a lane's step: a lane whose progress has reached a barrier joins it (20_memory.md R76). -/
def arrivals (arrived : List Nat) (l : NttLane) : List Nat :=
  match l.progress with
  | .bar _ => insertLid l.lid.toNat arrived
  | _ => arrived

/-- The machine after lane number `li` of group number `gi` has stepped. The group's scratch stays as written, also once
its last lane has ended, where 10_state.md R36 defines no contents (log 34). -/
def nttLaneMove (s : State) (o : NttOperands) (gs : List NttGroup) (gi : Nat) (g : NttGroup) (li : Nat) (l : NttLane) :
    Except Fault State := do
  let r ← nttLaneStep s o g l
  return { s with
    gm := r.gm
    launch := some (.ntt o (gs.set gi
      { g with lanes := g.lanes.set li r.lane, scratch := r.scratch, arrived := arrivals g.arrived r.lane })) }

/-- The instance a group can release: all its lanes have arrived with the same number (20_memory.md R76). -/
def releasable (g : NttGroup) : Option Nat :=
  match g.lanes with
  | [] => none
  | l :: _ =>
    match l.progress with
    | .bar j =>
      if g.lanes.all (fun l => l.progress == .bar j && g.arrived.contains l.lid.toNat) then some j else none
    | _ => none

/-- The statement after `BAR(j)` of a lane: its first pair of round `j`, or of the scatter after the last round
(R176). -/
def afterBarrier (c : Params) (o : NttOperands) (j : Nat) (l : NttLane) : NttLane :=
  { l with progress :=
      if j < o.deg.toNat then .bfly j (half (nttCounts c o l.lid)) .span
      else .scat (half (nttCounts c o l.lid)) .base }

/-- A group after the release of instance `j` (20_memory.md R76). -/
def releaseGroup (c : Params) (o : NttOperands) (j : Nat) (g : NttGroup) : NttGroup :=
  { g with arrived := [], gen := j + 1, lanes := g.lanes.map (afterBarrier c o j) }

/-- The machine after group number `gi` has released instance `j`. -/
def nttReleaseMove (s : State) (o : NttOperands) (gs : List NttGroup) (gi : Nat) (g : NttGroup) (j : Nat) : State :=
  { s with launch := some (.ntt o (gs.set gi (releaseGroup s.cfg o j g))) }

/-- The moves of one group: each lane able to step, and the barrier if it can be released (10_state.md R22). -/
def nttGroupMoves (s : State) (o : NttOperands) (gs : List NttGroup) (gi : Nat) (g : NttGroup) :
    List (Except Fault State) :=
  (g.lanes.zipIdx.filter fun l => nttAble l.1).map (fun l => nttLaneMove s o gs gi g l.2 l.1) ++
    (releasable g).toList.map fun j => .ok (nttReleaseMove s o gs gi g j)

/-- The moves of the lanes and barriers of a launch. -/
def nttMoves (s : State) (o : NttOperands) (gs : List NttGroup) : List (Except Fault State) :=
  gs.zipIdx.flatMap fun g => nttGroupMoves s o gs g.2 g.1

/-- Every lane has progress `END` (60_exceptions.md R272). -/
def nttEnded (gs : List NttGroup) : Bool := gs.all fun g => g.lanes.all fun l => l.progress == .ended

/-! ### The command -/

/-- `NTT_STAGE` (R160): admission by R163, R178 and R179, then R176 or R180. -/
def execNttStage (o : NttOperands) (s : State) : Host.Outcome State Fault Refusal :=
  startLaunch (nttRequest s.cfg o) (newNttLaunch s.cfg o) (nttMemory s.cfg.pMod o s.gm) s

end Sys2Proof.Machine
end

