-- ==== Sys2Proof/Machine/ScalarMul.lean ====
section
/-! DEFINITION. `SCALAR_MUL` (43_scalar_mul.md R210 to R217): the functional form and the lane program of R213. -/

namespace Sys2Proof.Machine

/-- Every store of the launch: `EL + i` receives `fmul(GM[EL + i], scalar)` (R213). -/
def scalarStores (p : Nat) (o : ScalarOperands) (factor : Nat) (gm : List (Nat × Nat)) : List (Nat × Nat) :=
  (upTo o.n).map fun i => (elemAddr o.el i, fmul p (valueAt p gm (elemAddr o.el i)) factor)

/-- `GM'` of R213. -/
def scalarMemory (p : Nat) (o : ScalarOperands) (factor : Nat) (gm : List (Nat × Nat)) : List (Nat × Nat) :=
  gmStores gm (scalarStores p o factor gm)

/-- Lane `gid` as it is created (10_state.md R32, R275). -/
def newScalarLane (gid : U32) : ScalarLane where
  gid := gid
  progress := .load
  v := none

/-- The launch an admitted `START` creates: `n` lanes (R212). -/
def newScalarLaunch (o : ScalarOperands) (factor : Nat) : Launch :=
  .scalar o factor ((upTo o.n).map newScalarLane)

/-- What a lane's step leaves: the lane and global memory. -/
structure ScalarEffect where
  lane : ScalarLane
  gm : List (Nat × Nat)
deriving DecidableEq, Repr

/-- One step of a lane (R213); a lane at `END` stays. -/
def scalarLaneStep (s : State) (o : ScalarOperands) (factor : Nat) (l : ScalarLane) : Except Fault ScalarEffect :=
  match l.progress with
  | .load => do
    let v ← memLoad s o.el l.gid
    return ⟨{ l with v := some v, progress := .store }, s.gm⟩
  | .store => do
    let v ← temp l.v
    let gm ← memStore s o.el l.gid (fmul s.cfg.pMod v factor)
    return ⟨{ l with progress := .ended }, gm⟩
  | .ended => .ok ⟨l, s.gm⟩

/-- The machine after lane number `li` has stepped. -/
def scalarLaneMove (s : State) (o : ScalarOperands) (factor : Nat) (ls : List ScalarLane) (li : Nat) (l : ScalarLane) :
    Except Fault State := do
  let r ← scalarLaneStep s o factor l
  return { s with gm := r.gm, launch := some (.scalar o factor (ls.set li r.lane)) }

/-- The moves of the lanes: each lane not at `END` (10_state.md R22). -/
def scalarMoves (s : State) (o : ScalarOperands) (factor : Nat) (ls : List ScalarLane) : List (Except Fault State) :=
  (ls.zipIdx.filter fun l => l.1.progress != .ended).map fun l => scalarLaneMove s o factor ls l.2 l.1

/-- Every lane has progress `END` (60_exceptions.md R272). -/
def scalarEnded (ls : List ScalarLane) : Bool := ls.all fun l => l.progress == .ended

/-- The element the scalar pattern denotes (30_encoding.md R107); a pattern that denotes none is refused at
admission, and the free element stands for it until then. -/
def scalarFactor (c : Params) (o : ScalarOperands) : Nat := (fieldDec c o.scalar).getD (freeElement c.pMod 0)

/-- `SCALAR_MUL` (R210): admission by R211 and R214, then R213. -/
def execScalarMul (o : ScalarOperands) (s : State) : Host.Outcome State Fault Refusal :=
  startLaunch (scalarRequest s.cfg o) (newScalarLaunch o (scalarFactor s.cfg o))
    (scalarMemory s.cfg.pMod o (scalarFactor s.cfg o) s.gm) s

end Sys2Proof.Machine
end

