-- ==== Sys2Proof/Machine/Dispatch.lean ====
section
/-! DEFINITION. One arm per command: what `START` of it does (60_exceptions.md R271). -/

namespace Sys2Proof.Machine

def exec (i : Instr) (s : State) : Host.Outcome State Fault Refusal :=
  match i with
  | .nttStage o => Sys2Proof.Machine.execNttStage o s
  | .scalarMul o => Sys2Proof.Machine.execScalarMul o s
  | .lookupEval o => Sys2Proof.Machine.execLookupEval o s

end Sys2Proof.Machine
end

