-- ==== Sys2Proof/Machine/Flags.lean ====
section
/-! DEFINITION. The block has no flags, condition codes or predicates (10_state.md R38). What software reads of its
condition is the two words below. -/

namespace Sys2Proof.Machine

/-- The `STATUS` word: `STATE` in bits 1:0, bits 31:2 zero (10_state.md R27). -/
def statusWord : SeqState → Word
  | .idle => 0
  | .busy => 1
  | .done => 2
  | .fault => 3

/-- The `FAULT_CAUSE` word: `CODE` in bits 7:0, bits 31:8 zero (10_state.md R28, 60_exceptions.md R251). -/
def causeWord : FaultCode → Word
  | .none => 0
  | .descUnwritten => 1
  | .illegalOpcode => 2
  | .badParam => 3
  | .outOfRange => 4
  | .overlap => 5
  | .uninitRead => 6

end Sys2Proof.Machine
end

