-- ==== Sys2Proof/Machine/HostPort.lean ====
section
/-! DEFINITION. What the host does: the register window (10_state.md R24 to R31, 60_exceptions.md R270 to R274),
global memory and its allocation (20_memory.md R72, R73), and reset (70_reset_and_hazards.md R290 to R293). -/

namespace Sys2Proof.Machine

/-! ### The register window -/

/-- The word index of a register access: an aligned 32-bit word of the 64-word window at `REG_BASE`; no other
access has a meaning (10_state.md R24). -/
def windowIndex (c : Params) (addr bytes : Nat) : Option Nat :=
  if bytes = 4 ∧ c.regBase ≤ addr ∧ addr < c.regBase + 256 ∧ (addr - c.regBase) % 4 = 0 then
    some ((addr - c.regBase) / 4)
  else none

/-- Word indices of the registers: byte offset over 4 (10_state.md R24). -/
abbrev ctrlIndex : Nat := 0
abbrev statusIndex : Nat := 1
abbrev causeIndex : Nat := 2
abbrev descIndex : Nat := 32

/-- `DESC[i]` as last written since reset; words past 31 do not exist. -/
def State.descWord (s : State) (i : Nat) : Option Word := (s.desc.toList[i]?).getD none

/-- What a read of window word `k` returns: `CTRL` and reserved words read 0, an unwritten `DESC` word reads as a
draw (10_state.md R24 to R29). -/
def State.windowRead (s : State) (k : Nat) : Word :=
  if k = statusIndex then statusWord s.status
  else if k = causeIndex then causeWord s.cause
  else if descIndex ≤ k then (s.descWord (k - descIndex)).getD (Config.freeWord s.draws)
  else 0

/-- A register read by the host: no state of the block changes (60_exceptions.md R274); the model's `draws` counts the
draw of an unwritten `DESC` word (log 9). A read of `STATUS` that returns `DONE` gives the host every footprint back
(70_reset_and_hazards.md R302, 60_exceptions.md R278), and one that returns `DONE` or `FAULT` can end its program (R279). -/
def State.readRegister (s : State) (k : Nat) : State :=
  { s with
    rdata := s.windowRead k
    draws := if descIndex ≤ k ∧ s.descWord (k - descIndex) = none then s.draws + 1 else s.draws
    held := if k = statusIndex ∧ s.status = .done then [] else s.held
    run := if k = statusIndex then s.run.seeing s.status s.gm else s.run }

/-- Whether writes to `CTRL` and `DESC` act: not in `BUSY` and not in `FAULT` (10_state.md R25, R29). -/
def State.acceptsWrites (s : State) : Bool :=
  match s.status with
  | .idle => true
  | .done => true
  | .busy => false
  | .fault => false

/-- A write to `DESC[i]` (10_state.md R29). -/
def State.writeDesc (s : State) (i : Nat) (v : Word) : State :=
  if s.acceptsWrites then { s with desc := s.desc.setIfInBounds i (some v) } else s

/-- The fault code of a descriptor that names no command (60_exceptions.md R252 steps 1 to 3). -/
def decodeFault : DecodeError → FaultCode
  | .unwritten => .descUnwritten
  | .illegalOpcode => .illegalOpcode

/-- `START`: ignored unless the state is `IDLE`; else the descriptor is decoded, and the command admitted or refused,
in one step (60_exceptions.md R252, R271). -/
def State.start (s : State) : Host.Outcome State Fault Refusal :=
  match s.status with
  | .idle =>
    match decode s.cfg.fieldWords s.desc.toList with
    | .ok i => exec i s
    | .error e => .next (s.enterFault (decodeFault e))
  | _ => .next s

/-- A write to `CTRL`: bit 1 `CLEAR` first, then bit 0 `START`, other bits ignored; ignored as a whole in `BUSY` and
`FAULT` (10_state.md R25). -/
def State.writeCtrl (s : State) (v : Word) : Host.Outcome State Fault Refusal :=
  if s.acceptsWrites then
    let cleared := if v.getLsbD 1 then s.clear else s
    if v.getLsbD 0 then cleared.start else .next cleared
  else .next s

/-- A write to window word `k`: `STATUS`, `FAULT_CAUSE` and reserved words ignore it (60_exceptions.md R274). -/
def State.writeRegister (s : State) (k : Nat) (v : Word) : Host.Outcome State Fault Refusal :=
  if k = ctrlIndex then s.writeCtrl v
  else if descIndex ≤ k then .next (s.writeDesc (k - descIndex) v)
  else .next s

/-! ### Global memory as the host reaches it -/

/-- Whether the host may read a cell: not one in a write footprint that belongs to the block (20_memory.md R73,
70_reset_and_hazards.md R302). -/
def hostMayRead (s : State) (a : Nat) : Bool := s.held.all fun i => !(commandWrites i).contains a

/-- Whether the host may write a cell: not one in a footprint that belongs to the block (20_memory.md R73,
70_reset_and_hazards.md R302). -/
def hostMayWrite (s : State) (a : Nat) : Bool :=
  s.held.all fun i => !(commandReads i ++ commandWrites i).contains a

/-- A host read of one element. A cell without a value gives a free element of `F` (log 11). -/
def State.hostRead (s : State) (a : Nat) : Host.Outcome State Fault Refusal :=
  if !addrOk s.dom a then .refused .hostOutsideDom
  else if !hostMayRead s a then .refused .hostFootprint
  else
    match gmRead s.gm a with
    | some v => .next { s with edata := v }
    | none => .next { s with edata := freeElement s.cfg.pMod s.draws, draws := s.draws + 1 }

/-- A host write of one element (20_memory.md R72); an element is its residue (40_field_arith.md R140). -/
def State.hostWrite (s : State) (a v : Nat) : Host.Outcome State Fault Refusal :=
  if !addrOk s.dom a then .refused .hostOutsideDom
  else if !hostMayWrite s a then .refused .hostFootprint
  else .next { s with gm := gmWrite s.gm a (v % s.cfg.pMod) }

/-- The host allocates `len` cells from `lo`; they hold no value until written. `Dom` is a set of 64-bit addresses
(10_state.md R39). -/
def State.hostAlloc (s : State) (lo len : Nat) : Host.Outcome State Fault Refusal :=
  if len = 0 then .next s
  else if lo + len ≤ 2 ^ 64 then .next { s with dom := domAdd s.dom lo (lo + len) }
  else .refused .hostAllocation

/-- Whether any cell of `lo .. lo+len-1` is in a footprint that belongs to the block (93_implementation_defined.md
U18). -/
def heldMeets (s : State) (lo len : Nat) : Bool :=
  s.held.any fun i => (commandReads i ++ commandWrites i).any fun a => decide (lo ≤ a ∧ a < lo + len)

/-- The host releases `len` cells from `lo`; their values are gone. -/
def State.hostFree (s : State) (lo len : Nat) : Host.Outcome State Fault Refusal :=
  if len = 0 then .next s
  else if heldMeets s lo len then .refused .hostFootprint
  else .next { s with dom := domRemove s.dom lo (lo + len),
                      gm := s.gm.filter fun c => !decide (lo ≤ c.1 ∧ c.1 < lo + len) }

/-! ### Reset -/

/-- The cells that lose their value by a reset: the write footprint of the launch it destroys (70_reset_and_hazards.md
R292). -/
def State.resetLosses (s : State) : List Nat :=
  match s.launch with
  | some l => launchWrites l
  | none => []

/-- The reset event, from any state, as one step (70_reset_and_hazards.md R290, R292, R293; 10_state.md R45). With the
launch gone its footprint is the host's again (log 35), and what the host starts from here on is a new program (log 36). -/
def State.hardReset (s : State) : State :=
  { s with
    status := .idle
    cause := .none
    desc := Vector.replicate 32 none
    launch := none
    gm := gmErase s.gm s.resetLosses
    held := []
    run := .notStarted }

/-! ### One host operation -/

/-- A poll of `STATUS` (30_encoding.md R112). -/
def State.poll (s : State) : State := s.readRegister statusIndex

/-- The state with `rest` as what the host has still to do. -/
def State.withHost (s : State) (rest : List HostOp) : State := { s with host := rest }

/-- The host's own record of a write of `v` to window word `k`: whether it is a write of `START`, and in which state the
sequencer takes it up, `CLEAR` of the same write first (60_exceptions.md R279; log 36). The block sees nothing of it. -/
def State.noted (s : State) (k : Nat) (v : Word) : State :=
  { s with
    run :=
      if k = ctrlIndex ∧ v.getLsbD 0 then s.run.starting (if v.getLsbD 1 then s.clear else s).status else s.run }

/-- A host operation that starts a command, or tries to: a write of `START` (60_exceptions.md R271). -/
def HostOp.starts (c : Params) : HostOp → Bool
  | .regWrite addr bytes v => windowIndex c addr bytes == some ctrlIndex && v.getLsbD 0
  | .startCommand => true
  | _ => false

/-- The final state of a good run: global memory at the read of `STATUS` that returned `DONE` after the last command was
started; none while the run has no good end (60_exceptions.md R279). -/
def State.finalMemory (s : State) : Option (List (Nat × Nat)) :=
  match s.run with
  | .good final => if s.host.any (HostOp.starts s.cfg) then none else some final
  | _ => none

/-- The operation `op`, with what the host has still to do after it already in `s.host`. A poll that has not seen what it waits for
stays the host's next operation; a poll for the end that sees `FAULT` ends the host's program (30_encoding.md
R112). -/
def hostPerform (op : HostOp) (s : State) : Host.Outcome State Fault Refusal :=
  match op with
  | .regWrite addr bytes v =>
    match windowIndex s.cfg addr bytes with
    | some k => (s.noted k v).writeRegister k v
    | none => .refused .registerAccess
  | .regRead addr bytes =>
    match windowIndex s.cfg addr bytes with
    | some k => .next (s.readRegister k)
    | none => .refused .registerAccess
  | .awaitReady =>
    if s.status = .idle ∨ s.status = .done then .next s.poll
    else .next (s.poll.withHost (.awaitReady :: s.host))
  | .startCommand =>
    let v : Word := if s.status = .done then 3 else 1
    (s.noted ctrlIndex v).writeCtrl v
  | .awaitEnd =>
    match s.status with
    | .done => .next s.poll
    | .fault => .next (s.poll.withHost [])
    | _ => .next (s.poll.withHost (.awaitEnd :: s.host))
  | .memWrite a v => s.hostWrite a v
  | .memRead a => s.hostRead a
  | .alloc lo len => s.hostAlloc lo len
  | .free lo len => s.hostFree lo len
  | .reset => .next s.hardReset

/-- The host's move: its next operation, if it has one. -/
def hostMove (s : State) : Option (Host.Outcome State Fault Refusal) :=
  match s.host with
  | [] => none
  | op :: rest => some (hostPerform op (s.withHost rest))

end Sys2Proof.Machine
end

