-- ==== Sys2Proof/Machine/Agents.lean ====
section
/-! DEFINITION. Which agents can step and which of them does (10_state.md R20 to R22, 20_memory.md R76,
60_exceptions.md R272, R276). -/

namespace Sys2Proof.Machine

/-- The moves of the lanes and barriers of the launch in flight. -/
def laneMoves (s : State) : Launch → List (Except Fault State)
  | .ntt o gs => nttMoves s o gs
  | .scalar o factor ls => scalarMoves s o factor ls
  | .lookup o ls => lookupMoves s o ls

/-- Every lane of the launch has progress `END` (60_exceptions.md R272). -/
def launchEnded : Launch → Bool
  | .ntt _ gs => nttEnded gs
  | .scalar _ _ ls => scalarEnded ls
  | .lookup _ ls => lookupEnded ls

/-- The sequencer's own step, enabled when every lane has ended (60_exceptions.md R272). -/
def finishMoves (s : State) (l : Launch) : List (Except Fault State) :=
  if launchEnded l then [.ok s.endLaunch] else []

/-- Every move enabled while a launch is in flight: lanes, barriers, the sequencer, then the host. -/
def busyMoves (s : State) (l : Launch) : List (Host.Outcome State Fault Refusal) :=
  (laneMoves s l ++ finishMoves s l).map outcomeOf ++ (hostMove s).toList

/-- The agent that steps next: the next pick of `sched`, counted among the enabled moves; an exhausted list picks
the first (log 2). -/
def pickOf (s : State) (n : Nat) : Nat := s.sched.headD 0 % n

/-- The state a busy step's move starts from: the pick is used up. -/
def State.picked (s : State) : State := { s with sched := s.sched.tail }

/-- The step with a launch in flight: one enabled move, whichever is picked; with none enabled the machine is stuck
(93_implementation_defined.md U21). -/
def busyStep (s : State) (l : Launch) : Host.Outcome State Fault Refusal :=
  let moves := busyMoves s.picked l
  match moves[pickOf s moves.length]? with
  | some o => o
  | none => .fault .stuck

/-- The step with no launch in flight: only the host can move; while it has nothing to do the machine stays as it is
(60_exceptions.md R267; log 17). -/
def quietStep (s : State) : Host.Outcome State Fault Refusal :=
  match hostMove s with
  | some o => o
  | none => .next s

/-- The descriptor and the host write that make the next step `START` of the command whose words are `ws`. -/
def withStart (s : State) (ws : Vector (Option Word) 32) : State :=
  { s with
    status := .idle
    cause := .none
    launch := none
    desc := ws
    host := .regWrite s.cfg.regBase 4 1 :: s.host }

end Sys2Proof.Machine
end

