-- ==== Sys2Proof/Machine/Step.lean ====
section
/-! DEFINITION. One step of the machine, and the state whose next step starts a given command. -/

namespace Sys2Proof.Machine

/-- One step: of whichever agent is next (10_state.md R22). -/
def step (s : State) : Host.Outcome State Fault Refusal :=
  match s.launch with
  | some l => busyStep s l
  | none => quietStep s

/-- The block fetches nothing (10_state.md R26): a command runs when the host has written its descriptor and writes
`START`. This is `s` with the descriptor written, the sequencer `IDLE`, and that write as the host's next
operation (log 10). -/
def State.withFetchWord (s : State) (nbits w : Nat) : State :=
  withStart s ⟨⟨tableWords nbits w⟩, by simp [tableWords]⟩

end Sys2Proof.Machine
end

