-- ==== Sys2Proof/Machine/HostProgram.lean ====
section
/-! DEFINITION. Host programs (30_encoding.md R111 to R114): the text form of a command, the host operations one command
line stands for, and the macros `NTT_FORWARD` and `NTT_INVERSE`. -/

namespace Sys2Proof.Machine

/-- One `name=value` pair of a command line, the value in decimal (R111). -/
def textPair (name : String) (value : Nat) : String := " " ++ name ++ "=" ++ toString value

/-- The text form of a command (R111); none if the scalar pattern denotes no element. -/
def commandText (c : Params) : Instr → Option String
  | .nttStage o => some ("NTT_STAGE" ++ textPair "x" o.x.toNat ++ textPair "y" o.y.toNat ++
      textPair "pq" o.pq.toNat ++ textPair "omegas" o.om.toNat ++ textPair "scratch" o.scratchLen.toNat ++
      textPair "n" o.n.toNat ++ textPair "lgp" o.lgp.toNat ++ textPair "deg" o.deg.toNat ++
      textPair "max_deg" o.maxDeg.toNat)
  | .scalarMul o => (fieldDec c o.scalar).map fun v =>
      "SCALAR_MUL" ++ textPair "elements" o.el.toNat ++ textPair "n" o.n.toNat ++ textPair "scalar" v
  | .lookupEval o => some ("LOOKUP_EVAL" ++ textPair "value" o.val.toNat ++ textPair "table" o.tab.toNat ++
      textPair "pic" o.pic.toNat ++ textPair "ptc" o.ptc.toNat ++ textPair "product" o.prd.toNat ++
      textPair "l0" o.l0.toNat ++ textPair "l_last" o.ll.toNat ++ textPair "l_active" o.la.toNat ++
      textPair "challenges" o.ch.toNat ++ textPair "rot_scale" o.rotScale.toNat ++ textPair "size" o.size.toNat)

/-! ### Reading a command line (R111) -/

/-- The words of a line: what spaces separate. -/
def lineWords : List Char → List (List Char)
  | [] => []
  | ch :: cs =>
    if ch = ' ' then lineWords cs
    else
      match cs with
      | [] => [[ch]]
      | next :: _ =>
        if next = ' ' then [ch] :: lineWords cs
        else
          match lineWords cs with
          | [] => [[ch]]
          | w :: ws => (ch :: w) :: ws

/-- The value of a digit in base 16 at most. -/
def digitOf (ch : Char) : Option Nat :=
  if '0' ≤ ch ∧ ch ≤ '9' then some (ch.toNat - '0'.toNat)
  else if 'a' ≤ ch ∧ ch ≤ 'f' then some (ch.toNat - 'a'.toNat + 10)
  else if 'A' ≤ ch ∧ ch ≤ 'F' then some (ch.toNat - 'A'.toNat + 10)
  else none

/-- The number digits stand for, most significant first, after the digits that stand for `acc`. -/
def numberFrom (base acc : Nat) : List Char → Option Nat
  | [] => some acc
  | ch :: cs =>
    match digitOf ch with
    | some d => if d < base then numberFrom base (acc * base + d) cs else none
    | none => none

/-- A value of a command line: decimal, or hexadecimal after `0x` (R111). -/
def numberOf : List Char → Option Nat
  | [] => none
  | ['0', 'x'] => none
  | '0' :: 'x' :: cs => numberFrom 16 0 cs
  | cs => numberFrom 10 0 cs

/-- The value of a `name=value` pair that has the name asked for. -/
def pairValue (name : List Char) (word : List Char) : Option Nat :=
  if word.take (name.length + 1) = name ++ ['='] then numberOf (word.drop (name.length + 1)) else none

/-- The values of the pairs, which have the names asked for, in order, each with its bound. -/
def pairValues : List (String × Nat) → List (List Char) → Option (List Nat)
  | [], [] => some []
  | (name, bound) :: fs, w :: ws =>
    match pairValue name.toList w with
    | some v => if v < bound then (pairValues fs ws).map (v :: ·) else none
    | none => none
  | _, _ => none

/-- The command a line stands for (R111): the mnemonic, then the pairs in descriptor order; addresses are 64-bit, uints
32-bit, and the scalar is a representative below `P_MOD` (log 30). -/
def parseCommand (c : Params) (line : List Char) : Option Instr :=
  let addr := fun name : String => (name, 2 ^ 64)
  let uint := fun name : String => (name, 2 ^ 32)
  match lineWords line with
  | [] => none
  | w :: ws =>
    if w = "NTT_STAGE".toList then
      match pairValues [addr "x", addr "y", addr "pq", addr "omegas", uint "scratch", uint "n", uint "lgp",
          uint "deg", uint "max_deg"] ws with
      | some [x, y, pq, om, scratch, n, lgp, deg, maxDeg] =>
        some (.nttStage { x := .ofNat 64 x, y := .ofNat 64 y, pq := .ofNat 64 pq, om := .ofNat 64 om,
                          scratchLen := .ofNat 32 scratch, n := .ofNat 32 n, lgp := .ofNat 32 lgp,
                          deg := .ofNat 32 deg, maxDeg := .ofNat 32 maxDeg })
      | _ => none
    else if w = "SCALAR_MUL".toList then
      match pairValues [addr "elements", uint "n", ("scalar", c.pMod)] ws with
      | some [el, n, v] => some (.scalarMul { el := .ofNat 64 el, n := .ofNat 32 n, scalar := fieldEnc c v })
      | _ => none
    else if w = "LOOKUP_EVAL".toList then
      match pairValues [addr "value", addr "table", addr "pic", addr "ptc", addr "product", addr "l0", addr "l_last",
          addr "l_active", addr "challenges", uint "rot_scale", uint "size"] ws with
      | some [val, tab, pic, ptc, prd, l0, ll, la, ch, rotScale, size] =>
        some (.lookupEval { val := .ofNat 64 val, tab := .ofNat 64 tab, pic := .ofNat 64 pic, ptc := .ofNat 64 ptc,
                            prd := .ofNat 64 prd, l0 := .ofNat 64 l0, ll := .ofNat 64 ll, la := .ofNat 64 la,
                            ch := .ofNat 64 ch, rotScale := .ofNat 32 rotScale, size := .ofNat 32 size })
      | _ => none
    else none

/-! ### The host sequence and the macros -/

/-- The write of descriptor word `i` (10_state.md R24, R29). -/
def descWrite (c : Params) (i : Nat) (w : Word) : HostOp := .regWrite (c.regBase + 0x80 + 4 * i) 4 w

/-- The host sequence of one command line (R112). -/
def hostSequence (c : Params) (i : Instr) : List HostOp :=
  [.awaitReady] ++ (encode i).zipIdx.map (fun w => descWrite c w.2 w.1) ++ [.startCommand, .awaitEnd]

/-- A program: command lines in order (R112). -/
def hostProgram (c : Params) (cmds : List Instr) : List HostOp := cmds.flatMap (hostSequence c)

/-- The stages of `NTT_FORWARD` from stride `lgp` on: each reads what the one before wrote, and `lgp` grows by the
`deg` of each (R113). -/
def nttStages (pq om : Addr) (n maxDeg : U32) (src dst : Addr) (lgp : U32) : List U32 → List Instr
  | [] => []
  | d :: ds =>
    .nttStage { x := src, y := dst, pq, om, scratchLen := 1#32 <<< d, n, lgp, deg := d, maxDeg } ::
      nttStages pq om n maxDeg dst src (lgp + d) ds

/-- The buffer that holds the result of `NTT_FORWARD`: `dst` after an odd number of stages (R113). -/
def nttResultBuffer (src dst : Addr) (degs : List U32) : Addr :=
  if degs.length % 2 = 1 then dst else src

/-- What R113 asks of `degs`, `n` being a power of two so that `log2(n)` is defined (00_scope.md R9). -/
def nttDegsOk (n maxDeg : U32) (degs : List U32) : Bool :=
  isPow2 n && degs.all (fun d => decide (1 ≤ d.toNat ∧ d.toNat ≤ maxDeg.toNat)) &&
    decide ((degs.map BitVec.toNat).sum = log2 n)

/-- Macro `NTT_FORWARD` (R113). R113 gives no expansion where its condition on `degs` fails: that the macro then stands for
no program is a DESIGN CHOICE (log 32). -/
def nttForward (src dst pq om : Addr) (n maxDeg : U32) (degs : List U32) : Option (List Instr) :=
  if nttDegsOk n maxDeg degs then some (nttStages pq om n maxDeg src dst 0 degs) else none

/-- `a^(-1)` in `F`: the element whose product with `a` is `ONE`, if there is one (R114). -/
def finv (p a : Nat) : Option Nat := (List.range p).find? fun v => fmul p a v == fone p

/-- Macro `NTT_INVERSE` with the tables of `root^(-1)` at `pq` and `om` (R114). Where `n` has no inverse in `F` the spec
gives no scalar: that the macro then stands for no program is a DESIGN CHOICE (log 33). -/
def nttInverse (c : Params) (src dst pq om : Addr) (n maxDeg : U32) (degs : List U32) : Option (List Instr) :=
  match nttForward src dst pq om n maxDeg degs, finv c.pMod n.toNat with
  | some stages, some v =>
    some (stages ++ [.scalarMul { el := nttResultBuffer src dst degs, n, scalar := fieldEnc c v }])
  | _, _ => none

end Sys2Proof.Machine
end

