-- ==== Sys2Proof/Safety.lean ====
section
/-! DEFINITION. What counts as the end of a run (60_exceptions.md R279) and what holds of every state a run reaches:
the canonical forms of memory, the agreement of the sequencer with what exists, and the agreement of barriers
with lane progress. -/

namespace Sys2Proof.Machine

/-- A host program has ended well: no command is left to start, the last one was started, and a read of `STATUS` has
returned `DONE` since. The run's final state is `s.finalMemory`, memory at that read (60_exceptions.md R279). -/
abbrev State.GoodEnd (s : State) : Prop := s.finalMemory.isSome = true

/-- A faulted run, never a good final state: a read of `STATUS` has returned `FAULT` (60_exceptions.md R279). -/
abbrev State.FaultedEnd (s : State) : Prop := s.run = .faulted

/-- `k` steps of the machine, stopping at the first fault or refusal. -/
def runSteps : Nat → State → Host.Outcome State Fault Refusal
  | 0, s => .next s
  | k + 1, s =>
    match step s with
    | .next t => runSteps k t
    | .fault f => .fault f
    | .refused r => .refused r

/-- A temporary holds no value or an element of `F`. -/
abbrev elemOk (p : Nat) (x : Option Nat) : Prop := ∀ v, x = some v → v < p

/-- The field-valued temporaries of a lane hold elements of `F` (10_state.md R33). -/
structure NttLane.Elems (p : Nat) (l : NttLane) : Prop where
  twiddle : elemOk p l.twiddle
  tmp : elemOk p l.tmp
  a : elemOk p l.a
  b : elemOk p l.b
  d : elemOk p l.d

/-- The field-valued temporaries of a lane hold elements of `F` (10_state.md R34). -/
structure LookupLane.Elems (p : Nat) (l : LookupLane) : Prop where
  y : elemOk p l.y
  beta : elemOk p l.beta
  gamma : elemOk p l.gamma
  v : elemOk p l.v
  z : elemOk p l.z
  zn : elemOk p l.zn
  a : elemOk p l.a
  ap : elemOk p l.ap
  s : elemOk p l.s
  tb : elemOk p l.tb
  q0 : elemOk p l.q0
  ql : elemOk p l.ql
  qa : elemOk p l.qa
  t1 : elemOk p l.t1
  t2 : elemOk p l.t2
  t3 : elemOk p l.t3
  t4 : elemOk p l.t4
  t5 : elemOk p l.t5

/-- Scratch cells and temporaries of a launch hold elements of `F` (10_state.md R33, R34, R36). -/
def Launch.Elems (p : Nat) : Launch → Prop
  | .ntt _ gs => ∀ g ∈ gs, (∀ x ∈ g.scratch, elemOk p x) ∧ ∀ l ∈ g.lanes, l.Elems p
  | .scalar _ _ ls => ∀ l ∈ ls, elemOk p l.v
  | .lookup _ ls => ∀ l ∈ ls, l.Elems p

/-- What holds of every state a run from a good state reaches. -/
structure State.Inv (s : State) : Prop where
  /-- the parameters are an implementation (00_scope.md R7) -/
  cfg_ok : s.cfg.Ok
  /-- global memory is in its canonical form -/
  gm_wf : gmWf s.gm
  /-- `Dom` is in its canonical form -/
  dom_wf : domWf s.dom
  /-- every allocated address is a 64-bit address (10_state.md R39) -/
  dom_bound : ∀ r ∈ s.dom, r.hi ≤ 2 ^ 64
  /-- only allocated cells hold values, and the values are elements of `F` (10_state.md R39) -/
  gm_cells : ∀ c ∈ s.gm, domHas s.dom c.1 = true ∧ c.2 < s.cfg.pMod
  /-- lanes exist exactly while the state is `BUSY` (60_exceptions.md R271, R272) -/
  busy_iff : s.status = .busy ↔ s.launch.isSome = true
  /-- a fault code is recorded exactly in `FAULT` (10_state.md R28) -/
  cause_iff : s.cause = .none ↔ s.status ≠ .fault
  /-- the footprint of the launch in flight is the block's (20_memory.md R73) -/
  held_launch : ∀ l, s.launch = some l → l.command ∈ s.held
  /-- a run is faulted only while the sequencer is (60_exceptions.md R257, R279) -/
  run_faulted : s.run = .faulted → s.status = .fault
  /-- a run is good only while no launch has been started since its end, and its final state is a global memory in
  canonical form that holds elements of `F` (60_exceptions.md R279) -/
  run_good : ∀ final, s.run = .good final →
    (s.status = .idle ∨ s.status = .done) ∧ gmWf final ∧ ∀ c ∈ final, c.2 < s.cfg.pMod
  /-- scratch and temporaries hold elements of `F` -/
  elems : ∀ l, s.launch = some l → l.Elems s.cfg.pMod

/-- A lane's progress agrees with the barrier instance number of its group (10_state.md R35, R37): staging comes
before instance 0, round `rnd` between instances `rnd` and `rnd+1`, the scatter after instance `deg`. -/
def progressAt (deg gen : Nat) : NttProgress → Prop
  | .seed _ => gen = 0
  | .stage _ _ => gen = 0
  | .bar j => gen = j ∧ j ≤ deg
  | .bfly rnd _ _ => gen = rnd + 1 ∧ rnd < deg
  | .scat _ _ => gen = deg + 1
  | .ended => gen = deg + 1

/-- Whether a lane waits at a barrier. -/
def NttLane.waiting (l : NttLane) : Bool :=
  match l.progress with
  | .bar _ => true
  | _ => false

/-- Barrier state of a group (10_state.md R37): there is a lane; lane numbers are distinct; every lane is where the
instance number says; and `arrived` holds exactly the lanes that wait. -/
structure NttGroup.Synced (o : NttOperands) (g : NttGroup) : Prop where
  lanes_ne : g.lanes ≠ []
  lids : (g.lanes.map fun l => l.lid).Nodup
  phase : ∀ l ∈ g.lanes, progressAt o.deg.toNat g.gen l.progress
  arrived_iff : ∀ l ∈ g.lanes, l.lid.toNat ∈ g.arrived ↔ l.waiting = true

/-- The barriers of the launch in flight agree with its lanes. -/
def State.Synced (s : State) : Prop :=
  ∀ o gs, s.launch = some (.ntt o gs) → ∀ g ∈ gs, g.Synced o

end Sys2Proof.Machine
end

