-- ==== Sys2Proof/Certificates/Slice0/Obligations.lean ====
section
/-! DEFINITION. The statements for the provers. Each docstring names what of spec/ it formalises. -/

open Sys2Proof Sys2Proof.Machine

/-! ### Encoding (30_encoding.md) -/

/-- A well-formed command's words decode to it, whatever stands in the descriptor words after them, written or not
(30_encoding.md R100, R103 to R106). -/
def Obligations.DecodeUndoesEncode : Prop :=
  ∀ (c : Params) (i : Instr) (rest : List (Option Word)), i.WellFormed c →
    decode c.fieldWords ((encode i).map some ++ rest) = .ok i

/-- A descriptor that decodes to a command begins with exactly that command's words, all written, and the command
is well-formed: no bit of an encoding is dropped (30_encoding.md R100 to R106). -/
def Obligations.EncodeUndoesDecode : Prop :=
  ∀ (c : Params) (ws : List (Option Word)) (i : Instr), decode c.fieldWords ws = .ok i →
    i.WellFormed c ∧ ∃ rest, ws = (encode i).map some ++ rest

/-- Descriptors written out in 95_test_vectors.md decode to the commands they stand for: launch 2 of P1, launch 4 of
P2 (one scalar word), and P3. -/
def Obligations.ProgramDescriptorsDecode : Prop :=
  decode 1 ([0x00000001, 0x00000200, 0, 0x00000100, 0, 0x00000300, 0, 0x00000400, 0, 2, 8, 2, 1, 2].map some) =
    .ok (.nttStage { x := 0x200, y := 0x100, pq := 0x300, om := 0x400, scratchLen := 2, n := 8, lgp := 2, deg := 1,
                     maxDeg := 2 }) ∧
  decode 1 ([0x00000002, 0x00000200, 0, 8, 0x0000000F].map some) =
    .ok (.scalarMul { el := 0x200, n := 8, scalar := [15] }) ∧
  decode 1 ([0x00000003, 0x00001000, 0, 0x00001100, 0, 0x00001200, 0, 0x00001300, 0, 0x00001400, 0, 0x00001500, 0,
      0x00001600, 0, 0x00001700, 0, 0x00001800, 0, 1, 8].map some) =
    .ok (.lookupEval { val := 0x1000, tab := 0x1100, pic := 0x1200, ptc := 0x1300, prd := 0x1400, l0 := 0x1500,
                       ll := 0x1600, la := 0x1700, ch := 0x1800, rotScale := 1, size := 8 })

/-- Word 0 decides the command, and every word 0 but 1, 2 and 3 is illegal (30_encoding.md R102). -/
def Obligations.WordZeroDecidesTheCommand : Prop :=
  ∀ (fw : Nat) (w : Word) (rest : List (Option Word)),
    (decode fw (some w :: rest) = .error .illegalOpcode ↔ w ≠ 1 ∧ w ≠ 2 ∧ w ≠ 3) ∧
    ∀ i, decode fw (some w :: rest) = .ok i →
      (w = 1 ∧ ∃ o, i = .nttStage o) ∨ (w = 2 ∧ ∃ o, i = .scalarMul o) ∨ (w = 3 ∧ ∃ o, i = .lookupEval o)

/-- From `IDLE`, `START` with a needed descriptor word unwritten takes the fault `DESC_UNWRITTEN`, word 0 first, and
`START` with an illegal word 0 takes `ILLEGAL_OPCODE` whatever the other words hold (60_exceptions.md R252 steps 1
to 3). -/
def Obligations.UnreadableDescriptorFaults : Prop :=
  ∀ s : State, s.status = .idle →
    (s.descWord 0 = none → s.start = .next (s.enterFault .descUnwritten)) ∧
    (∀ w, s.descWord 0 = some w → w ≠ 1 → w ≠ 2 → w ≠ 3 → s.start = .next (s.enterFault .illegalOpcode)) ∧
    (∀ w len k, s.descWord 0 = some w → (w = 1 ∧ len = 14 ∨ w = 2 ∧ len = 4 + s.cfg.fieldWords ∨ w = 3 ∧ len = 21) →
      k < len → s.descWord k = none → s.start = .next (s.enterFault .descUnwritten))

/-- When no launch is in flight, the state is `IDLE`, the descriptor decodes to `i` and the host's next operation is
the write of `START`, the step is `exec` of `i` with that operation taken off the host's list; from `DONE` with
`CLEAR` in the same write, the same after the state has become `IDLE` (60_exceptions.md R271). The host's list of
operations and its record of the run, which such a write makes started if it is not faulted, are the model's (logs 10
and 36, DESIGN CHOICE), and that both effects of one write are one step is its inference (log 23, DEDUCED). -/
def Obligations.StepRunsTheDecodedCommand : Prop :=
  ∀ (s : State) (i : Instr) (rest : List HostOp) (v : Word), s.launch = none →
    decode s.cfg.fieldWords s.desc.toList = .ok i → s.host = .regWrite s.cfg.regBase 4 v :: rest →
    v.getLsbD 0 = true →
    (s.status = .idle → step s = exec i { s with host := rest, run := s.run.starting .idle }) ∧
    (s.status = .done → v.getLsbD 1 = true →
      step s = exec i { s with host := rest, status := .idle, run := s.run.starting .idle })

/-! ### Field arithmetic (40_field_arith.md) -/

/-- 40_field_arith.md R141. -/
def Obligations.FaddIsModularSum : Prop :=
  ∀ p a b c : Nat,
    fadd p a b = (a + b) % p ∧ fadd p a b = fadd p b a ∧ fadd p (fadd p a b) c = fadd p a (fadd p b c) ∧
    (a < p → fadd p a 0 = a)

/-- 40_field_arith.md R143. -/
def Obligations.FmulIsModularProduct : Prop :=
  ∀ p a b c : Nat, 0 < p →
    fmul p a b = a * b % p ∧ fmul p a b = fmul p b a ∧ fmul p (fmul p a b) c = fmul p a (fmul p b c) ∧
    fmul p a (fadd p b c) = fadd p (fmul p a b) (fmul p a c) ∧
    fmul p a (fsub p b c) = fsub p (fmul p a b) (fmul p a c) ∧
    (a < p → fmul p a (fone p) = a) ∧ fmul p a 0 = 0

/-- The operations are those of the ring of integers modulo `P_MOD`, and their results are residues
(40_field_arith.md R140 to R144, R146; 00_scope.md R10). -/
def Obligations.FieldIsTheResidueRing : Prop :=
  ∀ p a b e : Nat, 0 < p →
    ((fadd p a b : Nat) : ZMod p) = a + b ∧ ((fsub p a b : Nat) : ZMod p) = a - b ∧
    ((fmul p a b : Nat) : ZMod p) = a * b ∧ ((fsqr p a : Nat) : ZMod p) = a ^ 2 ∧
    ((fpow p a e : Nat) : ZMod p) = a ^ e ∧ ((fone p : Nat) : ZMod p) = 1 ∧
    fadd p a b < p ∧ fsub p a b < p ∧ fmul p a b < p ∧ fsqr p a < p ∧ fpow p a e < p ∧ fone p < p

/-- `field_dec(field_enc(v)) = some v` for every element, in `FIELD_WORDS` words, for the `TOY17` carriage and for any
other (00_scope.md R7). How the other is held is the model's choice (log 5, DESIGN CHOICE). -/
def Obligations.FieldDecUndoesFieldEnc : Prop :=
  ∀ (c : Params) (v : Nat), c.Ok → v < c.pMod →
    (fieldEnc c v).length = c.fieldWords ∧ fieldDec c (fieldEnc c v) = some v

/-! ### Index arithmetic (00_scope.md R12, 40_field_arith.md R151, 44_lookup_eval.md R225) -/

/-- 00_scope.md R12. -/
def Obligations.BitReverseReversesDigits : Prop :=
  (∀ w i : Nat, i < 2 ^ w →
    bitreverse i w < 2 ^ w ∧ (∀ j, j < w → (bitreverse i w).testBit j = i.testBit (w - 1 - j)) ∧
    bitreverse (bitreverse i w) w = i) ∧
  ∀ i, i < 2 → bitreverse i 1 = i

/-- No index computation of an admitted launch wraps: every formula has the value it has on the naturals, within the
bounds of 40_field_arith.md R151. -/
def Obligations.IndexArithmeticDoesNotWrap : Prop :=
  (∀ (c : Params) (o : NttOperands), nttParamsOk c o = true →
    (nttT o).toNat = o.n.toNat / 2 ^ o.deg.toNat ∧ (nttP o).toNat = 2 ^ o.lgp.toNat ∧
    (nttCount o).toNat = 2 ^ o.deg.toNat ∧ (nttCounth o).toNat = 2 ^ (o.deg.toNat - 1) ∧
    (nttPqshift o).toNat = o.maxDeg.toNat - o.deg.toNat ∧
    (∀ index i k : U32, index.toNat < (nttT o).toNat → i.toNat < (nttCount o).toNat → k = nttK o index →
      k.toNat = index.toNat % 2 ^ o.lgp.toNat ∧
      (i * nttT o).toNat = i.toNat * (nttT o).toNat ∧ i.toNat * (nttT o).toNat < o.n.toNat ∧
      (nttSource o index i).toNat = index.toNat + i.toNat * (nttT o).toNat ∧
      (nttSource o index i).toNat < o.n.toNat ∧
      ((index - k) <<< o.deg).toNat = (index.toNat - k.toNat) * 2 ^ o.deg.toNat ∧
      ((index - k) <<< o.deg).toNat ≤ o.n.toNat - 2 ^ o.deg.toNat ∧
      (nttDest o (nttBase o index k) i).toNat =
        (index.toNat - k.toNat) * 2 ^ o.deg.toNat + k.toNat + i.toNat * 2 ^ o.lgp.toNat ∧
      (nttDest o (nttBase o index k) i).toNat < o.n.toNat ∧
      (nttExponent o k).toNat = o.n.toNat / 2 ^ o.lgp.toNat / 2 ^ o.deg.toNat * k.toNat ∧
      (nttExponent o k).toNat < (nttT o).toNat) ∧
    (∀ (rnd : Nat) (di : U32), rnd < o.deg.toNat → di.toNat < (nttBit o rnd).toNat →
      (pqIndex di rnd (nttPqshift o)).toNat = di.toNat * 2 ^ rnd * 2 ^ (o.maxDeg.toNat - o.deg.toNat) ∧
      (pqIndex di rnd (nttPqshift o)).toNat < 2 ^ (o.maxDeg.toNat - 1))) ∧
  (∀ (o : LookupOperands) (idx : U32), lookupParamsOk o = true → idx.toNat < o.size.toNat →
    (idx + o.rotScale).toNat = idx.toNat + o.rotScale.toNat ∧ (idx + o.size).toNat = idx.toNat + o.size.toNat ∧
    (idx + o.size - o.rotScale).toNat = idx.toNat + o.size.toNat - o.rotScale.toNat)

/-- The pairs of round `rnd` (41_ntt_stage.md section 3, pair enumeration): with `B = 2^(deg-1-rnd)`, pair number `i` is
the cells `blk*2*B + di` and that plus `B`, for `i = blk*B + di`; the lower cell's digit `deg-1-rnd` is 0; and every
cell with that digit 0 is the lower cell of a pair. -/
def Obligations.PairsOfARoundCoverTheCells : Prop :=
  ∀ (c : Params) (o : NttOperands) (rnd : Nat), nttParamsOk c o = true → rnd < o.deg.toNat →
    (nttBit o rnd).toNat = 2 ^ (o.deg.toNat - 1 - rnd) ∧
    (∀ i : U32, i.toNat < (nttCounth o).toNat →
      let b := 2 ^ (o.deg.toNat - 1 - rnd)
      (pairDi (nttBit o rnd) i).toNat = i.toNat % b ∧
      (pairLow (nttBit o rnd) i).toNat = i.toNat / b * (2 * b) + i.toNat % b ∧
      (pairHigh (nttBit o rnd) i).toNat = (pairLow (nttBit o rnd) i).toNat + b ∧
      (pairHigh (nttBit o rnd) i).toNat < (nttCount o).toNat ∧
      (pairLow (nttBit o rnd) i).toNat.testBit (o.deg.toNat - 1 - rnd) = false ∧
      (pairDi (nttBit o rnd) i).toNat = (pairLow (nttBit o rnd) i).toNat % b) ∧
    ∀ x : Nat, x < (nttCount o).toNat → x.testBit (o.deg.toNat - 1 - rnd) = false →
      ∃ i : U32, i.toNat < (nttCounth o).toNat ∧ (pairLow (nttBit o rnd) i).toNat = x

/-- The shares of the lanes of a group (41_ntt_stage.md section 2, lanes of a group): `L` shares of `count / L` elements,
that number even and at least 2, one after the other from 0 to `count`, the halves exact. -/
def Obligations.LaneSharesPartitionTheGroup : Prop :=
  ∀ (c : Params) (o : NttOperands), nttParamsOk c o = true →
    2 ^ nttLgl c o * (nttShare c o).toNat = (nttCount o).toNat ∧ 2 ≤ (nttShare c o).toNat ∧
    (nttShare c o).toNat % 2 = 0 ∧
    ∀ lid : U32, lid.toNat < 2 ^ nttLgl c o →
      (nttCounts c o lid).toNat = (nttShare c o).toNat * lid.toNat ∧
      (nttCounte c o lid).toNat = (nttShare c o).toNat * (lid.toNat + 1) ∧
      (nttCounte c o lid).toNat ≤ (nttCount o).toNat ∧
      2 * (half (nttCounts c o lid)).toNat = (nttCounts c o lid).toNat ∧
      2 * (half (nttCounte c o lid)).toNat = (nttCounte c o lid).toNat

/-- 44_lookup_eval.md R225, with its example. -/
def Obligations.RotationIsCyclic : Prop :=
  (∀ (o : LookupOperands) (idx : U32), lookupParamsOk o = true → idx.toNat < o.size.toNat →
    lookupNext o idx = (idx + o.rotScale) &&& (o.size - 1) ∧
    lookupPrev o idx = (idx + o.size - o.rotScale) &&& (o.size - 1) ∧
    (idx + o.rotScale).toNat = idx.toNat + o.rotScale.toNat ∧ (idx + o.size).toNat = idx.toNat + o.size.toNat ∧
    (idx + o.size - o.rotScale).toNat = idx.toNat + o.size.toNat - o.rotScale.toNat ∧
    (lookupNext o idx).toNat = (idx.toNat + o.rotScale.toNat) % o.size.toNat ∧
    (lookupPrev o idx).toNat = (idx.toNat + o.size.toNat - o.rotScale.toNat) % o.size.toNat) ∧
  ∀ o : LookupOperands, o.size = 8 → o.rotScale = 1 → lookupNext o 7 = 0 ∧ lookupPrev o 0 = 7

/-! ### `POW_LOOKUP` (42_pow_lookup.md) -/

/-- The lookup reads the cells at the set digits of the exponent, rising, each once; and its value depends on no
other cell (42_pow_lookup.md, memory accesses). -/
def Obligations.PowLookupReadsTheSetDigits : Prop :=
  ∀ (p : Nat) (e : U32) (base : Addr),
    (powReads e).map BitVec.toNat = (List.range 32).filter (fun j => e.getLsbD j) ∧
    ∀ gm gm' : List (Nat × Nat),
      (∀ j, e.getLsbD j = true → gmRead gm (base.toNat + j) = gmRead gm' (base.toNat + j)) →
      powLookup p gm base e = powLookup p gm' base e

/-- With a table of the powers `root^(2^j)` at the set digits of `e`, the lookup returns `root^e`; below `2^m` only
positions below `m` are read (42_pow_lookup.md, value). -/
def Obligations.PowLookupReturnsThePower : Prop :=
  ∀ (p root : Nat) (gm : List (Nat × Nat)) (base : Addr) (e : U32), 0 < p →
    (∀ j, e.getLsbD j = true → gmRead gm (base.toNat + j) = some (root ^ 2 ^ j % p)) →
    powLookup p gm base e = root ^ e.toNat % p ∧
    ∀ m, e.toNat < 2 ^ m → ∀ j ∈ powReads e, j.toNat < m

/-! ### `NTT_STAGE` (41_ntt_stage.md) -/

/-- The preconditions P1 to P5, and that a launch which breaks one takes the fault `BAD_PARAM` (41_ntt_stage.md
R163). -/
def Obligations.NttPreconditions : Prop :=
  ∀ (s : State) (o : NttOperands),
    (nttParamsOk s.cfg o = true ↔
      (∃ m, 1 ≤ m ∧ m ≤ 31 ∧ o.n.toNat = 2 ^ m ∧ o.lgp.toNat + o.deg.toNat ≤ m) ∧
      1 ≤ o.deg.toNat ∧ o.deg.toNat ≤ o.maxDeg.toNat ∧ o.maxDeg.toNat ≤ 31 ∧
      2 ^ o.deg.toNat ≤ o.scratchLen.toNat ∧ o.deg.toNat ≤ s.cfg.lgScratch) ∧
    (s.status = .idle → nttParamsOk s.cfg o = false →
      exec (.nttStage o) s = .next (s.enterFault .badParam))

/-- An admitted `NTT_STAGE` at the functional level completes: the state is `DONE`; for every group and every local
index the cell the scatter addresses holds the group's result; every cell outside the write footprint and every
other field is as before (41_ntt_stage.md section 6), but that the command joins `held`, the model's list of the commands
whose footprints belong to the block (20_memory.md R73, 70_reset_and_hazards.md R302; log 35, DESIGN CHOICE). -/
def Obligations.NttStageScattersGroupResults : Prop :=
  ∀ (s : State) (o : NttOperands), s.status = .idle → s.level = .functional →
    admission s (nttRequest s.cfg o) = none →
    ∃ gm', exec (.nttStage o) s = .next { s with status := .done, gm := gm', held := .nttStage o :: s.held } ∧
      (∀ index i : U32, index.toNat < (nttT o).toNat → i.toNat < (nttCount o).toNat →
        gmRead gm' (nttStoreAddr o index i) = some (cellOf s.cfg.pMod (groupResult s.cfg.pMod o s.gm index) i)) ∧
      ∀ a, a ∉ nttWrites o → gmRead gm' a = gmRead s.gm a

/-- The stores of a launch go to the cells `Y + 0 .. Y + n-1`, each exactly once (41_ntt_stage.md section 5). -/
def Obligations.NttScatterCoversTheDestinationOnce : Prop :=
  ∀ (c : Params) (o : NttOperands) (p : Nat) (gm : List (Nat × Nat)), nttParamsOk c o = true →
    ((nttStores p o gm).map fun st => st.1).Perm (nttWrites o)

/-- What an admitted `NTT_STAGE` stores depends on the cells of its read footprint only (41_ntt_stage.md section 5). -/
def Obligations.NttStageReadsItsFootprintOnly : Prop :=
  ∀ (c : Params) (o : NttOperands) (p : Nat) (gm gm' : List (Nat × Nat)), nttParamsOk c o = true →
    (∀ a ∈ nttReads o, gmRead gm a = gmRead gm' a) → nttStores p o gm = nttStores p o gm'

/-- An admitted `NTT_STAGE` at the lane level completes its `START`: the state is `BUSY` with `n >> deg` groups of
`2^min(LG_LANES_MAX, deg-1)` lanes, each at its first statement with no temporary written, barriers at instance 0
and scratch empty; every other field is as before (10_state.md section 1, R32, R36 and R37, 41_ntt_stage.md section 2,
60_exceptions.md R275), but that the command joins `held`, the model's list of the commands whose footprints belong to the
block (20_memory.md R73, 60_exceptions.md R278; log 35, DESIGN CHOICE). That the first barrier instance is number 0 is the
model's inference (log 16, DEDUCED), and where the temporaries stand, and that the launch
holds its operands as assembled (10_state.md R30), its choices (logs 22 and 18, DESIGN CHOICE). -/
def Obligations.NttStartCreatesGroupsAndLanes : Prop :=
  ∀ (s : State) (o : NttOperands), s.status = .idle → s.level = .lane →
    admission s (nttRequest s.cfg o) = none →
    ∃ gs : List NttGroup, exec (.nttStage o) s =
        .next { s with status := .busy, launch := some (.ntt o gs), held := .nttStage o :: s.held } ∧
      gs.length = o.n.toNat / 2 ^ o.deg.toNat ∧
      ∀ (j : Nat) (g : NttGroup), gs[j]? = some g →
        g.index.toNat = j ∧ g.gen = 0 ∧ g.arrived = [] ∧ g.scratch = List.replicate (2 ^ o.deg.toNat) none ∧
        g.lanes.length = 2 ^ min s.cfg.lgLanesMax (o.deg.toNat - 1) ∧
        ∀ (k : Nat) (l : NttLane), g.lanes[k]? = some l → l = newNttLane l.lid ∧ l.lid.toNat = k

/-- The butterfly of 41_ntt_stage.md R172: sum to the lower cell, difference (lower minus upper) to the upper one,
times the `pq` entry exactly when the digit index is not zero; no other cell changes. -/
def Obligations.ButterflyOfAPair : Prop :=
  ∀ (c : Params) (o : NttOperands) (p : Nat) (gm : List (Nat × Nat)) (rnd : Nat) (u : List Nat) (i : U32),
    nttParamsOk c o = true → rnd < o.deg.toNat → i.toNat < (nttCounth o).toNat → u.length = (nttCount o).toNat →
    let i0 := (pairLow (nttBit o rnd) i).toNat
    let i1 := (pairHigh (nttBit o rnd) i).toNat
    let di := pairDi (nttBit o rnd) i
    let a := cellOf p u (pairLow (nttBit o rnd) i)
    let b := cellOf p u (pairHigh (nttBit o rnd) i)
    (butterfly p o gm rnd u i)[i0]? = some (fadd p a b) ∧
    (di ≠ 0 → (butterfly p o gm rnd u i)[i1]? =
      some (fmul p (valueAt p gm (elemAddr o.pq ((di <<< rnd) <<< nttPqshift o))) (fsub p a b))) ∧
    (di = 0 → (butterfly p o gm rnd u i)[i1]? = some (fsub p a b)) ∧
    ∀ x : Nat, x ≠ i0 → x ≠ i1 → (butterfly p o gm rnd u i)[x]? = u[x]?

/-- With `deg = 1` a group computes the sum and the difference of its two pre-rotated elements and reads no table
entry of `pq` (41_ntt_stage.md section 7, corner case (a)). -/
def Obligations.SingleDigitStage : Prop :=
  ∀ (c : Params) (o : NttOperands) (p : Nat) (gm : List (Nat × Nat)) (index : U32),
    nttParamsOk c o = true → o.deg = 1 →
    let u0 := fmul p (fpow p (groupTwiddle p o gm index) 0) (valueAt p gm (elemAddr o.x index))
    let u1 := fmul p (fpow p (groupTwiddle p o gm index) 1) (valueAt p gm (elemAddr o.x (index + nttT o)))
    groupResult p o gm index = [fadd p u0 u1, fsub p u0 u1] ∧ nttPqCells o = []

/-- With `lgp = 0` the twiddle is `ONE`, no entry of `omegas` is read, and staging leaves elements of `F` as they were
loaded (41_ntt_stage.md section 7, corner case (b)). -/
def Obligations.FirstStageHasTwiddleOne : Prop :=
  ∀ (c : Params) (o : NttOperands) (p : Nat) (gm : List (Nat × Nat)) (index : U32), 0 < p →
    nttParamsOk c o = true → o.lgp = 0 →
    groupTwiddle p o gm index = fone p ∧ nttOmegaCells o = [] ∧
    ((∀ i : U32, valueAt p gm (elemAddr o.x i) < p) →
      groupStaged p o gm index = (upTo (nttCount o)).map fun i => valueAt p gm (elemAddr o.x (index + i * nttT o)))

/-- A lane's step changes global memory only in the two stores of the scatter, at the address its temporaries `base`
and `p` give, and scratch only where the micro-program writes it (41_ntt_stage.md section 4). A step per line of the
micro-program, and where `i`, `rnd` and `base` stand, are the model's choices (logs 15 and 22, DESIGN CHOICE). -/
def Obligations.NttLaneStoresOnlyInTheScatter : Prop :=
  ∀ (s : State) (o : NttOperands) (g : NttGroup) (l : NttLane) (r : NttEffect), nttLaneStep s o g l = .ok r →
    (r.gm = s.gm ∨
      ∃ i base p v, l.base = some base ∧ l.p = some p ∧
        ((l.progress = .scat i .low ∧ r.gm = gmWrite s.gm (elemAddr o.y (base + i * p)) v) ∨
         ∃ counth, l.counth = some counth ∧ l.progress = .scat i .high ∧
           r.gm = gmWrite s.gm (elemAddr o.y (base + (i + counth) * p)) v)) ∧
    (r.scratch = g.scratch ∨
      ∃ i v, (l.progress = .stage i .put ∧ r.scratch = g.scratch.set i.toNat (some v)) ∨
        ∃ rnd j, (l.progress = .bfly rnd j .sum ∧ l.i0 = some i ∨ l.progress = .bfly rnd j .put ∧ l.i1 = some i) ∧
          r.scratch = g.scratch.set i.toNat (some v))

/-- The closed form of a group's result (41_ntt_stage.md R183), with the tables of R182: `root` of order `n` in the field
of `p` elements, and `pq` holding `root^(j * (n >> max_deg))` at the indices read. Local index `i`, which the scatter
sends to local position `j = bitreverse(i, deg)`, holds the sum of `tw^l * x[index + l*t] * W^(l*j)`,
`W = root^(n >> deg)`. -/
def Obligations.GroupIsADiscreteFourierTransform : Prop :=
  ∀ (c : Params) (o : NttOperands) (p root : Nat) (gm : List (Nat × Nat)) (index : U32), p.Prime →
    nttParamsOk c o = true → o.maxDeg.toNat ≤ log2 o.n → orderOf (root : ZMod p) = o.n.toNat →
    index.toNat < (nttT o).toNat →
    (∀ q, 1 ≤ q → q < (nttCounth o).toNat →
      gmRead gm (o.pq.toNat + q * 2 ^ (o.maxDeg.toNat - o.deg.toNat)) =
        some (root ^ (q * 2 ^ (o.maxDeg.toNat - o.deg.toNat) * (o.n.toNat / 2 ^ o.maxDeg.toNat)) % p)) →
    ∀ i : U32, i.toNat < (nttCount o).toNat →
      ((cellOf p (groupResult p o gm index) i : Nat) : ZMod p) =
        ∑ l ∈ Finset.range (nttCount o).toNat,
          (groupTwiddle p o gm index : ZMod p) ^ l *
            (valueAt p gm (elemAddr o.x (nttSource o index (BitVec.ofNat 32 l))) : ZMod p) *
            ((root : ZMod p) ^ (nttT o).toNat) ^ (l * (nttReverse o i).toNat)

/-- Schedule independence of `NTT_STAGE` (41_ntt_stage.md section 4, freedom from races; 60_exceptions.md section 4):
whatever the picks, an admitted launch that the host leaves alone reaches `DONE`, with the memory of the functional
form. The picks are the model's (log 2), and a step per line of the lane program its grain (log 15). -/
def Obligations.NttLanesReachTheFunctionalForm : Prop :=
  ∀ (s s1 : State) (o : NttOperands), s.Inv → s.status = .idle → s.level = .lane → s.host = [] →
    admission s (nttRequest s.cfg o) = none → exec (.nttStage o) s = .next s1 →
    ∃ k t, runSteps k s1 = .next t ∧ t.status = .done ∧ t.launch = none ∧ t.gm = nttMemory s.cfg.pMod o s.gm

/-! ### The barrier (20_memory.md) -/

/-- A group can release instance `j` exactly when it has lanes and all of them have arrived at `j`; the release empties
`arrived`, sets `gen` to `j + 1` and moves every lane to the statement after the barrier, and nothing else of the
group changes (20_memory.md section 4, barrier step). That the instance number is `j + 1` after the last release too is the
model's inference (log 16, DEDUCED). -/
def Obligations.BarrierReleasesTheWholeGroup : Prop :=
  ∀ (c : Params) (o : NttOperands) (g : NttGroup) (j : Nat),
    (releasable g = some j ↔
      g.lanes ≠ [] ∧ ∀ l ∈ g.lanes, l.progress = .bar j ∧ l.lid.toNat ∈ g.arrived) ∧
    (releaseGroup c o j g).arrived = [] ∧ (releaseGroup c o j g).gen = j + 1 ∧
    (releaseGroup c o j g).index = g.index ∧ (releaseGroup c o j g).scratch = g.scratch ∧
    (releaseGroup c o j g).lanes.length = g.lanes.length ∧
    ∀ (k : Nat) (l : NttLane), g.lanes[k]? = some l → ∃ l' : NttLane, (releaseGroup c o j g).lanes[k]? = some l' ∧
      l' = { l with progress := l'.progress } ∧
      (j < o.deg.toNat → l'.progress = .bfly j (half (nttCounts c o l.lid)) .span) ∧
      (o.deg.toNat ≤ j → l'.progress = .scat (half (nttCounts c o l.lid)) .base)

/-- Every step keeps barriers and lane progress in agreement: lanes of a group are all between the same two barrier
instances, and `arrived` holds exactly the waiting ones (10_state.md section 3, barrier state). That instance numbers begin
at 0 and end one past the last instance is the model's inference (log 16, DEDUCED). -/
def Obligations.StepKeepsBarriersInStep : Prop :=
  ∀ s t : State, s.Synced → step s = .next t → t.Synced

/-- With a launch in flight some agent can step: no barrier is waited for in vain, and a launch whose lanes have all
ended can be ended (20_memory.md section 4, 60_exceptions.md R272, 93_implementation_defined.md U21). That
a launch in which nothing can step would be the fault `stuck` is the model's choice (log 17, DESIGN CHOICE). -/
def Obligations.LaunchInFlightIsNeverStuck : Prop :=
  ∀ (s : State) (l : Launch), s.Synced → s.launch = some l → step s ≠ .fault .stuck

/-! ### `SCALAR_MUL` (43_scalar_mul.md) -/

/-- 43_scalar_mul.md R213: the two steps of a lane, a grain that 10_state.md R35 permits and log 15 (DESIGN CHOICE) fixes,
and the functional form. An admitted `SCALAR_MUL` at the functional level completes in `DONE` with every `EL + i` multiplied
by the element the pattern denotes; every other cell and every other field is as before, but that the command joins `held`,
the model's list of the commands whose footprints belong to the block (20_memory.md R73, 70_reset_and_hazards.md R302;
log 35, DESIGN CHOICE). -/
def Obligations.ScalarMulMultipliesEveryElement : Prop :=
  (∀ (s : State) (o : ScalarOperands) (f : Nat) (gid : U32) (x : Option Nat) (v : Nat),
    addrOk s.dom (elemAddr o.el gid) = true →
    (gmRead s.gm (elemAddr o.el gid) = some v →
      scalarLaneStep s o f ⟨gid, .load, x⟩ = .ok ⟨⟨gid, .store, some v⟩, s.gm⟩) ∧
    scalarLaneStep s o f ⟨gid, .store, some v⟩ =
      .ok ⟨⟨gid, .ended, some v⟩, gmWrite s.gm (elemAddr o.el gid) (fmul s.cfg.pMod v f)⟩) ∧
  ∀ (s : State) (o : ScalarOperands), s.status = .idle → s.level = .functional →
    admission s (scalarRequest s.cfg o) = none →
    ∃ gm' f, exec (.scalarMul o) s = .next { s with status := .done, gm := gm', held := .scalarMul o :: s.held } ∧
      fieldDec s.cfg o.scalar = some f ∧
      (∀ i, i < o.n.toNat → ∃ v, gmRead s.gm (o.el.toNat + i) = some v ∧
        gmRead gm' (o.el.toNat + i) = some (fmul s.cfg.pMod v f)) ∧
      ∀ a, (∀ i, i < o.n.toNat → a ≠ o.el.toNat + i) → gmRead gm' a = gmRead s.gm a

/-- An admitted `SCALAR_MUL` at the lane level completes its `START`: `BUSY` with exactly `n` lanes, numbered from 0,
each at its first statement; every other field is as before (43_scalar_mul.md R212, 10_state.md R32, 60_exceptions.md R271 and R275), but that the
command joins `held`, the model's list of the commands whose footprints belong to the block (20_memory.md R73,
60_exceptions.md R278; log 35, DESIGN CHOICE). That the launch holds its operands as assembled is the model's choice too
(10_state.md R30; log 18, DESIGN CHOICE). -/
def Obligations.ScalarStartCreatesLanes : Prop :=
  ∀ (s : State) (o : ScalarOperands), s.status = .idle → s.level = .lane →
    admission s (scalarRequest s.cfg o) = none →
    ∃ (f : Nat) (ls : List ScalarLane), fieldDec s.cfg o.scalar = some f ∧
      exec (.scalarMul o) s =
        .next { s with status := .busy, launch := some (.scalar o f ls), held := .scalarMul o :: s.held } ∧
      ls.length = o.n.toNat ∧ ∀ (k : Nat) (l : ScalarLane), ls[k]? = some l → l.gid.toNat = k ∧ l.progress = .load ∧ l.v = none

/-- `SCALAR_MUL` with `n = 0` needs no allocated cell: it is admitted whenever its pattern denotes an element, and at
the functional level it is `DONE` at once with memory unchanged; at the lane level it is `BUSY` with no lane and,
the host having nothing to do, `DONE` at the next step (43_scalar_mul.md section on corner cases). At the functional level
every other field is as before, but that the command joins `held`, the model's list of the commands whose footprints belong
to the block (log 35, DESIGN CHOICE). -/
def Obligations.ScalarMulOfNothing : Prop :=
  ∀ (s : State) (o : ScalarOperands), s.status = .idle → o.n = 0 → (fieldDec s.cfg o.scalar).isSome = true →
    (s.level = .functional → exec (.scalarMul o) s = .next { s with status := .done, held := .scalarMul o :: s.held }) ∧
    (s.level = .lane → s.host = [] → ∃ s1 t, exec (.scalarMul o) s = .next s1 ∧ s1.status = .busy ∧
      step s1 = .next t ∧ t.status = .done ∧ t.launch = none ∧ t.gm = s.gm)

/-- Schedule independence of `SCALAR_MUL` (60_exceptions.md section 4): whatever the picks, an admitted launch that the
host leaves alone is `DONE` after two steps per lane and one more, with the memory of the functional form. The picks
are the model's (log 2), and so are the two steps per lane, the grain of log 15 (DESIGN CHOICE), which 10_state.md R35
permits. -/
def Obligations.ScalarLanesReachTheFunctionalForm : Prop :=
  ∀ (s s1 : State) (o : ScalarOperands), s.Inv → s.status = .idle → s.level = .lane → s.host = [] →
    admission s (scalarRequest s.cfg o) = none → exec (.scalarMul o) s = .next s1 →
    ∃ t, runSteps (2 * o.n.toNat + 1) s1 = .next t ∧ t.status = .done ∧ t.launch = none ∧
      t.gm = scalarMemory s.cfg.pMod o (scalarFactor s.cfg o) s.gm

/-! ### `LOOKUP_EVAL` (44_lookup_eval.md) -/

/-- The preconditions P1 to P3, what they give together, and that a launch which breaks one takes the fault
`BAD_PARAM` (44_lookup_eval.md R223). -/
def Obligations.LookupPreconditions : Prop :=
  ∀ (s : State) (o : LookupOperands),
    (lookupParamsOk o = true ↔
      (∃ k, k ≤ 31 ∧ o.size.toNat = 2 ^ k) ∧ (∃ r, r ≤ 31 ∧ o.rotScale.toNat = 2 ^ r) ∧
        o.rotScale.toNat < o.size.toNat) ∧
    (lookupParamsOk o = true →
      2 ≤ o.size.toNat ∧ o.size.toNat ≤ 2 ^ 31 ∧ 1 ≤ o.rotScale.toNat ∧ o.rotScale.toNat ≤ 2 ^ 30) ∧
    (s.status = .idle → lookupParamsOk o = false →
      exec (.lookupEval o) s = .next (s.enterFault .badParam))

/-- The five terms are the five identities, as formulas of the ring (44_lookup_eval.md R227 to R231), and a fold
multiplies by `y` and adds the term (R226). -/
def Obligations.LookupTermsAreTheIdentities : Prop :=
  ∀ p q0 ql qa z zn a ap s tb beta gamma v y t : Nat, 0 < p →
    ((lookupTerm1 p q0 z : Nat) : ZMod p) = q0 * (1 - z) ∧
    ((lookupTerm2 p ql z : Nat) : ZMod p) = ql * (z ^ 2 - z) ∧
    ((lookupTerm3 p qa a beta s gamma zn z tb : Nat) : ZMod p) = qa * ((a + beta) * (s + gamma) * zn - z * tb) ∧
    ((lookupTerm4 p q0 a s : Nat) : ZMod p) = q0 * (a - s) ∧
    ((lookupTerm5 p qa a s ap : Nat) : ZMod p) = qa * (a - s) * (a - ap) ∧
    ((foldTerm p v y t : Nat) : ZMod p) = v * y + t

/-- An admitted `LOOKUP_EVAL` at the functional level completes in `DONE`; the new `value[idx]` is the residue of
`v0*y^5 + t1*y^4 + t2*y^3 + t3*y^2 + t4*y + t5` of the cells read at `START`; every cell but the `size` cells of
`value` and every other field is as before (44_lookup_eval.md sections 3 and 4; the polynomial is the closed form R233
derives), but that the command joins `held`, the model's list of the commands whose footprints belong to the block
(20_memory.md R73, 70_reset_and_hazards.md R302; log 35, DESIGN CHOICE). -/
def Obligations.LookupEvalFoldsTheIdentities : Prop :=
  ∀ (s : State) (o : LookupOperands), 0 < s.cfg.pMod → s.status = .idle → s.level = .functional →
    admission s (lookupRequest o) = none →
    ∃ gm', exec (.lookupEval o) s = .next { s with status := .done, gm := gm', held := .lookupEval o :: s.held } ∧
      (∀ a, a ∉ lookupWrites o → gmRead gm' a = gmRead s.gm a) ∧
      ∀ idx : U32, idx.toNat < o.size.toNat →
        ∃ y beta gamma v0 z zn a ap sv tb q0 ql qa v5 : Nat,
          gmRead s.gm o.ch.toNat = some y ∧ gmRead s.gm (o.ch.toNat + 1) = some beta ∧
          gmRead s.gm (o.ch.toNat + 2) = some gamma ∧ gmRead s.gm (o.val.toNat + idx.toNat) = some v0 ∧
          gmRead s.gm (o.prd.toNat + idx.toNat) = some z ∧
          gmRead s.gm (o.prd.toNat + (idx.toNat + o.rotScale.toNat) % o.size.toNat) = some zn ∧
          gmRead s.gm (o.pic.toNat + idx.toNat) = some a ∧
          gmRead s.gm (o.pic.toNat + (idx.toNat + o.size.toNat - o.rotScale.toNat) % o.size.toNat) = some ap ∧
          gmRead s.gm (o.ptc.toNat + idx.toNat) = some sv ∧ gmRead s.gm (o.tab.toNat + idx.toNat) = some tb ∧
          gmRead s.gm (o.l0.toNat + idx.toNat) = some q0 ∧ gmRead s.gm (o.ll.toNat + idx.toNat) = some ql ∧
          gmRead s.gm (o.la.toNat + idx.toNat) = some qa ∧
          gmRead gm' (o.val.toNat + idx.toNat) = some v5 ∧ v5 < s.cfg.pMod ∧
          (v5 : ZMod s.cfg.pMod) =
            v0 * y ^ 5 + q0 * (1 - z) * y ^ 4 + ql * (z ^ 2 - z) * y ^ 3 +
              qa * ((a + beta) * (sv + gamma) * zn - z * tb) * y ^ 2 + q0 * (a - sv) * y +
              qa * (a - sv) * (a - ap)

/-- An admitted `LOOKUP_EVAL` at the lane level completes its `START`: `BUSY` with exactly `size` lanes, numbered from
0, each at its first statement; every other field is as before (44_lookup_eval.md R224, 10_state.md R32, 60_exceptions.md R271 and R275), but that
the command joins `held`, the model's list of the commands whose footprints belong to the block (20_memory.md R73,
60_exceptions.md R278; log 35, DESIGN CHOICE). That the launch holds its operands as assembled is the model's choice too
(10_state.md R30; log 18, DESIGN CHOICE). -/
def Obligations.LookupStartCreatesLanes : Prop :=
  ∀ (s : State) (o : LookupOperands), s.status = .idle → s.level = .lane →
    admission s (lookupRequest o) = none →
    ∃ ls : List LookupLane, exec (.lookupEval o) s =
        .next { s with status := .busy, launch := some (.lookup o ls), held := .lookupEval o :: s.held } ∧
      ls.length = o.size.toNat ∧ ∀ (k : Nat) (l : LookupLane), ls[k]? = some l → l = newLookupLane l.idx ∧ l.idx.toNat = k

/-- A lane of `LOOKUP_EVAL` writes one cell, `VAL + idx`, in its last statement, with its running value, and changes
no memory before (44_lookup_eval.md R234). A step per line of the lane program is the model's grain (log 15, DESIGN
CHOICE). -/
def Obligations.LookupLaneWritesItsOwnCell : Prop :=
  ∀ (s : State) (o : LookupOperands) (l : LookupLane) (r : LookupEffect), lookupLaneStep s o l = .ok r →
    r.lane.idx = l.idx ∧
    (l.progress ≠ .store → r.gm = s.gm) ∧
    (l.progress = .store → r.lane.progress = .ended ∧
      ∃ v, l.v = some v ∧ r.gm = gmWrite s.gm (elemAddr o.val l.idx) v)

/-- Schedule independence of `LOOKUP_EVAL` (60_exceptions.md section 4): whatever the picks, an admitted launch that the
host leaves alone is `DONE` after 21 steps per lane and one more, with the memory of the functional form. The picks
are the model's (log 2), and a step per line of the lane program its grain (log 15). -/
def Obligations.LookupLanesReachTheFunctionalForm : Prop :=
  ∀ (s s1 : State) (o : LookupOperands), s.Inv → s.status = .idle → s.level = .lane → s.host = [] →
    admission s (lookupRequest o) = none → exec (.lookupEval o) s = .next s1 →
    ∃ t, runSteps (21 * o.size.toNat + 1) s1 = .next t ∧ t.status = .done ∧ t.launch = none ∧
      t.gm = lookupMemory s.cfg.pMod o s.gm

/-! ### Admission and faults (60_exceptions.md) -/

/-- The order of the admission tests: each code is reported exactly when its test is the first to fail; and `START` of
each command from `IDLE` takes the fault that admission of that command's own request names (60_exceptions.md R252
steps 4 to 8, R256). -/
def Obligations.AdmissionReportsTheFirstFailingTest : Prop :=
  ∀ (s : State) (r : Request),
    let range := ∀ a ∈ r.reads ++ r.writes, a < 2 ^ 64 ∧ ∃ q ∈ s.dom, q.lo ≤ a ∧ a < q.hi
    let apart := ∀ a ∈ r.writes, a ∉ r.others
    let filled := ∀ a ∈ r.reads, ∃ v, gmRead s.gm a = some v
    (admission s r = some .badParam ↔ r.paramsOk = false) ∧
    (admission s r = some .outOfRange ↔ r.paramsOk = true ∧ ¬range) ∧
    (admission s r = some .overlap ↔ r.paramsOk = true ∧ range ∧ ¬apart) ∧
    (admission s r = some .uninitRead ↔ r.paramsOk = true ∧ range ∧ apart ∧ ¬filled) ∧
    (admission s r = none ↔ r.paramsOk = true ∧ range ∧ apart ∧ filled) ∧
    (s.status = .idle → ∀ code : FaultCode,
      (∀ o, admission s (nttRequest s.cfg o) = some code → exec (.nttStage o) s = .next (s.enterFault code)) ∧
      (∀ o, admission s (scalarRequest s.cfg o) = some code → exec (.scalarMul o) s = .next (s.enterFault code)) ∧
      ∀ o, admission s (lookupRequest o) = some code → exec (.lookupEval o) s = .next (s.enterFault code))

/-- An output array that meets another array of the command is refused with `OVERLAP`, an in-place `NTT_STAGE` among
them, if all its cells exist; `SCALAR_MUL` has one array and never reports `OVERLAP` (41_ntt_stage.md R179,
44_lookup_eval.md R237, 43_scalar_mul.md R214). -/
def Obligations.OverlappingOutputIsRefused : Prop :=
  ∀ s : State, s.status = .idle →
    (∀ o : NttOperands, nttParamsOk s.cfg o = true →
      (∀ a ∈ nttReads o ++ nttWrites o, a < 2 ^ 64 ∧ domHas s.dom a = true) →
      (o.x = o.y ∨ ∃ a ∈ nttWrites o, a ∈ nttReads o) →
      exec (.nttStage o) s = .next (s.enterFault .overlap)) ∧
    (∀ o : LookupOperands, lookupParamsOk o = true →
      (∀ a ∈ lookupWrites o ++ lookupOthers o, a < 2 ^ 64 ∧ domHas s.dom a = true) →
      (∃ a ∈ lookupWrites o, a ∈ lookupOthers o) →
      exec (.lookupEval o) s = .next (s.enterFault .overlap)) ∧
    ∀ o : ScalarOperands, exec (.scalarMul o) s ≠ .next (s.enterFault .overlap)

/-- 60_exceptions.md R256: fault entry sets the state and the code; `DESC`, `LDESC` (no launch is created), global
memory and everything else are as they were. -/
def Obligations.FaultEntryRecordsTheCodeOnly : Prop :=
  ∀ (s : State) (code : FaultCode),
    (s.enterFault code).status = .fault ∧ (s.enterFault code).cause = code ∧
    (s.enterFault code).desc = s.desc ∧ (s.enterFault code).launch = s.launch ∧ (s.enterFault code).gm = s.gm ∧
    s.enterFault code = { s with status := .fault, cause := code }

/-- `START` of a command is dropped unless the state is `IDLE` (60_exceptions.md R271). -/
def Obligations.StartIsDroppedUnlessIdle : Prop :=
  ∀ (i : Instr) (s : State), s.status ≠ .idle → exec i s = .next s ∧ s.start = .next s

/-- Frame of `START` for every command and at either level: it always answers a next state; descriptor, allocation,
parameters, host and the model's own fields are unchanged, but that an accepted command joins `held`, its footprint being
the block's from then on (70_reset_and_hazards.md R302; log 35, DESIGN CHOICE); no cell outside the command's write footprint changes,
and at the lane level no cell at all (60_exceptions.md R256, R271; 10_state.md R42). -/
def Obligations.StartFrame : Prop :=
  ∀ (i : Instr) (s : State), ∃ t, exec i s = .next t ∧
    t = { s with status := t.status, cause := t.cause, launch := t.launch, gm := t.gm, held := t.held } ∧
    (t.held = s.held ∨ s.status = .idle ∧ t.status ≠ .fault ∧ t.held = i :: s.held) ∧
    (s.level = .lane → t.gm = s.gm) ∧
    ∀ a, a ∉ commandWrites i → gmRead t.gm a = gmRead s.gm a

/-- `FAULT` is sticky: a step from it that is not reset leaves the state, the code, the descriptor and the absence of
lanes as they are (60_exceptions.md R257). -/
def Obligations.FaultIsLeftByResetOnly : Prop :=
  ∀ s t : State, s.status = .fault → s.launch = none → step s = .next t →
    (∃ rest, s.host = .reset :: rest) ∨
      t.status = .fault ∧ t.cause = s.cause ∧ t.desc = s.desc ∧ t.launch = none

/-! ### The register window and the sequencer (10_state.md, 60_exceptions.md) -/

/-- What the host reads at each word of the window, and that a read changes nothing but what was read (10_state.md R24,
R25, R27, R28; 60_exceptions.md R251, R274), the model's count of draws (log 9), its record of the word read (log 19), the host's record of its run (log 36), and,
on a read of `STATUS` that returns `DONE`, that every footprint is the host's again (70_reset_and_hazards.md R302; log 35). -/
def Obligations.RegisterReads : Prop :=
  (statusWord .idle = 0 ∧ statusWord .busy = 1 ∧ statusWord .done = 2 ∧ statusWord .fault = 3) ∧
  (causeWord .none = 0 ∧ causeWord .descUnwritten = 1 ∧ causeWord .illegalOpcode = 2 ∧ causeWord .badParam = 3 ∧
    causeWord .outOfRange = 4 ∧ causeWord .overlap = 5 ∧ causeWord .uninitRead = 6) ∧
  ∀ (s : State) (k : Nat), k < 64 →
    ∃ t, hostPerform (.regRead (s.cfg.regBase + 4 * k) 4) s = .next t ∧
      t = { s with rdata := t.rdata, draws := t.draws, held := t.held, run := t.run } ∧
      (k = 1 → t.run = s.run.seeing s.status s.gm ∧ t.held = if s.status = .done then [] else s.held) ∧
      (k ≠ 1 → t.run = s.run ∧ t.held = s.held) ∧
      (k = 1 → t.rdata = statusWord s.status) ∧
      (k = 2 → t.rdata = causeWord s.cause) ∧
      (k = 0 ∨ 3 ≤ k ∧ k < 32 → t.rdata = 0) ∧
      ∀ w, 32 ≤ k → s.descWord (k - 32) = some w → t.rdata = w

/-- Only aligned 32-bit accesses to the 64 words of the window have a meaning (10_state.md R24); that the model answers
any other, and any outside the window's 256 bytes, with a refusal of its own is its choice (log 21). -/
def Obligations.OtherRegisterAccessesAreRefused : Prop :=
  ∀ (s : State) (addr bytes : Nat) (v : Word),
    (bytes ≠ 4 ∨ addr < s.cfg.regBase ∨ s.cfg.regBase + 256 ≤ addr ∨ (addr - s.cfg.regBase) % 4 ≠ 0) →
    hostPerform (.regRead addr bytes) s = .refused .registerAccess ∧
    hostPerform (.regWrite addr bytes v) s = .refused .registerAccess

/-- Writes to `STATUS`, `FAULT_CAUSE` and reserved words are always ignored; every write is ignored in `BUSY` and
`FAULT` (60_exceptions.md R274), but that the host's own record of its run holds that a `START` was dropped (log 36). -/
def Obligations.IgnoredRegisterWrites : Prop :=
  ∀ (s : State) (k : Nat) (v : Word), k < 64 →
    (1 ≤ k ∧ k < 32 ∨ s.status = .busy ∨ s.status = .fault) →
    (k ≠ 0 → hostPerform (.regWrite (s.cfg.regBase + 4 * k) 4 v) s = .next s) ∧
    (k = 0 → hostPerform (.regWrite (s.cfg.regBase + 4 * k) 4 v) s =
      .next { s with run := if v.getLsbD 0 then s.run.starting s.status else s.run })

/-- A descriptor write in `IDLE` or `DONE` sets its own word and nothing else (10_state.md R29). -/
def Obligations.DescriptorWriteSetsOneWord : Prop :=
  ∀ (s : State) (i : Nat) (v : Word), i < 32 → (s.status = .idle ∨ s.status = .done) →
    ∃ t, hostPerform (.regWrite (s.cfg.regBase + 0x80 + 4 * i) 4 v) s = .next t ∧
      t = { s with desc := t.desc } ∧ t.descWord i = some v ∧ ∀ j, j ≠ i → t.descWord j = s.descWord j

/-- 60_exceptions.md R273. -/
def Obligations.ClearAcknowledges : Prop :=
  ∀ s : State, (s.status = .done → s.clear = { s with status := .idle }) ∧ (s.status ≠ .done → s.clear = s) ∧
    s.writeCtrl 2 = .next s.clear

/-- `CTRL` writes: `CLEAR` acts before `START`, `START` alone is dropped in `DONE`, bits 31:2 are ignored, and in `BUSY`
and `FAULT` the whole write is (10_state.md R25, 60_exceptions.md R271). A `START` dropped in `DONE` leaves the host's run
not started (R279; log 36, DESIGN CHOICE). That both effects of one write are one step is an inference (log 23, DEDUCED). -/
def Obligations.CtrlWrites : Prop :=
  ∀ (s : State) (v : Word),
    (s.status = .done → s.writeCtrl 3 = ({ s with status := .idle } : State).start ∧ s.writeCtrl 1 = .next s ∧
      hostPerform (.regWrite s.cfg.regBase 4 1) s = .next { s with run := s.run.starting .done }) ∧
    s.writeCtrl v = s.writeCtrl (v &&& 3) ∧
    (s.status = .busy ∨ s.status = .fault → s.writeCtrl v = .next s)

/-- The host sequence of a command line (30_encoding.md R112) at the functional level: it writes the command's words,
starts it, from `DONE` with `CLEAR` in the same write, and polls for the end. If the command completes, the sequence
ends in `DONE` with the command's effect on memory and the host goes on; if it faults, the host's program ends. A
completed sequence with no command after it is a good end, with no footprint left to the block and the command's memory as
the final state; a faulted one never is. A good end keeps its final state, whatever the host does next, until a reset
(60_exceptions.md R279, 70_reset_and_hazards.md R302). One step per host operation, the end of the host's list at a fault,
that a reset begins a new program, and the fields that hold the word read and the footprints, are the model's choices (logs
10, 19, 26, 35 and 36, DESIGN CHOICE); that `CLEAR` and `START` of one write are one step is its inference (log 23, DEDUCED). -/
def Obligations.HostSequenceRunsTheCommand : Prop :=
  (∀ (s u : State) (i : Instr) (rest : List HostOp), s.cfg.Ok → i.WellFormed s.cfg → s.launch = none →
    s.level = .functional → (s.status = .idle ∨ s.status = .done) → s.host = hostSequence s.cfg i ++ rest →
    exec i { s with status := .idle } = .next u →
    ∃ t, runSteps ((encode i).length + 3) s = .next t ∧ t.status = u.status ∧ t.cause = u.cause ∧ t.gm = u.gm ∧
      t.launch = none ∧ t.dom = s.dom ∧ t.rdata = statusWord u.status ∧
      (∀ k w, (encode i)[k]? = some w → t.descWord k = some w) ∧
      (u.status = .done → t.host = rest ∧ t.held = [] ∧
        (s.run ≠ .faulted → (∀ op ∈ rest, op.starts s.cfg = false) → t.GoodEnd ∧ t.finalMemory = some u.gm)) ∧
      (u.status = .fault → t.host = [] ∧ t.FaultedEnd ∧ t.finalMemory = none)) ∧
  ∀ (s t : State) (final : List (Nat × Nat)), s.Inv → s.finalMemory = some final → step s = .next t →
    t.finalMemory = some final ∨ ∃ rest, s.host = .reset :: rest

/-- The transitions of the sequencer at the lane level: `IDLE -> BUSY`, `IDLE -> FAULT`, `BUSY -> DONE`, `DONE -> IDLE`, any
state to `IDLE` on reset, `DONE` through `IDLE` to `BUSY` or `FAULT` in one write of `CLEAR` and `START`, and no others
(60_exceptions.md R270). That the last is one step is an inference (log 23, DEDUCED); the lane level and the host's
operations, a reset among them, are the model's (logs 1, 10, 26 and 27, DESIGN CHOICE). -/
def Obligations.SequencerTransitions : Prop :=
  ∀ s t : State, s.Inv → s.level = .lane → step s = .next t →
    t.status = s.status ∨
    s.status = .idle ∧ (t.status = .busy ∨ t.status = .fault) ∨
    s.status = .busy ∧ t.status = .done ∨
    s.status = .done ∧ t.status = .idle ∨
    (s.status = .done ∧ (t.status = .busy ∨ t.status = .fault) ∧
      ∃ op rest, s.host = op :: rest ∧ (op = .startCommand ∨
        ∃ v : Word, op = .regWrite s.cfg.regBase 4 v ∧ v.getLsbD 0 = true ∧ v.getLsbD 1 = true)) ∨
    (t.status = .idle ∧ ∃ rest, s.host = .reset :: rest)

/-! ### Reset (70_reset_and_hazards.md, 10_state.md section 6) -/

/-- After the reset event from any state, and in the state the machine starts in, registers and lanes are as the reset
table says, no footprint is the block's and no command of the host's has been started (logs 35 and 36), and reads of
`CTRL`, `STATUS`, `FAULT_CAUSE` and a reserved word give 0 (10_state.md R45). -/
def Obligations.ResetValues : Prop :=
  (∀ s : State, ∀ t, t = s.hardReset ∨ t = State.reset →
    t.status = .idle ∧ t.cause = .none ∧ (∀ i, t.descWord i = none) ∧ t.launch = none ∧
    t.held = [] ∧ t.run = .notStarted ∧
    (∀ k, k < 32 → t.windowRead k = 0) ∧ t.start = .next (t.enterFault .descUnwritten)) ∧
  ∀ s : State, s.launch = none → s.hardReset.gm = s.gm ∧ s.hardReset.dom = s.dom

/-- 70_reset_and_hazards.md R292: a reset while a launch is in flight leaves the cells of its write footprint without a
value and every other cell as it was, and a launch that reads such a cell, its other tests passed, takes
`UNINIT_READ`. -/
def Obligations.ResetEmptiesTheWriteFootprint : Prop :=
  ∀ (s : State) (l : Launch), s.launch = some l →
    s.hardReset.launch = none ∧
    (∀ a, a ∈ launchWrites l → gmRead s.hardReset.gm a = none) ∧
    (∀ a, a ∉ launchWrites l → gmRead s.hardReset.gm a = gmRead s.gm a) ∧
    ∀ (r : Request) (a : Nat), a ∈ launchWrites l → a ∈ r.reads → r.paramsOk = true →
      (∀ b ∈ r.reads ++ r.writes, addrOk s.hardReset.dom b = true) → (∀ b ∈ r.writes, b ∉ r.others) →
      admission s.hardReset r = some .uninitRead

/-! ### Whole-machine rules -/

/-- The state the machine starts in meets the invariants; its fields that no rule fixes are the model's choices (logs 1
to 4, 7 to 10, 19, 35, 36). -/
def Obligations.ResetMeetsTheInvariants : Prop := State.reset.Inv ∧ State.reset.Synced

/-- Every step keeps the invariant: memory and `Dom` in canonical form, values only in allocated cells and elements of
`F`, lanes exactly in `BUSY`, a fault code exactly in `FAULT`, the footprint of the launch in flight with the block, a
faulted run only in `FAULT`, a good one only in `IDLE` or `DONE` with such a memory as its final state, scratch and
temporaries elements of `F`; and no step changes the implementation's parameters or the level of description
(00_scope.md R7; 10_state.md R28, R33 to R36, R39; 20_memory.md R73; 60_exceptions.md R257, R271, R272, R279;
70_reset_and_hazards.md R302). The fields that the clauses on the level, the parameters, the canonical forms, `held` and the
run speak of are the model's choices (logs 1, 3, 6, 7, 35 and 36, DESIGN CHOICE), and so is what scratch holds after its
group's last lane has ended, of which the clause on scratch speaks too (R36 leaves it undefined; log 34, DESIGN CHOICE), and
when the temporaries `t1 .. t5` are written (log 22, DESIGN CHOICE). -/
def Obligations.StepKeepsTheInvariant : Prop :=
  ∀ s t : State, step s = .next t → (s.Inv → t.Inv) ∧ t.cfg = s.cfg ∧ t.level = s.level

/-- While a command's footprint belongs to the block the host can neither read a cell the command writes, nor write or
release a cell of its footprint; it may read a cell that no such command writes (20_memory.md R73,
93_implementation_defined.md U18). The footprint of the launch in flight belongs to the block; and what belongs to it stays
so until a read of `STATUS` that returns `DONE` (70_reset_and_hazards.md R302) or a reset. That the host is stopped by a
refusal, and that reset ends the interval too, are the model's choices (logs 12 and 35), and so are the
element a read leaves in State and the operations that poll (logs 19 and 26, DESIGN CHOICE). -/
def Obligations.HostIsKeptOffTheFootprint : Prop :=
  (∀ (s : State) (i : Instr) (a v : Nat), (i ∈ s.held ∨ s.Inv ∧ ∃ l, s.launch = some l ∧ l.command = i) →
    (addrOk s.dom a = true → a ∈ commandWrites i → hostPerform (.memRead a) s = .refused .hostFootprint) ∧
    (addrOk s.dom a = true → a ∈ commandReads i ∨ a ∈ commandWrites i →
      hostPerform (.memWrite a v) s = .refused .hostFootprint) ∧
    ∀ lo len : Nat, lo ≤ a → a < lo + len → a ∈ commandReads i ∨ a ∈ commandWrites i →
      hostPerform (.free lo len) s = .refused .hostFootprint) ∧
  (∀ (s : State) (a w : Nat), addrOk s.dom a = true → (∀ i ∈ s.held, a ∉ commandWrites i) → gmRead s.gm a = some w →
    hostPerform (.memRead a) s = .next { s with edata := w }) ∧
  ∀ (s t : State) (i : Instr), step s = .next t → i ∈ s.held → i ∉ t.held →
    ∃ op rest, s.host = op :: rest ∧ (op = .reset ∨
      s.status = .done ∧ (op = .regRead (s.cfg.regBase + 4) 4 ∨ op = .awaitReady ∨ op = .awaitEnd))
end

