-- ==== Sys2Proof/Laws/Field.lean ====
section
/-! SUPPORT. Every result of the field operations is an element of `F` (40_field_arith.md R141 to R144). -/

namespace Sys2Proof.Machine

theorem fone_lt {p : Nat} (hp : 0 < p) : fone p < p := Nat.mod_lt _ hp
theorem fadd_lt {p : Nat} (hp : 0 < p) (a b : Nat) : fadd p a b < p := Nat.mod_lt _ hp
theorem fsub_lt {p : Nat} (hp : 0 < p) (a b : Nat) : fsub p a b < p := Nat.mod_lt _ hp
theorem fmul_lt {p : Nat} (hp : 0 < p) (a b : Nat) : fmul p a b < p := Nat.mod_lt _ hp
theorem fsqr_lt {p : Nat} (hp : 0 < p) (a : Nat) : fsqr p a < p := Nat.mod_lt _ hp
theorem fpow_lt {p : Nat} (hp : 0 < p) (a e : Nat) : fpow p a e < p := Nat.mod_lt _ hp
theorem freeElement_lt {p : Nat} (hp : 0 < p) (k : Nat) : freeElement p k < p := Nat.mod_lt _ hp
theorem foldTerm_lt {p : Nat} (hp : 0 < p) (v y t : Nat) : foldTerm p v y t < p := Nat.mod_lt _ hp
theorem lookupTerm1_lt {p : Nat} (hp : 0 < p) (q0 z : Nat) : lookupTerm1 p q0 z < p := Nat.mod_lt _ hp
theorem lookupTerm2_lt {p : Nat} (hp : 0 < p) (ql z : Nat) : lookupTerm2 p ql z < p := Nat.mod_lt _ hp
theorem lookupTerm3_lt {p : Nat} (hp : 0 < p) (qa a beta s gamma zn z tb : Nat) :
    lookupTerm3 p qa a beta s gamma zn z tb < p := Nat.mod_lt _ hp
theorem lookupTerm4_lt {p : Nat} (hp : 0 < p) (q0 a s : Nat) : lookupTerm4 p q0 a s < p := Nat.mod_lt _ hp
theorem lookupTerm5_lt {p : Nat} (hp : 0 < p) (qa a s ap : Nat) : lookupTerm5 p qa a s ap < p := Nat.mod_lt _ hp

theorem powProduct_lt {p : Nat} (hp : 0 < p) (es : List Nat) : powProduct p es < p := by
  unfold powProduct
  generalize fone p = r, fone_lt hp = hr
  induction es generalizing r with
  | nil => exact hr
  | cons e es ih => exact ih _ (fmul_lt hp ..)

/-- A lookup term's value, and so every value of the functional form, is an element of `F`. -/
theorem lookupValue_lt {p : Nat} (hp : 0 < p) (o : LookupOperands) (gm : List (Nat × Nat)) (idx : U32) :
    lookupValue p o gm idx < p := foldTerm_lt hp ..

end Sys2Proof.Machine
end

