-- ==== Sys2Proof/Laws/Memory.lean ====
section
/-! SUPPORT. Laws of global memory and of `Dom`: a read after a write, what a write leaves alone, and that every
operation keeps the canonical form. -/

namespace Sys2Proof.Machine

/-! ### Reads and writes -/

theorem gmRead_gmWrite_same (gm : List (Nat × Nat)) (a v : Nat) : gmRead (gmWrite gm a v) a = some v := by
  induction gm with
  | nil => simp [gmWrite, gmRead]
  | cons c gm ih =>
    obtain ⟨b, w⟩ := c
    unfold gmWrite
    split
    · simp [gmRead]
    · split
      · simp [gmRead]
      · simp [gmRead, *]

theorem gmRead_gmWrite_other (gm : List (Nat × Nat)) {a b : Nat} (v : Nat) (h : b ≠ a) :
    gmRead (gmWrite gm a v) b = gmRead gm b := by
  induction gm with
  | nil => simp [gmWrite, gmRead, h]
  | cons c gm ih =>
    obtain ⟨d, w⟩ := c
    unfold gmWrite
    split
    · simp [gmRead, h]
    · split
      · subst_vars; simp [gmRead, h]
      · simp [gmRead, ih]

theorem gmRead_gmWrite (gm : List (Nat × Nat)) (a b v : Nat) :
    gmRead (gmWrite gm a v) b = if b = a then some v else gmRead gm b := by
  split
  · subst_vars; exact gmRead_gmWrite_same gm _ v
  · exact gmRead_gmWrite_other gm v ‹_›

/-- A listed cell is in a written memory either as the write or as it was. -/
theorem mem_gmWrite {gm : List (Nat × Nat)} {a v : Nat} {c : Nat × Nat} (h : c ∈ gmWrite gm a v) :
    c = (a, v) ∨ c ∈ gm := by
  induction gm with
  | nil => simpa [gmWrite] using h
  | cons d gm ih =>
    obtain ⟨b, w⟩ := d
    unfold gmWrite at h
    split at h
    · simpa using h
    · split at h
      · rcases List.mem_cons.1 h with h | h
        · exact .inl h
        · exact .inr (List.mem_cons_of_mem _ h)
      · rcases List.mem_cons.1 h with h | h
        · exact .inr (h ▸ List.mem_cons_self ..)
        · exact (ih h).imp id (List.mem_cons_of_mem _)

theorem gmWrite_wf {gm : List (Nat × Nat)} (a v : Nat) (h : gmWf gm) : gmWf (gmWrite gm a v) := by
  induction gm with
  | nil => simp [gmWf, gmWrite]
  | cons d gm ih =>
    obtain ⟨b, w⟩ := d
    obtain ⟨hb, hgm⟩ := List.pairwise_cons.1 h
    unfold gmWrite
    split
    · refine List.pairwise_cons.2 ⟨fun c hc => ?_, h⟩
      rcases List.mem_cons.1 hc with rfl | hc
      · simpa
      · have := hb c hc; simp at this ⊢; omega
    · split
      · subst_vars
        exact List.pairwise_cons.2 ⟨hb, hgm⟩
      · refine List.pairwise_cons.2 ⟨fun c hc => ?_, ih hgm⟩
        rcases mem_gmWrite hc with rfl | hc
        · simp; omega
        · exact hb c hc

/-- In canonical form, reading is being listed. -/
theorem gmRead_eq_some_iff {gm : List (Nat × Nat)} (h : gmWf gm) (a v : Nat) :
    gmRead gm a = some v ↔ (a, v) ∈ gm := by
  induction gm with
  | nil => simp [gmRead]
  | cons d gm ih =>
    obtain ⟨b, w⟩ := d
    obtain ⟨hb, hgm⟩ := List.pairwise_cons.1 h
    unfold gmRead
    split
    · rename_i hab
      subst hab
      have : ∀ x, (a, x) ∉ gm := fun x hx => absurd (hb _ hx) (by simp)
      simp [this, eq_comm]
    · simp [ih hgm, *]

/-- A read answers a listed cell, whatever the form of the list. -/
theorem mem_of_gmRead {gm : List (Nat × Nat)} {a v : Nat} (h : gmRead gm a = some v) : (a, v) ∈ gm := by
  induction gm with
  | nil => simp [gmRead] at h
  | cons d gm ih =>
    obtain ⟨b, w⟩ := d
    unfold gmRead at h
    split at h
    · simp_all
    · exact List.mem_cons_of_mem _ (ih h)

/-! ### Stores in order -/

@[simp] theorem gmStores_nil (gm : List (Nat × Nat)) : gmStores gm [] = gm := rfl

@[simp] theorem gmStores_cons (gm : List (Nat × Nat)) (st : Nat × Nat) (sts : List (Nat × Nat)) :
    gmStores gm (st :: sts) = gmStores (gmWrite gm st.1 st.2) sts := rfl

theorem gmStores_append (gm : List (Nat × Nat)) (xs ys : List (Nat × Nat)) :
    gmStores gm (xs ++ ys) = gmStores (gmStores gm xs) ys := by simp [gmStores]

theorem gmStores_wf {gm : List (Nat × Nat)} (sts : List (Nat × Nat)) (h : gmWf gm) : gmWf (gmStores gm sts) := by
  induction sts generalizing gm with
  | nil => exact h
  | cons st sts ih => exact ih (gmWrite_wf _ _ h)

/-- A cell no store goes to reads as before. -/
theorem gmRead_gmStores_other (gm : List (Nat × Nat)) {sts : List (Nat × Nat)} {a : Nat}
    (h : ∀ st ∈ sts, st.1 ≠ a) : gmRead (gmStores gm sts) a = gmRead gm a := by
  induction sts generalizing gm with
  | nil => rfl
  | cons st sts ih =>
    rw [gmStores_cons, ih _ fun x hx => h x (List.mem_cons_of_mem _ hx),
      gmRead_gmWrite_other _ _ (h st (List.mem_cons_self ..)).symm]

/-- A cell exactly one store goes to reads as that store's value. -/
theorem gmRead_gmStores_mem (gm : List (Nat × Nat)) {sts : List (Nat × Nat)} {a v : Nat}
    (hn : (sts.map fun st => st.1).Nodup) (h : (a, v) ∈ sts) : gmRead (gmStores gm sts) a = some v := by
  induction sts generalizing gm with
  | nil => simp at h
  | cons st sts ih =>
    obtain ⟨hst, hn⟩ := List.nodup_cons.1 (List.map_cons .. ▸ hn)
    rw [gmStores_cons]
    rcases List.mem_cons.1 h with rfl | h
    · rw [gmRead_gmStores_other _ fun x hx he => hst (List.mem_map.2 ⟨x, hx, he⟩), gmRead_gmWrite_same]
    · exact ih _ hn h

/-- Every listed cell of a stored-to memory is a store or was there. -/
theorem mem_gmStores {gm sts : List (Nat × Nat)} {c : Nat × Nat} (h : c ∈ gmStores gm sts) : c ∈ sts ∨ c ∈ gm := by
  induction sts generalizing gm with
  | nil => exact .inr h
  | cons st sts ih =>
    rcases ih h with h | h
    · exact .inl (List.mem_cons_of_mem _ h)
    · exact (mem_gmWrite h).imp (fun h => List.mem_cons.2 (.inl h)) id

/-! ### Erasing -/

theorem gmErase_wf {gm : List (Nat × Nat)} (as : List Nat) (h : gmWf gm) : gmWf (gmErase gm as) :=
  h.sublist List.filter_sublist

theorem gmRead_gmErase (gm : List (Nat × Nat)) (as : List Nat) (a : Nat) :
    gmRead (gmErase gm as) a = if a ∈ as then none else gmRead gm a := by
  induction gm with
  | nil => simp [gmErase, gmRead]
  | cons d gm ih =>
    obtain ⟨b, w⟩ := d
    unfold gmErase at ih ⊢
    by_cases hb : b ∈ as
    · rw [List.filter_cons_of_neg (by simpa using hb), ih]
      by_cases hab : a = b
      · subst hab; simp [hb]
      · simp [gmRead, hab]
    · rw [List.filter_cons_of_pos (by simpa using hb)]
      by_cases hab : a = b
      · subst hab; simp [gmRead, hb]
      · rw [gmRead, if_neg hab, ih, gmRead, if_neg hab]

/-! ### `Dom` -/

theorem domHas_iff (dom : List Region) (a : Nat) : domHas dom a = true ↔ ∃ r ∈ dom, r.lo ≤ a ∧ a < r.hi := by
  simp [domHas]

theorem domHas_cons (r : Region) (dom : List Region) (a : Nat) :
    domHas (r :: dom) a = (decide (r.lo ≤ a ∧ a < r.hi) || domHas dom a) := rfl

/-- Allocation adds exactly its own addresses. -/
theorem domHas_domAdd {dom : List Region} {lo hi : Nat} (hlt : lo < hi) (hne : ∀ r ∈ dom, r.lo < r.hi) (a : Nat) :
    domHas (domAdd dom lo hi) a = true ↔ (lo ≤ a ∧ a < hi) ∨ domHas dom a = true := by
  induction dom generalizing lo hi with
  | nil => simp [domAdd, domHas]
  | cons r rs ih =>
    have hr := hne r (List.mem_cons_self ..)
    have hrs : ∀ q ∈ rs, q.lo < q.hi := fun q hq => hne q (List.mem_cons_of_mem _ hq)
    unfold domAdd
    split
    · simp [domHas_cons]
    · split
      · simp only [domHas_cons, Bool.or_eq_true, ih hlt hrs, decide_eq_true_eq]; tauto
      · rw [ih (by omega) hrs]
        simp only [domHas_cons, Bool.or_eq_true, decide_eq_true_eq]
        constructor
        · rintro (h | h)
          · by_cases h1 : lo ≤ a ∧ a < hi
            · exact .inl h1
            · exact .inr (.inl (by omega))
          · exact .inr (.inr h)
        · rintro (h | h | h)
          · exact .inl (by omega)
          · exact .inl (by omega)
          · exact .inr h

/-- Every run of `domAdd` starts at or above any bound that the runs and the new range respect. -/
theorem domAdd_lo {dom : List Region} {lo hi b : Nat} (hlo : b < lo) (h : ∀ r ∈ dom, b < r.lo) :
    ∀ r ∈ domAdd dom lo hi, b < r.lo := by
  induction dom generalizing lo hi with
  | nil => simpa [domAdd] using hlo
  | cons r rs ih =>
    have hr := h r (List.mem_cons_self ..)
    have hrs : ∀ q ∈ rs, b < q.lo := fun q hq => h q (List.mem_cons_of_mem _ hq)
    unfold domAdd
    split
    · intro q hq
      rcases List.mem_cons.1 hq with rfl | hq
      · exact hlo
      · exact h q hq
    · split
      · intro q hq
        rcases List.mem_cons.1 hq with rfl | hq
        · exact hr
        · exact ih hlo hrs q hq
      · exact ih (by omega) hrs

theorem domAdd_hi {dom : List Region} {lo hi b : Nat} (hhi : hi ≤ b) (h : ∀ r ∈ dom, r.hi ≤ b) :
    ∀ r ∈ domAdd dom lo hi, r.hi ≤ b := by
  induction dom generalizing lo hi with
  | nil => simpa [domAdd] using hhi
  | cons r rs ih =>
    have hr := h r (List.mem_cons_self ..)
    have hrs : ∀ q ∈ rs, q.hi ≤ b := fun q hq => h q (List.mem_cons_of_mem _ hq)
    unfold domAdd
    split
    · intro q hq
      rcases List.mem_cons.1 hq with rfl | hq
      · exact hhi
      · exact h q hq
    · split
      · intro q hq
        rcases List.mem_cons.1 hq with rfl | hq
        · exact hr
        · exact ih hhi hrs q hq
      · exact ih (by omega) hrs

theorem domAdd_wf {dom : List Region} {lo hi : Nat} (hlt : lo < hi) (h : domWf dom) : domWf (domAdd dom lo hi) := by
  induction dom generalizing lo hi with
  | nil => simpa [domWf, domAdd] using hlt
  | cons r rs ih =>
    obtain ⟨hne, hp⟩ := h
    obtain ⟨hr, hrs⟩ := List.pairwise_cons.1 hp
    have hrne := hne r (List.mem_cons_self ..)
    have hwf : domWf rs := ⟨fun q hq => hne q (List.mem_cons_of_mem _ hq), hrs⟩
    unfold domAdd
    split
    · refine ⟨fun q hq => ?_, List.pairwise_cons.2 ⟨fun q hq => ?_, hp⟩⟩
      · rcases List.mem_cons.1 hq with rfl | hq
        · exact hlt
        · exact hne q hq
      · rcases List.mem_cons.1 hq with rfl | hq
        · assumption
        · have := hr q hq; simp only at *; omega
    · split
      · obtain ⟨h1, h2⟩ := ih hlt hwf
        refine ⟨fun q hq => ?_, List.pairwise_cons.2 ⟨domAdd_lo (by omega) hr, h2⟩⟩
        rcases List.mem_cons.1 hq with rfl | hq
        · exact hrne
        · exact h1 q hq
      · exact ih (by omega) hwf

/-- Release takes away exactly its own addresses. -/
theorem domHas_domRemove (dom : List Region) (lo hi a : Nat) :
    domHas (domRemove dom lo hi) a = true ↔ domHas dom a = true ∧ ¬(lo ≤ a ∧ a < hi) := by
  simp only [domHas_iff, domRemove, List.mem_flatMap, List.mem_filter, List.mem_cons, List.not_mem_nil, or_false,
    decide_eq_true_eq]
  constructor
  · rintro ⟨q, ⟨r, hr, hq, hlt⟩, h1, h2⟩
    rcases hq with rfl | rfl <;> simp only at h1 h2 hlt <;> exact ⟨⟨r, hr, by omega⟩, by omega⟩
  · rintro ⟨⟨r, hr, h1, h2⟩, h3⟩
    by_cases h4 : a < lo
    · exact ⟨⟨r.lo, min r.hi lo⟩, ⟨r, hr, .inl rfl, by simp only; omega⟩, h1, by simp only; omega⟩
    · exact ⟨⟨max r.lo hi, r.hi⟩, ⟨r, hr, .inr rfl, by simp only; omega⟩, by simp only; omega, h2⟩

theorem domRemove_hi {dom : List Region} {lo hi b : Nat} (h : ∀ r ∈ dom, r.hi ≤ b) :
    ∀ r ∈ domRemove dom lo hi, r.hi ≤ b := by
  intro q hq
  simp only [domRemove, List.mem_flatMap, List.mem_filter, List.mem_cons, List.not_mem_nil, or_false] at hq
  obtain ⟨r, hr, rfl | rfl, -⟩ := hq
  · have := h r hr; simp only; omega
  · exact h r hr

/-- Release keeps the canonical form. -/
theorem domRemove_wf {dom : List Region} {lo hi : Nat} (hlt : lo < hi) (h : domWf dom) :
    domWf (domRemove dom lo hi) := by
  obtain ⟨hne, hp⟩ := h
  refine ⟨fun q hq => ?_, ?_⟩
  · simp only [domRemove, List.mem_flatMap, List.mem_filter, decide_eq_true_eq] at hq
    obtain ⟨r, -, -, hq⟩ := hq
    exact hq
  · unfold domRemove
    refine List.pairwise_flatMap.2 ⟨fun r hr => List.Pairwise.sublist List.filter_sublist ?_, ?_⟩
    · simp only [List.pairwise_cons, List.mem_cons, List.not_mem_nil, or_false, forall_eq, false_implies,
        implies_true, List.Pairwise.nil, and_true]
      omega
    · refine hp.imp fun {r r'} hrr q hq q' hq' => ?_
      simp only [List.mem_filter, List.mem_cons, List.not_mem_nil, or_false, decide_eq_true_eq] at hq hq'
      obtain ⟨rfl | rfl, h1⟩ := hq <;> obtain ⟨rfl | rfl, h2⟩ := hq' <;> simp only at h1 h2 ⊢ <;> omega

end Sys2Proof.Machine
end

