-- ==== Sys2Proof/Laws/Lanes.lean ====
section
/-! SUPPORT. What a lane's step can do: inversion of the accesses it is built of, and that it keeps every value an
element of `F`, the lane's number and the size of the scratch buffer. -/

namespace Sys2Proof.Machine

/-! ### Inversion of the accesses -/

theorem bind_eq_ok {ε α β : Type} {x : Except ε α} {f : α → Except ε β} {b : β} :
    (x >>= f) = .ok b ↔ ∃ a, x = .ok a ∧ f a = .ok b := by
  cases x <;> simp [bind, Except.bind]

theorem pure_eq_ok {ε α : Type} {a b : α} : (pure a : Except ε α) = .ok b ↔ a = b := by
  simp [pure, Except.pure]

theorem temp_eq_ok {α : Type} {x : Option α} {v : α} : temp x = .ok v ↔ x = some v := by
  cases x <;> simp [temp]

theorem memLoad_eq_ok {s : State} {base : Addr} {i : U32} {v : Nat} :
    memLoad s base i = .ok v ↔ addrOk s.dom (elemAddr base i) = true ∧ gmRead s.gm (elemAddr base i) = some v := by
  unfold memLoad
  cases addrOk s.dom (elemAddr base i) <;> cases gmRead s.gm (elemAddr base i) <;> simp

theorem memStore_eq_ok {s : State} {base : Addr} {i : U32} {v : Nat} {gm : List (Nat × Nat)} :
    memStore s base i v = .ok gm ↔
      addrOk s.dom (elemAddr base i) = true ∧ gm = gmWrite s.gm (elemAddr base i) v := by
  unfold memStore
  cases addrOk s.dom (elemAddr base i) <;> simp [eq_comm]

theorem scratchRead_eq_ok {u : List (Option Nat)} {i : U32} {v : Nat} :
    scratchRead u i = .ok v ↔ u[i.toNat]? = some (some v) := by
  unfold scratchRead
  split <;> simp_all

theorem scratchWrite_eq_ok {u u' : List (Option Nat)} {i : U32} {v : Nat} :
    scratchWrite u i v = .ok u' ↔ i.toNat < u.length ∧ u' = u.set i.toNat (some v) := by
  unfold scratchWrite
  split <;> simp_all [eq_comm]

/-! ### Values stay elements of `F` -/

/-- Only allocated cells hold values, and the values are elements of `F` (10_state.md R39). -/
abbrev cellsOk (p : Nat) (dom : List Region) (gm : List (Nat × Nat)) : Prop :=
  ∀ c ∈ gm, domHas dom c.1 = true ∧ c.2 < p

theorem elemOk_none (p : Nat) : elemOk p none := by simp [elemOk]

theorem elemOk_some {p v : Nat} (h : v < p) : elemOk p (some v) := by simp [elemOk, h]

theorem memLoad_lt {s : State} {base : Addr} {i : U32} {v : Nat} (hc : cellsOk s.cfg.pMod s.dom s.gm)
    (h : memLoad s base i = .ok v) : v < s.cfg.pMod :=
  (hc _ (mem_of_gmRead (memLoad_eq_ok.1 h).2)).2

theorem memStore_cellsOk {s : State} {base : Addr} {i : U32} {v : Nat} {gm : List (Nat × Nat)}
    (hc : cellsOk s.cfg.pMod s.dom s.gm) (hv : v < s.cfg.pMod) (h : memStore s base i v = .ok gm) :
    cellsOk s.cfg.pMod s.dom gm := by
  obtain ⟨ha, rfl⟩ := memStore_eq_ok.1 h
  intro c hcm
  rcases mem_gmWrite hcm with rfl | hcm
  · simp only [addrOk, Bool.and_eq_true] at ha
    exact ⟨ha.2, hv⟩
  · exact hc c hcm

theorem memStore_wf {s : State} {base : Addr} {i : U32} {v : Nat} {gm : List (Nat × Nat)} (hw : gmWf s.gm)
    (h : memStore s base i v = .ok gm) : gmWf gm := by
  obtain ⟨-, rfl⟩ := memStore_eq_ok.1 h
  exact gmWrite_wf _ _ hw

theorem loadAll_lt {s : State} {base : Addr} {js : List U32} {vs : List Nat} (hc : cellsOk s.cfg.pMod s.dom s.gm)
    (h : loadAll s base js = .ok vs) : ∀ v ∈ vs, v < s.cfg.pMod := by
  induction js generalizing vs with
  | nil => cases h; simp
  | cons j js ih =>
    unfold loadAll at h
    split at h
    · cases h
    · split at h
      · cases h
      · cases h
        rename_i v hv _ vs hvs
        exact List.forall_mem_cons.2 ⟨memLoad_lt hc hv, ih hvs⟩

theorem lanePowLookup_lt {s : State} {base : Addr} {e : U32} {v : Nat} (hp : 0 < s.cfg.pMod)
    (h : lanePowLookup s base e = .ok v) : v < s.cfg.pMod := by
  unfold lanePowLookup at h
  split at h
  · cases h; exact powProduct_lt hp _
  · cases h

theorem scratchRead_lt {p : Nat} {u : List (Option Nat)} {i : U32} {v : Nat} (hu : ∀ x ∈ u, elemOk p x)
    (h : scratchRead u i = .ok v) : v < p :=
  hu _ (List.mem_of_getElem? (scratchRead_eq_ok.1 h)) v rfl

theorem scratchWrite_elems {p : Nat} {u u' : List (Option Nat)} {i : U32} {v : Nat} (hu : ∀ x ∈ u, elemOk p x)
    (hv : v < p) (h : scratchWrite u i v = .ok u') : ∀ x ∈ u', elemOk p x := by
  obtain ⟨-, rfl⟩ := scratchWrite_eq_ok.1 h
  intro x hx
  rcases List.mem_or_eq_of_mem_set hx with hx | rfl
  · exact hu x hx
  · exact elemOk_some hv

/-- What holds of a lane step's result whatever the lane did. -/
structure NttEffect.Good (s : State) (g : NttGroup) (l : NttLane) (r : NttEffect) : Prop where
  lid : r.lane.lid = l.lid
  elems : r.lane.Elems s.cfg.pMod
  scratch : ∀ x ∈ r.scratch, elemOk s.cfg.pMod x
  length : r.scratch.length = g.scratch.length
  wf : gmWf r.gm
  cells : cellsOk s.cfg.pMod s.dom r.gm

section
variable {s : State} {o : NttOperands} {g : NttGroup} {l : NttLane} {r : NttEffect}
  (hp : 0 < s.cfg.pMod) (hw : gmWf s.gm) (hc : cellsOk s.cfg.pMod s.dom s.gm)
  (hu : ∀ x ∈ g.scratch, elemOk s.cfg.pMod x) (hl : l.Elems s.cfg.pMod)

include hp hw hc hu hl

theorem nttSeedStep_good {line : SeedLine} (h : nttSeedStep s o g l line = .ok r) : r.Good s g l := by
  cases line <;> simp only [nttSeedStep, bind_eq_ok, pure_eq_ok, Except.ok.injEq] at h
  · subst h
    exact ⟨rfl, ⟨hl.1, hl.2, hl.3, hl.4, hl.5⟩, hu, rfl, hw, hc⟩
  · obtain ⟨_, _, rfl⟩ := h
    exact ⟨rfl, ⟨hl.1, hl.2, hl.3, hl.4, hl.5⟩, hu, rfl, hw, hc⟩
  · obtain ⟨_, _, rfl⟩ := h
    exact ⟨rfl, ⟨hl.1, hl.2, hl.3, hl.4, hl.5⟩, hu, rfl, hw, hc⟩
  · obtain ⟨_, _, tw, htw, rfl⟩ := h
    exact ⟨rfl, ⟨elemOk_some (lanePowLookup_lt hp htw), hl.2, hl.3, hl.4, hl.5⟩, hu, rfl, hw, hc⟩
  · obtain ⟨_, _, _, _, rfl⟩ := h
    exact ⟨rfl, ⟨hl.1, elemOk_some (fpow_lt hp ..), hl.3, hl.4, hl.5⟩, hu, rfl, hw, hc⟩

theorem nttStageStep_good {i : U32} {line : StageLine} (h : nttStageStep s o g l i line = .ok r) : r.Good s g l := by
  cases line <;> simp only [nttStageStep, bind_eq_ok, pure_eq_ok] at h
  · obtain ⟨_, _, a, ha, rfl⟩ := h
    exact ⟨rfl, ⟨hl.1, hl.2, elemOk_some (memLoad_lt hc ha), hl.4, hl.5⟩, hu, rfl, hw, hc⟩
  · obtain ⟨_, _, _, _, u, hu', rfl⟩ := h
    refine ⟨rfl, ⟨hl.1, hl.2, hl.3, hl.4, hl.5⟩, scratchWrite_elems hu (fmul_lt hp ..) hu', ?_, hw, hc⟩
    simp [(scratchWrite_eq_ok.1 hu').2]
  · obtain ⟨_, _, _, _, _, _, rfl⟩ := h
    exact ⟨rfl, ⟨hl.1, elemOk_some (fmul_lt hp ..), hl.3, hl.4, hl.5⟩, hu, rfl, hw, hc⟩

theorem nttBflyStep_good {rnd : Nat} {i : U32} {line : BflyLine} (h : nttBflyStep s o g l rnd i line = .ok r) :
    r.Good s g l := by
  cases line <;> simp only [nttBflyStep, bind_eq_ok, pure_eq_ok] at h
  · obtain ⟨_, _, rfl⟩ := h
    exact ⟨rfl, ⟨hl.1, hl.2, hl.3, hl.4, hl.5⟩, hu, rfl, hw, hc⟩
  · obtain ⟨_, _, rfl⟩ := h
    exact ⟨rfl, ⟨hl.1, hl.2, hl.3, hl.4, hl.5⟩, hu, rfl, hw, hc⟩
  · obtain ⟨_, _, _, _, a, ha, b, hb, rfl⟩ := h
    exact ⟨rfl, ⟨hl.1, hl.2, elemOk_some (scratchRead_lt hu ha), elemOk_some (scratchRead_lt hu hb), hl.5⟩, hu, rfl,
      hw, hc⟩
  · obtain ⟨_, _, _, _, _, _, u, hu', rfl⟩ := h
    refine ⟨rfl, ⟨hl.1, hl.2, hl.3, hl.4, hl.5⟩, scratchWrite_elems hu (fadd_lt hp ..) hu', ?_, hw, hc⟩
    simp [(scratchWrite_eq_ok.1 hu').2]
  · obtain ⟨_, _, _, _, rfl⟩ := h
    exact ⟨rfl, ⟨hl.1, hl.2, hl.3, hl.4, elemOk_some (fsub_lt hp ..)⟩, hu, rfl, hw, hc⟩
  · obtain ⟨_, _, _, _, h⟩ := h
    split at h <;> simp only [bind_eq_ok, pure_eq_ok] at h
    · obtain ⟨_, _, _, _, rfl⟩ := h
      exact ⟨rfl, ⟨hl.1, hl.2, hl.3, hl.4, elemOk_some (fmul_lt hp ..)⟩, hu, rfl, hw, hc⟩
    · subst h
      exact ⟨rfl, ⟨hl.1, hl.2, hl.3, hl.4, hl.5⟩, hu, rfl, hw, hc⟩
  · obtain ⟨_, _, d, hd, _, _, u, hu', rfl⟩ := h
    refine ⟨rfl, ⟨hl.1, hl.2, hl.3, hl.4, hl.5⟩, scratchWrite_elems hu (hl.d _ (temp_eq_ok.1 hd)) hu', ?_, hw, hc⟩
    simp [(scratchWrite_eq_ok.1 hu').2]

omit hp in
theorem nttScatStep_good {i : U32} {line : ScatLine} (h : nttScatStep s o g l i line = .ok r) : r.Good s g l := by
  cases line <;> simp only [nttScatStep, bind_eq_ok, pure_eq_ok] at h
  · obtain ⟨_, _, rfl⟩ := h
    exact ⟨rfl, ⟨hl.1, hl.2, hl.3, hl.4, hl.5⟩, hu, rfl, hw, hc⟩
  · obtain ⟨_, _, _, _, v, hv, gm, hgm, rfl⟩ := h
    exact ⟨rfl, ⟨hl.1, hl.2, hl.3, hl.4, hl.5⟩, hu, rfl, memStore_wf hw hgm,
      memStore_cellsOk hc (scratchRead_lt hu hv) hgm⟩
  · obtain ⟨_, _, _, _, _, _, _, _, v, hv, gm, hgm, rfl⟩ := h
    exact ⟨rfl, ⟨hl.1, hl.2, hl.3, hl.4, hl.5⟩, hu, rfl, memStore_wf hw hgm,
      memStore_cellsOk hc (scratchRead_lt hu hv) hgm⟩

/-- A step of an `NTT_STAGE` lane keeps values elements of `F`, memory in canonical form, the lane's number and the
scratch buffer's size. -/
theorem nttLaneStep_good (h : nttLaneStep s o g l = .ok r) : r.Good s g l := by
  unfold nttLaneStep at h
  split at h
  · exact nttSeedStep_good hp hw hc hu hl h
  · exact nttStageStep_good hp hw hc hu hl h
  · exact nttBflyStep_good hp hw hc hu hl h
  · exact nttScatStep_good hw hc hu hl h
  all_goals cases h; exact ⟨rfl, hl, hu, rfl, hw, hc⟩

end

/-- A step of a `SCALAR_MUL` lane keeps values elements of `F`, memory in canonical form and the lane's number. -/
theorem scalarLaneStep_good {s : State} {o : ScalarOperands} {f : Nat} {l : ScalarLane} {r : ScalarEffect}
    (hp : 0 < s.cfg.pMod) (hw : gmWf s.gm) (hc : cellsOk s.cfg.pMod s.dom s.gm) (hl : elemOk s.cfg.pMod l.v)
    (h : scalarLaneStep s o f l = .ok r) :
    r.lane.gid = l.gid ∧ elemOk s.cfg.pMod r.lane.v ∧ gmWf r.gm ∧ cellsOk s.cfg.pMod s.dom r.gm := by
  unfold scalarLaneStep at h
  split at h <;> simp only [bind_eq_ok, pure_eq_ok, Except.ok.injEq] at h
  · obtain ⟨v, hv, rfl⟩ := h
    exact ⟨rfl, elemOk_some (memLoad_lt hc hv), hw, hc⟩
  · obtain ⟨_, _, gm, hgm, rfl⟩ := h
    exact ⟨rfl, hl, memStore_wf hw hgm, memStore_cellsOk hc (fmul_lt hp ..) hgm⟩
  · subst h
    exact ⟨rfl, hl, hw, hc⟩

/-- A step of a `LOOKUP_EVAL` lane keeps values elements of `F`, memory in canonical form and the lane's number. -/
theorem lookupLaneStep_good {s : State} {o : LookupOperands} {l : LookupLane} {r : LookupEffect}
    (hp : 0 < s.cfg.pMod) (hw : gmWf s.gm) (hc : cellsOk s.cfg.pMod s.dom s.gm) (hl : l.Elems s.cfg.pMod)
    (h : lookupLaneStep s o l = .ok r) :
    r.lane.idx = l.idx ∧ r.lane.Elems s.cfg.pMod ∧ gmWf r.gm ∧ cellsOk s.cfg.pMod s.dom r.gm := by
  have hl' := hl
  obtain ⟨h1, h2, h3, h4, h5, h6, h7, h8, h9, h10, h11, h12, h13, h14, h15, h16, h17, h18⟩ := hl'
  unfold lookupLaneStep at h
  simp only at h
  split at h <;> simp only [bind_eq_ok, pure_eq_ok, Except.ok.injEq] at h
  case h_1 =>
    obtain ⟨v, hv, rfl⟩ := h
    exact ⟨rfl, ⟨elemOk_some (memLoad_lt hc hv), h2, h3, h4, h5, h6, h7, h8, h9, h10, h11, h12, h13, h14, h15, h16, h17, h18⟩, hw, hc⟩
  case h_2 =>
    obtain ⟨v, hv, rfl⟩ := h
    exact ⟨rfl, ⟨h1, elemOk_some (memLoad_lt hc hv), h3, h4, h5, h6, h7, h8, h9, h10, h11, h12, h13, h14, h15, h16, h17, h18⟩, hw, hc⟩
  case h_3 =>
    obtain ⟨v, hv, rfl⟩ := h
    exact ⟨rfl, ⟨h1, h2, elemOk_some (memLoad_lt hc hv), h4, h5, h6, h7, h8, h9, h10, h11, h12, h13, h14, h15, h16, h17, h18⟩, hw, hc⟩
  case h_4 => subst h; exact ⟨rfl, ⟨h1, h2, h3, h4, h5, h6, h7, h8, h9, h10, h11, h12, h13, h14, h15, h16, h17, h18⟩, hw, hc⟩
  case h_5 => subst h; exact ⟨rfl, ⟨h1, h2, h3, h4, h5, h6, h7, h8, h9, h10, h11, h12, h13, h14, h15, h16, h17, h18⟩, hw, hc⟩
  case h_6 =>
    obtain ⟨v, hv, rfl⟩ := h
    exact ⟨rfl, ⟨h1, h2, h3, elemOk_some (memLoad_lt hc hv), h5, h6, h7, h8, h9, h10, h11, h12, h13, h14, h15, h16, h17, h18⟩, hw, hc⟩
  case h_7 =>
    obtain ⟨v, hv, rfl⟩ := h
    exact ⟨rfl, ⟨h1, h2, h3, h4, elemOk_some (memLoad_lt hc hv), h6, h7, h8, h9, h10, h11, h12, h13, h14, h15, h16, h17, h18⟩, hw, hc⟩
  case h_8 =>
    obtain ⟨_, _, v, hv, rfl⟩ := h
    exact ⟨rfl, ⟨h1, h2, h3, h4, h5, elemOk_some (memLoad_lt hc hv), h7, h8, h9, h10, h11, h12, h13, h14, h15, h16, h17, h18⟩, hw, hc⟩
  case h_9 =>
    obtain ⟨v, hv, rfl⟩ := h
    exact ⟨rfl, ⟨h1, h2, h3, h4, h5, h6, elemOk_some (memLoad_lt hc hv), h8, h9, h10, h11, h12, h13, h14, h15, h16, h17, h18⟩, hw, hc⟩
  case h_10 =>
    obtain ⟨_, _, v, hv, rfl⟩ := h
    exact ⟨rfl, ⟨h1, h2, h3, h4, h5, h6, h7, elemOk_some (memLoad_lt hc hv), h9, h10, h11, h12, h13, h14, h15, h16, h17, h18⟩, hw, hc⟩
  case h_11 =>
    obtain ⟨v, hv, rfl⟩ := h
    exact ⟨rfl, ⟨h1, h2, h3, h4, h5, h6, h7, h8, elemOk_some (memLoad_lt hc hv), h10, h11, h12, h13, h14, h15, h16, h17, h18⟩, hw, hc⟩
  case h_12 =>
    obtain ⟨v, hv, rfl⟩ := h
    exact ⟨rfl, ⟨h1, h2, h3, h4, h5, h6, h7, h8, h9, elemOk_some (memLoad_lt hc hv), h11, h12, h13, h14, h15, h16, h17, h18⟩, hw, hc⟩
  case h_13 =>
    obtain ⟨v, hv, rfl⟩ := h
    exact ⟨rfl, ⟨h1, h2, h3, h4, h5, h6, h7, h8, h9, h10, elemOk_some (memLoad_lt hc hv), h12, h13, h14, h15, h16, h17, h18⟩, hw, hc⟩
  case h_14 =>
    obtain ⟨v, hv, rfl⟩ := h
    exact ⟨rfl, ⟨h1, h2, h3, h4, h5, h6, h7, h8, h9, h10, h11, elemOk_some (memLoad_lt hc hv), h13, h14, h15, h16, h17, h18⟩, hw, hc⟩
  case h_15 =>
    obtain ⟨v, hv, rfl⟩ := h
    exact ⟨rfl, ⟨h1, h2, h3, h4, h5, h6, h7, h8, h9, h10, h11, h12, elemOk_some (memLoad_lt hc hv), h14, h15, h16, h17, h18⟩, hw, hc⟩
  case h_16 =>
    obtain ⟨_, _, _, _, _, _, _, _, rfl⟩ := h
    exact ⟨rfl, ⟨h1, h2, h3, elemOk_some (foldTerm_lt hp ..), h5, h6, h7, h8, h9, h10, h11, h12, h13,
      elemOk_some (lookupTerm1_lt hp ..), h15, h16, h17, h18⟩, hw, hc⟩
  case h_17 =>
    obtain ⟨_, _, _, _, _, _, _, _, rfl⟩ := h
    exact ⟨rfl, ⟨h1, h2, h3, elemOk_some (foldTerm_lt hp ..), h5, h6, h7, h8, h9, h10, h11, h12, h13, h14,
      elemOk_some (lookupTerm2_lt hp ..), h16, h17, h18⟩, hw, hc⟩
  case h_18 =>
    obtain ⟨_, _, _, _, _, _, _, _, _, _, _, _, _, _, _, _, _, _, _, _, rfl⟩ := h
    exact ⟨rfl, ⟨h1, h2, h3, elemOk_some (foldTerm_lt hp ..), h5, h6, h7, h8, h9, h10, h11, h12, h13, h14, h15,
      elemOk_some (lookupTerm3_lt hp ..), h17, h18⟩, hw, hc⟩
  case h_19 =>
    obtain ⟨_, _, _, _, _, _, _, _, _, _, rfl⟩ := h
    exact ⟨rfl, ⟨h1, h2, h3, elemOk_some (foldTerm_lt hp ..), h5, h6, h7, h8, h9, h10, h11, h12, h13, h14, h15, h16,
      elemOk_some (lookupTerm4_lt hp ..), h18⟩, hw, hc⟩
  case h_20 =>
    obtain ⟨_, _, _, _, _, _, _, _, _, _, _, _, rfl⟩ := h
    exact ⟨rfl, ⟨h1, h2, h3, elemOk_some (foldTerm_lt hp ..), h5, h6, h7, h8, h9, h10, h11, h12, h13, h14, h15, h16, h17,
      elemOk_some (lookupTerm5_lt hp ..)⟩, hw, hc⟩
  case h_21 =>
    obtain ⟨v, hv, gm, hgm, rfl⟩ := h
    exact ⟨rfl, ⟨h1, h2, h3, h4, h5, h6, h7, h8, h9, h10, h11, h12, h13, h14, h15, h16, h17, h18⟩, memStore_wf hw hgm,
      memStore_cellsOk hc (h4 _ (temp_eq_ok.1 hv)) hgm⟩
  case h_22 => subst h; exact ⟨rfl, hl, hw, hc⟩

end Sys2Proof.Machine
end

