-- ==== Sys2Proof/Laws/State.lean ====
section
/-! SUPPORT. One lemma per field per update of the state, so that no later proof unfolds a record update. -/

namespace Sys2Proof.Machine

/-! ### `enterFault` -/

@[simp] theorem enterFault_status (s : State) (code : FaultCode) : (s.enterFault code).status = .fault := rfl
@[simp] theorem enterFault_cause (s : State) (code : FaultCode) : (s.enterFault code).cause = code := rfl
@[simp] theorem enterFault_desc (s : State) (code : FaultCode) : (s.enterFault code).desc = s.desc := rfl
@[simp] theorem enterFault_launch (s : State) (code : FaultCode) : (s.enterFault code).launch = s.launch := rfl
@[simp] theorem enterFault_gm (s : State) (code : FaultCode) : (s.enterFault code).gm = s.gm := rfl
@[simp] theorem enterFault_dom (s : State) (code : FaultCode) : (s.enterFault code).dom = s.dom := rfl
@[simp] theorem enterFault_cfg (s : State) (code : FaultCode) : (s.enterFault code).cfg = s.cfg := rfl
@[simp] theorem enterFault_level (s : State) (code : FaultCode) : (s.enterFault code).level = s.level := rfl
@[simp] theorem enterFault_sched (s : State) (code : FaultCode) : (s.enterFault code).sched = s.sched := rfl
@[simp] theorem enterFault_host (s : State) (code : FaultCode) : (s.enterFault code).host = s.host := rfl
@[simp] theorem enterFault_rdata (s : State) (code : FaultCode) : (s.enterFault code).rdata = s.rdata := rfl
@[simp] theorem enterFault_edata (s : State) (code : FaultCode) : (s.enterFault code).edata = s.edata := rfl
@[simp] theorem enterFault_draws (s : State) (code : FaultCode) : (s.enterFault code).draws = s.draws := rfl
@[simp] theorem enterFault_held (s : State) (code : FaultCode) : (s.enterFault code).held = s.held := rfl
@[simp] theorem enterFault_run (s : State) (code : FaultCode) : (s.enterFault code).run = s.run := rfl

/-! ### `enterBusy` -/

@[simp] theorem enterBusy_status (s : State) (l : Launch) : (s.enterBusy l).status = .busy := rfl
@[simp] theorem enterBusy_cause (s : State) (l : Launch) : (s.enterBusy l).cause = s.cause := rfl
@[simp] theorem enterBusy_desc (s : State) (l : Launch) : (s.enterBusy l).desc = s.desc := rfl
@[simp] theorem enterBusy_launch (s : State) (l : Launch) : (s.enterBusy l).launch = some l := rfl
@[simp] theorem enterBusy_gm (s : State) (l : Launch) : (s.enterBusy l).gm = s.gm := rfl
@[simp] theorem enterBusy_dom (s : State) (l : Launch) : (s.enterBusy l).dom = s.dom := rfl
@[simp] theorem enterBusy_cfg (s : State) (l : Launch) : (s.enterBusy l).cfg = s.cfg := rfl
@[simp] theorem enterBusy_level (s : State) (l : Launch) : (s.enterBusy l).level = s.level := rfl
@[simp] theorem enterBusy_sched (s : State) (l : Launch) : (s.enterBusy l).sched = s.sched := rfl
@[simp] theorem enterBusy_host (s : State) (l : Launch) : (s.enterBusy l).host = s.host := rfl
@[simp] theorem enterBusy_rdata (s : State) (l : Launch) : (s.enterBusy l).rdata = s.rdata := rfl
@[simp] theorem enterBusy_edata (s : State) (l : Launch) : (s.enterBusy l).edata = s.edata := rfl
@[simp] theorem enterBusy_draws (s : State) (l : Launch) : (s.enterBusy l).draws = s.draws := rfl
@[simp] theorem enterBusy_held (s : State) (l : Launch) : (s.enterBusy l).held = l.command :: s.held := rfl
@[simp] theorem enterBusy_run (s : State) (l : Launch) : (s.enterBusy l).run = s.run := rfl

/-! ### `endLaunch` -/

@[simp] theorem endLaunch_status (s : State) : s.endLaunch.status = .done := rfl
@[simp] theorem endLaunch_cause (s : State) : s.endLaunch.cause = s.cause := rfl
@[simp] theorem endLaunch_desc (s : State) : s.endLaunch.desc = s.desc := rfl
@[simp] theorem endLaunch_launch (s : State) : s.endLaunch.launch = none := rfl
@[simp] theorem endLaunch_gm (s : State) : s.endLaunch.gm = s.gm := rfl
@[simp] theorem endLaunch_dom (s : State) : s.endLaunch.dom = s.dom := rfl
@[simp] theorem endLaunch_cfg (s : State) : s.endLaunch.cfg = s.cfg := rfl
@[simp] theorem endLaunch_level (s : State) : s.endLaunch.level = s.level := rfl
@[simp] theorem endLaunch_sched (s : State) : s.endLaunch.sched = s.sched := rfl
@[simp] theorem endLaunch_host (s : State) : s.endLaunch.host = s.host := rfl
@[simp] theorem endLaunch_rdata (s : State) : s.endLaunch.rdata = s.rdata := rfl
@[simp] theorem endLaunch_edata (s : State) : s.endLaunch.edata = s.edata := rfl
@[simp] theorem endLaunch_draws (s : State) : s.endLaunch.draws = s.draws := rfl
@[simp] theorem endLaunch_held (s : State) : s.endLaunch.held = s.held := rfl
@[simp] theorem endLaunch_run (s : State) : s.endLaunch.run = s.run := rfl

/-! ### `complete` -/

@[simp] theorem complete_status (s : State) (i : Instr) (gm : List (Nat × Nat)) :
    (s.complete i gm).status = .done := rfl
@[simp] theorem complete_cause (s : State) (i : Instr) (gm : List (Nat × Nat)) :
    (s.complete i gm).cause = s.cause := rfl
@[simp] theorem complete_desc (s : State) (i : Instr) (gm : List (Nat × Nat)) :
    (s.complete i gm).desc = s.desc := rfl
@[simp] theorem complete_launch (s : State) (i : Instr) (gm : List (Nat × Nat)) :
    (s.complete i gm).launch = s.launch := rfl
@[simp] theorem complete_gm (s : State) (i : Instr) (gm : List (Nat × Nat)) :
    (s.complete i gm).gm = gm := rfl
@[simp] theorem complete_dom (s : State) (i : Instr) (gm : List (Nat × Nat)) :
    (s.complete i gm).dom = s.dom := rfl
@[simp] theorem complete_cfg (s : State) (i : Instr) (gm : List (Nat × Nat)) :
    (s.complete i gm).cfg = s.cfg := rfl
@[simp] theorem complete_level (s : State) (i : Instr) (gm : List (Nat × Nat)) :
    (s.complete i gm).level = s.level := rfl
@[simp] theorem complete_sched (s : State) (i : Instr) (gm : List (Nat × Nat)) :
    (s.complete i gm).sched = s.sched := rfl
@[simp] theorem complete_host (s : State) (i : Instr) (gm : List (Nat × Nat)) :
    (s.complete i gm).host = s.host := rfl
@[simp] theorem complete_rdata (s : State) (i : Instr) (gm : List (Nat × Nat)) :
    (s.complete i gm).rdata = s.rdata := rfl
@[simp] theorem complete_edata (s : State) (i : Instr) (gm : List (Nat × Nat)) :
    (s.complete i gm).edata = s.edata := rfl
@[simp] theorem complete_draws (s : State) (i : Instr) (gm : List (Nat × Nat)) :
    (s.complete i gm).draws = s.draws := rfl
@[simp] theorem complete_held (s : State) (i : Instr) (gm : List (Nat × Nat)) :
    (s.complete i gm).held = i :: s.held := rfl
@[simp] theorem complete_run (s : State) (i : Instr) (gm : List (Nat × Nat)) :
    (s.complete i gm).run = s.run := rfl

/-! ### `readRegister` -/

@[simp] theorem readRegister_status (s : State) (k : Nat) : (s.readRegister k).status = s.status := rfl
@[simp] theorem readRegister_cause (s : State) (k : Nat) : (s.readRegister k).cause = s.cause := rfl
@[simp] theorem readRegister_desc (s : State) (k : Nat) : (s.readRegister k).desc = s.desc := rfl
@[simp] theorem readRegister_launch (s : State) (k : Nat) : (s.readRegister k).launch = s.launch := rfl
@[simp] theorem readRegister_gm (s : State) (k : Nat) : (s.readRegister k).gm = s.gm := rfl
@[simp] theorem readRegister_dom (s : State) (k : Nat) : (s.readRegister k).dom = s.dom := rfl
@[simp] theorem readRegister_cfg (s : State) (k : Nat) : (s.readRegister k).cfg = s.cfg := rfl
@[simp] theorem readRegister_level (s : State) (k : Nat) : (s.readRegister k).level = s.level := rfl
@[simp] theorem readRegister_sched (s : State) (k : Nat) : (s.readRegister k).sched = s.sched := rfl
@[simp] theorem readRegister_host (s : State) (k : Nat) : (s.readRegister k).host = s.host := rfl
@[simp] theorem readRegister_rdata (s : State) (k : Nat) : (s.readRegister k).rdata = s.windowRead k := rfl
@[simp] theorem readRegister_edata (s : State) (k : Nat) : (s.readRegister k).edata = s.edata := rfl
@[simp] theorem readRegister_draws (s : State) (k : Nat) : (s.readRegister k).draws = if descIndex ≤ k ∧ s.descWord (k - descIndex) = none then s.draws + 1 else s.draws := rfl
@[simp] theorem readRegister_held (s : State) (k : Nat) : (s.readRegister k).held =
    (if k = statusIndex ∧ s.status = .done then [] else s.held) := rfl
@[simp] theorem readRegister_run (s : State) (k : Nat) : (s.readRegister k).run =
    (if k = statusIndex then s.run.seeing s.status s.gm else s.run) := rfl

/-! ### `hardReset` -/

@[simp] theorem hardReset_status (s : State) : s.hardReset.status = .idle := rfl
@[simp] theorem hardReset_cause (s : State) : s.hardReset.cause = .none := rfl
@[simp] theorem hardReset_desc (s : State) : s.hardReset.desc = Vector.replicate 32 none := rfl
@[simp] theorem hardReset_launch (s : State) : s.hardReset.launch = none := rfl
@[simp] theorem hardReset_gm (s : State) : s.hardReset.gm = gmErase s.gm s.resetLosses := rfl
@[simp] theorem hardReset_dom (s : State) : s.hardReset.dom = s.dom := rfl
@[simp] theorem hardReset_cfg (s : State) : s.hardReset.cfg = s.cfg := rfl
@[simp] theorem hardReset_level (s : State) : s.hardReset.level = s.level := rfl
@[simp] theorem hardReset_sched (s : State) : s.hardReset.sched = s.sched := rfl
@[simp] theorem hardReset_host (s : State) : s.hardReset.host = s.host := rfl
@[simp] theorem hardReset_rdata (s : State) : s.hardReset.rdata = s.rdata := rfl
@[simp] theorem hardReset_edata (s : State) : s.hardReset.edata = s.edata := rfl
@[simp] theorem hardReset_draws (s : State) : s.hardReset.draws = s.draws := rfl
@[simp] theorem hardReset_held (s : State) : s.hardReset.held = [] := rfl
@[simp] theorem hardReset_run (s : State) : s.hardReset.run = .notStarted := rfl

/-! ### `noted` -/

@[simp] theorem noted_status (s : State) (k : Nat) (v : Word) : (s.noted k v).status = s.status := rfl
@[simp] theorem noted_cause (s : State) (k : Nat) (v : Word) : (s.noted k v).cause = s.cause := rfl
@[simp] theorem noted_desc (s : State) (k : Nat) (v : Word) : (s.noted k v).desc = s.desc := rfl
@[simp] theorem noted_launch (s : State) (k : Nat) (v : Word) : (s.noted k v).launch = s.launch := rfl
@[simp] theorem noted_gm (s : State) (k : Nat) (v : Word) : (s.noted k v).gm = s.gm := rfl
@[simp] theorem noted_dom (s : State) (k : Nat) (v : Word) : (s.noted k v).dom = s.dom := rfl
@[simp] theorem noted_cfg (s : State) (k : Nat) (v : Word) : (s.noted k v).cfg = s.cfg := rfl
@[simp] theorem noted_level (s : State) (k : Nat) (v : Word) : (s.noted k v).level = s.level := rfl
@[simp] theorem noted_sched (s : State) (k : Nat) (v : Word) : (s.noted k v).sched = s.sched := rfl
@[simp] theorem noted_host (s : State) (k : Nat) (v : Word) : (s.noted k v).host = s.host := rfl
@[simp] theorem noted_rdata (s : State) (k : Nat) (v : Word) : (s.noted k v).rdata = s.rdata := rfl
@[simp] theorem noted_edata (s : State) (k : Nat) (v : Word) : (s.noted k v).edata = s.edata := rfl
@[simp] theorem noted_draws (s : State) (k : Nat) (v : Word) : (s.noted k v).draws = s.draws := rfl
@[simp] theorem noted_held (s : State) (k : Nat) (v : Word) : (s.noted k v).held = s.held := rfl

theorem noted_run (s : State) (k : Nat) (v : Word) : (s.noted k v).run =
    if k = ctrlIndex ∧ v.getLsbD 0 then s.run.starting (if v.getLsbD 1 then s.clear else s).status else s.run := rfl

/-- A write that is no write of `START` leaves the host's record, and so the whole state, as it is. -/
theorem noted_eq_self {s : State} {k : Nat} {v : Word} (h : ¬(k = ctrlIndex ∧ v.getLsbD 0 = true)) :
    s.noted k v = s := by
  unfold State.noted
  rw [if_neg h]

/-! ### The host's record of its run (60_exceptions.md R279) -/

/-- A run counts as started only by a `START` the sequencer takes up. -/
theorem starting_eq_started {r : HostRun} {q : SeqState} : r.starting q = .started ↔ r ≠ .faulted ∧ q = .idle := by
  cases r <;> cases q <;> simp [HostRun.starting]

theorem starting_eq_faulted {r : HostRun} {q : SeqState} : r.starting q = .faulted ↔ r = .faulted := by
  cases r <;> cases q <;> simp [HostRun.starting]

theorem starting_ne_good {r : HostRun} {q : SeqState} {final : List (Nat × Nat)} : r.starting q ≠ .good final := by
  cases r <;> cases q <;> simp [HostRun.starting]

/-- A run becomes good only by a read of `DONE` after a started command, and keeps the memory of that read. -/
theorem seeing_eq_good {r : HostRun} {q : SeqState} {gm final : List (Nat × Nat)} :
    r.seeing q gm = .good final ↔ r = .started ∧ q = .done ∧ gm = final ∨ r = .good final ∧ q ≠ .fault := by
  cases r <;> cases q <;> simp [HostRun.seeing]

theorem seeing_eq_faulted {r : HostRun} {q : SeqState} {gm : List (Nat × Nat)} :
    r.seeing q gm = .faulted ↔ r = .faulted ∨ q = .fault := by
  cases r <;> cases q <;> simp [HostRun.seeing]

/-- What it is to have a final state: a good run, and no write of `START` still to come. -/
theorem finalMemory_eq_some {s : State} {final : List (Nat × Nat)} :
    s.finalMemory = some final ↔ s.run = .good final ∧ ∀ op ∈ s.host, op.starts s.cfg = false := by
  unfold State.finalMemory
  cases s.run <;> simp [and_comm]

/-! ### `withHost` and `picked` -/

@[simp] theorem withHost_status (s : State) (rest : List HostOp) : (s.withHost rest).status = s.status := rfl
@[simp] theorem withHost_cause (s : State) (rest : List HostOp) : (s.withHost rest).cause = s.cause := rfl
@[simp] theorem withHost_desc (s : State) (rest : List HostOp) : (s.withHost rest).desc = s.desc := rfl
@[simp] theorem withHost_launch (s : State) (rest : List HostOp) : (s.withHost rest).launch = s.launch := rfl
@[simp] theorem withHost_gm (s : State) (rest : List HostOp) : (s.withHost rest).gm = s.gm := rfl
@[simp] theorem withHost_dom (s : State) (rest : List HostOp) : (s.withHost rest).dom = s.dom := rfl
@[simp] theorem withHost_cfg (s : State) (rest : List HostOp) : (s.withHost rest).cfg = s.cfg := rfl
@[simp] theorem withHost_level (s : State) (rest : List HostOp) : (s.withHost rest).level = s.level := rfl
@[simp] theorem withHost_sched (s : State) (rest : List HostOp) : (s.withHost rest).sched = s.sched := rfl
@[simp] theorem withHost_host (s : State) (rest : List HostOp) : (s.withHost rest).host = rest := rfl
@[simp] theorem withHost_rdata (s : State) (rest : List HostOp) : (s.withHost rest).rdata = s.rdata := rfl
@[simp] theorem withHost_edata (s : State) (rest : List HostOp) : (s.withHost rest).edata = s.edata := rfl
@[simp] theorem withHost_draws (s : State) (rest : List HostOp) : (s.withHost rest).draws = s.draws := rfl
@[simp] theorem withHost_held (s : State) (rest : List HostOp) : (s.withHost rest).held = s.held := rfl
@[simp] theorem withHost_run (s : State) (rest : List HostOp) : (s.withHost rest).run = s.run := rfl
@[simp] theorem picked_status (s : State) : s.picked.status = s.status := rfl
@[simp] theorem picked_cause (s : State) : s.picked.cause = s.cause := rfl
@[simp] theorem picked_desc (s : State) : s.picked.desc = s.desc := rfl
@[simp] theorem picked_launch (s : State) : s.picked.launch = s.launch := rfl
@[simp] theorem picked_gm (s : State) : s.picked.gm = s.gm := rfl
@[simp] theorem picked_dom (s : State) : s.picked.dom = s.dom := rfl
@[simp] theorem picked_cfg (s : State) : s.picked.cfg = s.cfg := rfl
@[simp] theorem picked_level (s : State) : s.picked.level = s.level := rfl
@[simp] theorem picked_sched (s : State) : s.picked.sched = s.sched.tail := rfl
@[simp] theorem picked_host (s : State) : s.picked.host = s.host := rfl
@[simp] theorem picked_rdata (s : State) : s.picked.rdata = s.rdata := rfl
@[simp] theorem picked_edata (s : State) : s.picked.edata = s.edata := rfl
@[simp] theorem picked_draws (s : State) : s.picked.draws = s.draws := rfl
@[simp] theorem picked_held (s : State) : s.picked.held = s.held := rfl
@[simp] theorem picked_run (s : State) : s.picked.run = s.run := rfl

/-! ### `clear` and `writeDesc`: what they leave alone -/

theorem clear_eq (s : State) : s.clear = if s.status = .done then { s with status := .idle } else s := by
  unfold State.clear
  split <;> simp_all

theorem clear_status (s : State) : s.clear.status = if s.status = .done then .idle else s.status := by
  rw [clear_eq]
  split <;> simp_all

@[simp] theorem clear_cause (s : State) : s.clear.cause = s.cause := by
  rw [clear_eq]; split <;> rfl

@[simp] theorem clear_desc (s : State) : s.clear.desc = s.desc := by
  rw [clear_eq]; split <;> rfl

@[simp] theorem clear_launch (s : State) : s.clear.launch = s.launch := by
  rw [clear_eq]; split <;> rfl

@[simp] theorem clear_gm (s : State) : s.clear.gm = s.gm := by
  rw [clear_eq]; split <;> rfl

@[simp] theorem clear_dom (s : State) : s.clear.dom = s.dom := by
  rw [clear_eq]; split <;> rfl

@[simp] theorem clear_cfg (s : State) : s.clear.cfg = s.cfg := by
  rw [clear_eq]; split <;> rfl

@[simp] theorem clear_level (s : State) : s.clear.level = s.level := by
  rw [clear_eq]; split <;> rfl

@[simp] theorem clear_sched (s : State) : s.clear.sched = s.sched := by
  rw [clear_eq]; split <;> rfl

@[simp] theorem clear_host (s : State) : s.clear.host = s.host := by
  rw [clear_eq]; split <;> rfl

@[simp] theorem clear_rdata (s : State) : s.clear.rdata = s.rdata := by
  rw [clear_eq]; split <;> rfl

@[simp] theorem clear_edata (s : State) : s.clear.edata = s.edata := by
  rw [clear_eq]; split <;> rfl

@[simp] theorem clear_draws (s : State) : s.clear.draws = s.draws := by
  rw [clear_eq]; split <;> rfl

@[simp] theorem clear_held (s : State) : s.clear.held = s.held := by
  rw [clear_eq]; split <;> rfl

@[simp] theorem clear_run (s : State) : s.clear.run = s.run := by
  rw [clear_eq]; split <;> rfl

theorem writeDesc_desc (s : State) (i : Nat) (v : Word) :
    (s.writeDesc i v).desc = if s.acceptsWrites then s.desc.setIfInBounds i (some v) else s.desc := by
  unfold State.writeDesc; split <;> rfl

@[simp] theorem writeDesc_status (s : State) (i : Nat) (v : Word) : (s.writeDesc i v).status = s.status := by
  unfold State.writeDesc; split <;> rfl

@[simp] theorem writeDesc_cause (s : State) (i : Nat) (v : Word) : (s.writeDesc i v).cause = s.cause := by
  unfold State.writeDesc; split <;> rfl

@[simp] theorem writeDesc_launch (s : State) (i : Nat) (v : Word) : (s.writeDesc i v).launch = s.launch := by
  unfold State.writeDesc; split <;> rfl

@[simp] theorem writeDesc_gm (s : State) (i : Nat) (v : Word) : (s.writeDesc i v).gm = s.gm := by
  unfold State.writeDesc; split <;> rfl

@[simp] theorem writeDesc_dom (s : State) (i : Nat) (v : Word) : (s.writeDesc i v).dom = s.dom := by
  unfold State.writeDesc; split <;> rfl

@[simp] theorem writeDesc_cfg (s : State) (i : Nat) (v : Word) : (s.writeDesc i v).cfg = s.cfg := by
  unfold State.writeDesc; split <;> rfl

@[simp] theorem writeDesc_level (s : State) (i : Nat) (v : Word) : (s.writeDesc i v).level = s.level := by
  unfold State.writeDesc; split <;> rfl

@[simp] theorem writeDesc_sched (s : State) (i : Nat) (v : Word) : (s.writeDesc i v).sched = s.sched := by
  unfold State.writeDesc; split <;> rfl

@[simp] theorem writeDesc_host (s : State) (i : Nat) (v : Word) : (s.writeDesc i v).host = s.host := by
  unfold State.writeDesc; split <;> rfl

@[simp] theorem writeDesc_rdata (s : State) (i : Nat) (v : Word) : (s.writeDesc i v).rdata = s.rdata := by
  unfold State.writeDesc; split <;> rfl

@[simp] theorem writeDesc_edata (s : State) (i : Nat) (v : Word) : (s.writeDesc i v).edata = s.edata := by
  unfold State.writeDesc; split <;> rfl

@[simp] theorem writeDesc_draws (s : State) (i : Nat) (v : Word) : (s.writeDesc i v).draws = s.draws := by
  unfold State.writeDesc; split <;> rfl

@[simp] theorem writeDesc_held (s : State) (i : Nat) (v : Word) : (s.writeDesc i v).held = s.held := by
  unfold State.writeDesc; split <;> rfl

@[simp] theorem writeDesc_run (s : State) (i : Nat) (v : Word) : (s.writeDesc i v).run = s.run := by
  unfold State.writeDesc; split <;> rfl

end Sys2Proof.Machine
end

