-- ==== Sys2Proof/Laws/Launch.lean ====
section
/-! SUPPORT. What `START` of a decoded command can do, said once (60_exceptions.md R252, R256, R271). -/

namespace Sys2Proof.Machine

/-- The admission check passes exactly when all four tests do (60_exceptions.md R252 steps 4 to 7). -/
theorem admission_eq_none_iff (s : State) (r : Request) :
    admission s r = none ↔
      r.paramsOk = true ∧ (∀ a ∈ r.reads ++ r.writes, addrOk s.dom a = true) ∧
        (∀ a ∈ r.writes, a ∉ r.others) ∧ ∀ a ∈ r.reads, (gmRead s.gm a).isSome = true := by
  cases hp : r.paramsOk
  · simp [admission, hp]
  · by_cases h1 : ∀ a ∈ r.reads ++ r.writes, addrOk s.dom a = true
    · have h1' : (r.reads ++ r.writes).all (addrOk s.dom) = true := List.all_eq_true.2 h1
      by_cases h2 : ∀ a ∈ r.writes, a ∉ r.others
      · have h2' : r.writes.any r.others.contains = false := by
          simpa [List.any_eq_false] using h2
        by_cases h3 : ∀ a ∈ r.reads, (gmRead s.gm a).isSome = true
        · have h3' : r.reads.all (fun a => (gmRead s.gm a).isSome) = true := List.all_eq_true.2 h3
          rw [admission, hp, h1', h2', h3']
          simp only [Bool.not_true, Bool.false_eq_true, if_false, true_and, true_iff]
          exact ⟨h1, h2, h3⟩
        · have h3' : r.reads.all (fun a => (gmRead s.gm a).isSome) = false := by
            rw [Bool.eq_false_iff]; exact fun h => h3 (List.all_eq_true.1 h)
          rw [admission, hp, h1', h2', h3']
          simp [h3]
      · have h2' : r.writes.any r.others.contains = true := by
          simpa [List.any_eq_true] using h2
        rw [admission, hp, h1', h2']
        simp [h2]
    · have h1' : (r.reads ++ r.writes).all (addrOk s.dom) = false := by
        rw [Bool.eq_false_iff]; exact fun h => h1 (List.all_eq_true.1 h)
      rw [admission, hp, h1']
      simp only [Bool.not_true, Bool.not_false, Bool.false_eq_true, if_false, if_true, reduceCtorEq, true_and,
        false_iff, not_and]
      exact fun h => absurd h h1

/-- Admission names one of the four codes of its own tests. -/
theorem admission_code {s : State} {r : Request} {code : FaultCode} (h : admission s r = some code) :
    code ≠ .none := by
  unfold admission at h
  split at h
  · cases h; decide
  · split at h
    · cases h; decide
    · split at h
      · cases h; decide
      · split at h
        · cases h; decide
        · cases h

/-- `START` of a command always answers a next state, one of four (60_exceptions.md R271). -/
theorem startLaunch_cases (r : Request) (l : Launch) (gm : List (Nat × Nat)) (s : State) :
    (s.status ≠ .idle ∧ startLaunch r l gm s = .next s) ∨
    (s.status = .idle ∧ ∃ code, admission s r = some code ∧ startLaunch r l gm s = .next (s.enterFault code)) ∨
    (s.status = .idle ∧ admission s r = none ∧ s.level = .lane ∧ startLaunch r l gm s = .next (s.enterBusy l)) ∨
    (s.status = .idle ∧ admission s r = none ∧ s.level = .functional ∧
      startLaunch r l gm s = .next (s.complete l.command gm)) := by
  unfold startLaunch
  cases hs : s.status
  · cases ha : admission s r with
    | some code => exact .inr (.inl ⟨rfl, code, rfl, rfl⟩)
    | none =>
      cases hl : s.level
      · exact .inr (.inr (.inr ⟨rfl, rfl, rfl, rfl⟩))
      · exact .inr (.inr (.inl ⟨rfl, rfl, rfl, rfl⟩))
  all_goals exact .inl ⟨by simp, rfl⟩

theorem startLaunch_functional {r : Request} {l : Launch} {gm : List (Nat × Nat)} {s : State}
    (hs : s.status = .idle) (hl : s.level = .functional) (ha : admission s r = none) :
    startLaunch r l gm s = .next (s.complete l.command gm) := by
  simp [startLaunch, hs, hl, ha]

theorem startLaunch_lane {r : Request} {l : Launch} {gm : List (Nat × Nat)} {s : State}
    (hs : s.status = .idle) (hl : s.level = .lane) (ha : admission s r = none) :
    startLaunch r l gm s = .next (s.enterBusy l) := by
  simp [startLaunch, hs, hl, ha]

end Sys2Proof.Machine
end

