-- ==== Sys2Proof/Laws/PerInstr.lean ====
section
/-! SUPPORT. One statement per command about its form: the number of descriptor words it takes and its word 0
(30_encoding.md R100, R102). -/

namespace Sys2Proof.Laws.CommandWords

/-- The command's words number 14, 4 + `FIELD_WORDS` or 21, and word 0 is its opcode word. -/
def Statement (i : Instr) : Prop :=
  ∀ c : Params, i.WellFormed c →
    (encode i).length = (match i with | .nttStage _ => 14 | .scalarMul _ => 4 + c.fieldWords | .lookupEval _ => 21) ∧
    (encode i).head? = some (match i with | .nttStage _ => 1 | .scalarMul _ => 2 | .lookupEval _ => 3)

theorem nttStage (o : NttOperands) : Statement (.nttStage o) := fun _ _ => ⟨rfl, rfl⟩

theorem scalarMul (o : ScalarOperands) : Statement (.scalarMul o) := fun c h => by
  refine ⟨?_, rfl⟩
  have h : o.scalar.length = c.fieldWords := h
  simp [encode, h]; omega

theorem lookupEval (o : LookupOperands) : Statement (.lookupEval o) := fun _ _ => ⟨rfl, rfl⟩

end Sys2Proof.Laws.CommandWords
end

