-- ==== Sys2Proof/Laws/Step.lean ====
section
/-! SUPPORT. What a step can be, said once: with no launch in flight the host's, or nothing; with one, a move of a
lane, a barrier, the sequencer or the host (10_state.md R20 to R22). -/

namespace Sys2Proof.Machine

theorem outcomeOf_eq_next {r : Except Fault State} {t : State} (h : outcomeOf r = .next t) : r = .ok t := by
  cases r with
  | ok s => simpa [outcomeOf] using h
  | error f => simp [outcomeOf] at h

theorem hostMove_eq_some {s : State} {o : Host.Outcome State Fault Refusal} (h : hostMove s = some o) :
    ∃ op rest, s.host = op :: rest ∧ hostPerform op (s.withHost rest) = o := by
  unfold hostMove at h
  split at h
  · cases h
  · rename_i op rest he
    exact ⟨op, rest, he, by simpa using h⟩

/-- With no launch in flight a step is the host's next operation, or none if it has nothing to do. -/
theorem step_quiet {s t : State} (hl : s.launch = none) (h : step s = .next t) :
    (s.host = [] ∧ t = s) ∨ ∃ op rest, s.host = op :: rest ∧ hostPerform op (s.withHost rest) = .next t := by
  simp only [step, hl, quietStep] at h
  cases hm : hostMove s with
  | none =>
    rw [hm] at h
    cases hh : s.host with
    | nil => exact .inl ⟨rfl, by simpa using h.symm⟩
    | cons op rest => simp [hostMove, hh] at hm
  | some o =>
    rw [hm] at h
    obtain ⟨op, rest, h1, h2⟩ := hostMove_eq_some hm
    exact .inr ⟨op, rest, h1, h2.trans h⟩

/-- With a launch in flight a step that answers a next state is a lane's or a barrier's move, the end of the launch,
or the host's next operation. -/
theorem step_busy {s t : State} {l : Launch} (hl : s.launch = some l) (h : step s = .next t) :
    (.ok t ∈ laneMoves s.picked l) ∨ (launchEnded l = true ∧ t = s.picked.endLaunch) ∨
      ∃ op rest, s.host = op :: rest ∧ hostPerform op (s.picked.withHost rest) = .next t := by
  rw [step, hl] at h
  unfold busyStep at h
  simp only at h
  split at h
  · rename_i o ho
    subst h
    have hm := List.mem_of_getElem? ho
    simp only [busyMoves, List.mem_append, List.mem_map, Option.mem_toList] at hm
    rcases hm with ⟨r, hr, he⟩ | hm
    · have hr' := outcomeOf_eq_next he
      subst hr'
      rcases hr with hr | hr
      · exact .inl hr
      · unfold finishMoves at hr
        split at hr
        · simp at hr; exact .inr (.inl ⟨‹_›, hr⟩)
        · simp at hr
    · obtain ⟨op, rest, h1, h2⟩ := hostMove_eq_some hm
      exact .inr (.inr ⟨op, rest, h1, h2⟩)
  · simp at h

/-- With a launch in flight and nothing for the host to do, a step is one of the enabled moves of lanes, barriers and
sequencer, whichever is picked. -/
theorem step_alone {s : State} {l : Launch} (hl : s.launch = some l) (hh : s.host = [])
    (hne : laneMoves s.picked l ++ finishMoves s.picked l ≠ []) :
    ∃ r ∈ laneMoves s.picked l ++ finishMoves s.picked l, step s = outcomeOf r := by
  have hm : busyMoves s.picked l = (laneMoves s.picked l ++ finishMoves s.picked l).map outcomeOf := by
    simp [busyMoves, hostMove, State.picked, hh]
  simp only [step, hl, busyStep, hm, List.length_map, List.getElem?_map]
  have hlt : pickOf s (laneMoves s.picked l ++ finishMoves s.picked l).length <
      (laneMoves s.picked l ++ finishMoves s.picked l).length := Nat.mod_lt _ (List.length_pos_iff.2 hne)
  rw [List.getElem?_eq_getElem hlt]
  exact ⟨_, List.getElem_mem hlt, rfl⟩

theorem runSteps_succ (k : Nat) (s : State) : runSteps (k + 1) s =
    match step s with | .next t => runSteps k t | .fault f => .fault f | .refused r => .refused r := rfl

/-- One more step at the end of a run. -/
theorem runSteps_snoc {k : Nat} {s t : State} (h : runSteps k s = .next t) : runSteps (k + 1) s = step t := by
  induction k generalizing s with
  | zero => cases h; rw [runSteps_succ]; cases h : step t <;> simp [runSteps]
  | succ k ih =>
    rw [runSteps_succ] at h ⊢
    split at h
    · exact ih h
    · cases h
    · cases h

/-- A run that counts down: while `μ` is not 0 a step goes to the next state, keeps `J` and takes one off `μ`. -/
theorem runSteps_countdown {J : State → Prop} {μ : State → Nat}
    (hstep : ∀ s, J s → 0 < μ s → ∃ t, step s = .next t ∧ J t ∧ μ t + 1 = μ s) {s : State} (h : J s) :
    ∃ t, runSteps (μ s) s = .next t ∧ J t ∧ μ t = 0 := by
  generalize hn : μ s = n
  induction n generalizing s with
  | zero => exact ⟨s, rfl, h, hn⟩
  | succ n ih =>
    obtain ⟨t, h1, h2, h3⟩ := hstep s h (by omega)
    obtain ⟨u, h4, h5⟩ := ih h2 (by omega)
    exact ⟨u, by rw [runSteps_succ, h1]; exact h4, h5⟩

end Sys2Proof.Machine
end

