-- ==== Sys2Proof/Tests/Slice0.lean ====
section
/-! SUPPORT. Tests whose expected values are the vectors of 95_test_vectors.md (V-...), the WellFormed smoke test, and
a witness for every statement that has hypotheses. -/

namespace Sys2Proof.Tests

open Sys2Proof.Machine

/-! ### Test states: the memory map of 95_test_vectors.md section 3 -/

/-- Cells from `base` on, with the values listed. -/
def cells (base : Nat) (vs : List Nat) : List (Nat × Nat) := vs.zipIdx.map fun v => (base + v.2, v.1)

/-- `IDLE`, functional level, with the allocation of programs P1 and P2 and the data listed. -/
def idleWith (gm : List (Nat × Nat)) : State :=
  { State.reset with
    level := .functional
    dom := [⟨0x100, 0x108⟩, ⟨0x200, 0x208⟩, ⟨0x300, 0x304⟩, ⟨0x380, 0x388⟩, ⟨0x400, 0x404⟩]
    gm := gm }

def xCells : List (Nat × Nat) := cells 0x100 [1, 2, 3, 4, 5, 6, 7, 8]
def pq2Cells : List (Nat × Nat) := cells 0x300 [1, 4, 16, 13]
def pq3Cells : List (Nat × Nat) := cells 0x380 [1, 2, 4, 8, 16, 15, 13, 9]
def omCells : List (Nat × Nat) := cells 0x400 [2, 4, 16, 1]

/-- The start state of V-N1 and of program P1. -/
def nttStart : State := idleWith (xCells ++ pq2Cells ++ pq3Cells ++ omCells)

/-- The same at the lane level. -/
def nttLaneStart : State := { nttStart with level := .lane }

/-- V-N1: one launch, `deg = 3`. -/
def n1 : NttOperands :=
  { x := 0x100, y := 0x200, pq := 0x380, om := 0x400, scratchLen := 8, n := 8, lgp := 0, deg := 3, maxDeg := 3 }

/-- V-N2 stage A, line 1 of program P1. -/
def n2a : NttOperands :=
  { x := 0x100, y := 0x200, pq := 0x300, om := 0x400, scratchLen := 4, n := 8, lgp := 0, deg := 2, maxDeg := 2 }

/-- V-N2 stage B, line 2 of program P1. -/
def n2b : NttOperands :=
  { x := 0x200, y := 0x100, pq := 0x300, om := 0x400, scratchLen := 2, n := 8, lgp := 2, deg := 1, maxDeg := 2 }

/-- V-M1. -/
def m1 : ScalarOperands := { el := 0x100, n := 8, scalar := [3] }

/-- Line 1 of program P3. -/
def l3 : LookupOperands :=
  { val := 0x1000, tab := 0x1100, pic := 0x1200, ptc := 0x1300, prd := 0x1400, l0 := 0x1500, ll := 0x1600,
    la := 0x1700, ch := 0x1800, rotScale := 1, size := 8 }

/-- V-L6: the same arrays with `size = 2`. -/
def l6 : LookupOperands := { l3 with size := 2 }

def lookupDom : List Region :=
  [⟨0x1000, 0x1008⟩, ⟨0x1100, 0x1108⟩, ⟨0x1200, 0x1208⟩, ⟨0x1300, 0x1308⟩, ⟨0x1400, 0x1408⟩, ⟨0x1500, 0x1508⟩,
    ⟨0x1600, 0x1608⟩, ⟨0x1700, 0x1708⟩, ⟨0x1800, 0x1803⟩]

/-- The start state of V-L3. -/
def l3Start : State :=
  { idleWith (cells 0x1000 [3, 0, 16, 5, 9, 1, 12, 7] ++ cells 0x1100 [2, 11, 5, 0, 8, 13, 1, 6] ++
      cells 0x1200 [1, 5, 5, 8, 2, 14, 3, 10] ++ cells 0x1300 [1, 4, 5, 7, 2, 16, 9, 10] ++
      cells 0x1400 [1, 6, 12, 3, 15, 9, 4, 1] ++ cells 0x1500 [1, 0, 0, 0, 0, 0, 0, 0] ++
      cells 0x1600 [0, 0, 0, 0, 0, 0, 1, 0] ++ cells 0x1700 [1, 1, 1, 1, 1, 1, 0, 0] ++
      cells 0x1800 [7, 3, 5]) with dom := lookupDom }

/-- The start state of V-L6. -/
def l6Start : State :=
  { idleWith (cells 0x1000 [5, 6] ++ cells 0x1100 [2, 3] ++ cells 0x1200 [7, 8] ++ cells 0x1300 [9, 10] ++
      cells 0x1400 [11, 12] ++ cells 0x1500 [1, 0] ++ cells 0x1600 [0, 1] ++ cells 0x1700 [1, 1] ++
      cells 0x1800 [3, 4, 5]) with dom := lookupDom }

/-- The state an outcome leaves; the state before if it stops. -/
def after (s : State) : Host.Outcome State Fault Refusal → State
  | .next t => t
  | .fault _ => s
  | .refused _ => s

/-- Status, code and `len` cells from `base` of the state `exec` leaves. -/
def result (i : Instr) (s : State) (base len : Nat) : SeqState × FaultCode × List (Option Nat) :=
  let t := after s (exec i s)
  (t.status, t.cause, (List.range len).map fun k => gmRead t.gm (base + k))

/-- What a faulted launch answers: the code, memory as before, no lane. -/
def faultOf (i : Instr) (s : State) : Option FaultCode :=
  let t := after s (exec i s)
  if t.status = .fault ∧ t.gm = s.gm ∧ t.launch = none then some t.cause else none

/-! ### Form -/

/-- The parameters of `TOY17` are an implementation; each range of R7 broken once is none. -/
theorem test_params_checks :
    Config.toy17.Ok ∧ ¬({ Config.toy17 with pMod := 1 } : Params).Ok ∧
    ¬({ Config.toy17 with fieldWords := 0 } : Params).Ok ∧ ¬({ Config.toy17 with fieldWords := 29 } : Params).Ok ∧
    ¬({ Config.toy17 with lgScratch := 0 } : Params).Ok ∧ ¬({ Config.toy17 with lgScratch := 32 } : Params).Ok ∧
    ¬({ Config.toy17 with lgLanesMax := 31 } : Params).Ok ∧
    ¬({ Config.toy17 with pMod := 2 ^ 32 + 1 } : Params).Ok := by decide

/-- A scalar of no word or of two words is not well-formed where `FIELD_WORDS = 1`; one word is. -/
theorem test_ill_formed_scalar :
    ¬(Instr.scalarMul { m1 with scalar := [] }).WellFormed Config.toy17 ∧
    ¬(Instr.scalarMul { m1 with scalar := [3, 0] }).WellFormed Config.toy17 ∧
    (Instr.scalarMul m1).WellFormed Config.toy17 := by decide

/-! ### Decoding: words written out from 30_encoding.md and from the programs of 95_test_vectors.md -/

/-- Launch 1 of program P1. -/
theorem test_decode_ntt_stage :
    decode 1 ([0x00000001, 0x00000100, 0, 0x00000200, 0, 0x00000300, 0, 0x00000400, 0, 4, 8, 0, 2, 2].map some) =
      .ok (.nttStage n2a) := by rfl

/-- The high word of an address is bits 63:32 (R106); the words of `Y`, `PQ` and `OM` follow in the same order. -/
theorem test_decode_ntt_address_words :
    decode 1 ([0x00000001, 1, 2, 3, 4, 5, 6, 7, 8, 9, 10, 11, 12, 13].map some) =
      .ok (.nttStage { x := 0x0000000200000001, y := 0x0000000400000003, pq := 0x0000000600000005,
                       om := 0x0000000800000007, scratchLen := 9, n := 10, lgp := 11, deg := 12, maxDeg := 13 }) := by
  rfl

/-- `SCALAR_MUL` with two scalar words, the less significant first (R104, R107). -/
theorem test_decode_scalar_mul :
    decode 2 ([0x00000002, 0x00000200, 0x00000001, 8, 0x0000000F, 0x00000007].map some) =
      .ok (.scalarMul { el := 0x0000000100000200, n := 8, scalar := [15, 7] }) ∧
    patternOf [15, 7] = 7 * 2 ^ 32 + 15 := by
  exact ⟨rfl, by decide⟩

/-- Every word of Format L in its place (R105). -/
theorem test_decode_lookup_eval :
    decode 1 ([0x00000003, 1, 2, 3, 4, 5, 6, 7, 8, 9, 10, 11, 12, 13, 14, 15, 16, 17, 18, 19, 20].map some) =
      .ok (.lookupEval { val := 0x0000000200000001, tab := 0x0000000400000003, pic := 0x0000000600000005,
                         ptc := 0x0000000800000007, prd := 0x0000000A00000009, l0 := 0x0000000C0000000B,
                         ll := 0x0000000E0000000D, la := 0x000000100000000F, ch := 0x0000001200000011,
                         rotScale := 19, size := 20 }) := by
  rfl

/-- V-F1 to V-F3, and a missing last word (V-F4): `DESC[0]` decides before the other words are looked at (V-F28). -/
theorem test_decode_rejects :
    decode 1 [some 0x00000000, none] = .error .illegalOpcode ∧ decode 1 [some 0x00000004] = .error .illegalOpcode ∧
    decode 1 [some 0x000000FF] = .error .illegalOpcode ∧ decode 1 [some 0x00000101] = .error .illegalOpcode ∧
    decode 1 ([0x00000001, 0x100, 0, 0x200, 0, 0x300, 0, 0x400, 0, 4, 8, 0, 2].map some ++ [none]) =
      .error .unwritten := ⟨rfl, rfl, rfl, rfl, rfl⟩

/-- The three rows of the opcode table, all other bits zero. -/
theorem test_table_words :
    (match decodeTableWord 32 1 with | some (.nttStage o) => o.n == 0 && o.x == 0 | _ => false) = true ∧
    decodeTableWord 32 2 = some (.scalarMul { el := 0, n := 0, scalar := [0] }) ∧
    (match decodeTableWord 672 3 with | some (.lookupEval o) => o.size == 0 && o.ch == 0 | _ => false) = true ∧
    decodeTableWord 32 4 = none := by decide

/-- The next step after placing a row's words runs that row: two zero-parameter launches are refused with `BAD_PARAM`,
and `SCALAR_MUL` with `n = 0` is admitted (V-M3). -/
theorem test_fetch_word_runs :
    (after State.reset (step (State.reset.withFetchWord 448 1))).cause = .badParam ∧
    (after State.reset (step (State.reset.withFetchWord 160 2))).status = .busy ∧
    (after State.reset (step (State.reset.withFetchWord 672 3))).cause = .badParam ∧
    (after State.reset (step (State.reset.withFetchWord 32 4))).cause = .illegalOpcode := by decide

/-! ### Field and index arithmetic -/

/-- V-A1 to V-A4. -/
theorem test_field_vectors :
    fadd 17 9 8 = 0 ∧ fadd 17 16 16 = 15 ∧ fsub 17 3 5 = 15 ∧ fsub 17 0 1 = 16 ∧ fsub 17 5 3 = 2 ∧
    fmul 17 4 13 = 1 ∧ fmul 17 13 13 = 16 ∧ fsqr 17 6 = 2 ∧ fsqr 17 16 = 1 := by decide

/-- V-A6. -/
theorem test_bitreverse :
    (List.range 8).map (bitreverse · 3) = [0, 4, 2, 6, 1, 5, 3, 7] ∧
    (List.range 4).map (bitreverse · 2) = [0, 2, 1, 3] ∧ bitreverse 5 4 = 10 ∧ bitreverse 1 4 = 8 := by decide

/-- V-P1: value and cells read, for `e` in 0 to 7; V-P2. -/
theorem test_pow_lookup :
    (upTo 8).map (powLookup 17 omCells 0x400) = [1, 2, 4, 8, 16, 15, 13, 9] ∧
    (upTo 8).map powReads = [[], [0], [1], [0, 1], [2], [0, 2], [1, 2], [0, 1, 2]] ∧
    powLookup 17 (cells 0 [3, 5, 7]) 0 5 = 4 ∧ powLookup 17 (cells 0 [3, 5, 7]) 0 6 = 1 := by decide

/-- V-S7 and the other two values of the same lanes. -/
theorem test_rotation : lookupNext l3 7 = 0 ∧ lookupPrev l3 0 = 7 ∧ lookupPrev l3 7 = 6 ∧ lookupNext l3 0 = 1 := by
  decide

/-- `TOY17`: 16 is carried as 16, and 17 denotes no element (R8). -/
theorem test_toy_carriage :
    fieldDec Config.toy17 [16] = some 16 ∧ fieldDec Config.toy17 [17] = none ∧ fieldEnc Config.toy17 16 = [16] := by
  decide

/-! ### `NTT_STAGE` -/

/-- V-N1: the buffer after staging and after each round, and the result. -/
theorem test_ntt_rounds :
    let r := groupRound 17 n1 nttStart.gm
    let u := groupStaged 17 n1 nttStart.gm 0
    u = [1, 2, 3, 4, 5, 6, 7, 8] ∧ r u 0 = [6, 8, 10, 12, 13, 9, 1, 2] ∧
    r (r u 0) 1 = [16, 3, 13, 1, 14, 11, 12, 11] ∧ r (r (r u 0) 1) 2 = [2, 13, 14, 12, 8, 3, 6, 1] := by decide

theorem test_ntt_single_launch :
    result (.nttStage n1) nttStart 0x200 8 =
      (.done, .none, [2, 8, 14, 6, 13, 3, 12, 1].map some) := by decide

/-- V-N2: stage A with the sparse tables of V-N12 (only `pq[1]` holds a value and `omegas` is not allocated), then
stage B, reading two entries of `omegas`. -/
theorem test_ntt_two_stages :
    result (.nttStage n2a) { idleWith (xCells ++ [(0x301, 4)]) with dom := [⟨0x100, 0x108⟩, ⟨0x200, 0x208⟩, ⟨0x300, 0x304⟩] }
        0x200 8 = (.done, .none, [16, 14, 13, 12, 3, 14, 13, 12].map some) ∧
    result (.nttStage n2b) (idleWith (cells 0x200 [16, 14, 13, 12, 3, 14, 13, 12] ++ cells 0x400 [2, 4])) 0x100 8 =
      (.done, .none, [2, 8, 14, 6, 13, 3, 12, 1].map some) := by decide

/-- V-N8: the last group of each table. -/
theorem test_ntt_addressing :
    let o : NttOperands := { n1 with x := 0, y := 0, n := 32, lgp := 2, deg := 3 }
    let q : NttOperands := { n1 with x := 0, y := 0, n := 32, lgp := 1, deg := 2 }
    (upTo 8).map (fun i => (nttSource o 3 i).toNat) = [3, 7, 11, 15, 19, 23, 27, 31] ∧
    (upTo 8).map (nttStoreAddr o 3) = [3, 19, 11, 27, 7, 23, 15, 31] ∧
    nttK q 7 = 1 ∧ nttExponent q 1 = 4 ∧ (upTo 4).map (nttStoreAddr q 7) = [25, 29, 27, 31] ∧
    nttOmegaCells q = [0x402] := by decide

/-- V-N10: four lanes of two elements each, and the cells lane 1 scatters from and to. -/
theorem test_ntt_lanes :
    nttLgl Config.toy17 n1 = 2 ∧ nttCounts Config.toy17 n1 1 = 2 ∧ nttCounte Config.toy17 n1 1 = 4 ∧
    nttReverse n1 1 = 4 ∧ nttReverse n1 5 = 5 ∧
    (pairLow (nttBit n1 1) 1, pairHigh (nttBit n1 1) 1, pqIndex (pairDi (nttBit n1 1) 1) 1 0) = (1, 3, 2) := by decide

/-- V-N11: lane 1 starts its ladder at `twiddle^2 = 4`. -/
theorem test_ntt_ladder_start :
    (match nttLaneStep nttLaneStart { n2a with lgp := 1 } (newNttGroup Config.toy17 n2a 1)
        { newNttLane 1 with progress := .seed .ladder, twiddle := some 2, counts := some 2 } with
      | .ok r => (r.lane.tmp, r.lane.progress)
      | .error _ => (none, .ended)) = (some 4, .stage 2 .load) := by decide

/-! ### `SCALAR_MUL` and `LOOKUP_EVAL` -/

/-- V-M1. -/
theorem test_scalar_mul :
    result (.scalarMul m1) nttStart 0x100 8 = (.done, .none, [3, 6, 9, 12, 15, 1, 4, 7].map some) := by decide

/-- V-M3: `n = 3` leaves the fourth cell, which need not hold a value. -/
theorem test_scalar_mul_three :
    result (.scalarMul { el := 0x100, n := 3, scalar := [2] }) (idleWith (cells 0x100 [1, 2, 3])) 0x100 4 =
      (.done, .none, [some 2, some 4, some 6, none]) := by decide

/-- V-L3. -/
theorem test_lookup_eval :
    result (.lookupEval l3) l3Start 0x1000 8 = (.done, .none, [4, 6, 3, 8, 15, 0, 15, 9].map some) := by decide

/-- V-L6: every term nonzero, and the terms of lane 0. -/
theorem test_lookup_eval_two_rows :
    result (.lookupEval l6) l6Start 0x1000 2 = (.done, .none, [some 5, some 8]) ∧
    lookupTerm1 17 1 11 = 7 ∧ lookupTerm3 17 1 7 4 9 5 12 11 2 = 7 ∧ lookupTerm4 17 1 7 9 = 15 ∧
    lookupTerm5 17 1 7 9 8 = 2 := by decide

/-! ### Sequencer and registers -/

/-- V-Q1: reads after reset of `STATUS`, `FAULT_CAUSE`, `CTRL` and a reserved word. -/
theorem test_reset_reads : [1, 2, 0, 3].map State.reset.windowRead = [0, 0, 0, 0] := by decide

/-- V-Q2: `START` with nothing in `DESC`. -/
theorem test_start_without_descriptor :
    let t := after State.reset (State.reset.writeCtrl 1)
    t.windowRead 1 = 3 ∧ t.windowRead 2 = 1 := by decide

/-- V-Q3: `START` alone in `DONE` is ignored, `CLEAR` gives `IDLE`, both run admission. -/
theorem test_done_writes :
    let d : State := { State.reset with status := .done }
    (after d (d.writeCtrl 1)).status = .done ∧ (after d (d.writeCtrl 2)).status = .idle ∧
    (after d (d.writeCtrl 3)).status = .fault := by decide

/-- V-Q4 and V-Q5: writes in `FAULT` and in `BUSY` are ignored. -/
theorem test_ignored_writes :
    let f : State := State.reset.enterFault .overlap
    let b : State := { State.reset with status := .busy }
    after State.reset (f.writeCtrl 3) = f ∧ f.writeDesc 0 1 = f ∧ b.writeDesc 10 16 = b ∧
    after State.reset (b.writeCtrl 1) = b := by decide

/-- V-F5 to V-F11 and V-F17, each one parameter away from V-N2 stage A. -/
theorem test_ntt_bad_param :
    [{ n2a with n := 6 }, { n2a with n := 1 }, { n2a with n := 0 }, { n2a with deg := 0 },
      { n2a with deg := 3, scratchLen := 8 }, { n2a with lgp := 2 }, { n2a with scratchLen := 3 },
      { n2a with n := 16, deg := 4, maxDeg := 4, scratchLen := 16 }, { n2a with maxDeg := 32 }].map
        (fun o => faultOf (.nttStage o) nttStart) = List.replicate 9 (some .badParam) := by decide

/-- V-F12 to V-F16 and V-F18. -/
theorem test_other_bad_param :
    [((8, 0) : U32 × U32), (1, 0), (1, 1), (8, 3), (8, 8), (8, 16), (6, 2), (0, 1)].map
        (fun v => faultOf (.lookupEval { l3 with size := v.1, rotScale := v.2 }) l3Start) =
      List.replicate 8 (some .badParam) ∧
    faultOf (.scalarMul { m1 with scalar := [17] }) nttStart = some .badParam := by decide

/-- V-F19 to V-F23, V-F25 and V-F27. -/
theorem test_ntt_memory_faults :
    faultOf (.nttStage n2a) { nttStart with dom := [⟨0x100, 0x108⟩, ⟨0x200, 0x207⟩, ⟨0x300, 0x304⟩] } =
      some .outOfRange ∧
    faultOf (.nttStage n2a) { nttStart with dom := [⟨0x100, 0x108⟩, ⟨0x200, 0x208⟩, ⟨0x302, 0x304⟩] } =
      some .outOfRange ∧
    faultOf (.scalarMul { m1 with el := 0xFFFFFFFFFFFFFFFC })
      { nttStart with dom := [⟨2 ^ 64 - 4, 2 ^ 64⟩] } = some .outOfRange ∧
    faultOf (.nttStage { n2a with y := 0x100 }) nttStart = some .overlap ∧
    faultOf (.nttStage { n2a with y := 0x2FA })
      { nttStart with dom := [⟨0x100, 0x108⟩, ⟨0x2FA, 0x308⟩] } = some .overlap ∧
    faultOf (.nttStage n2a) (idleWith (xCells.filter (·.1 ≠ 0x105) ++ pq2Cells)) = some .uninitRead ∧
    faultOf (.nttStage n2a) (idleWith (xCells ++ [(0x300, 1)])) = some .uninitRead := by decide

/-- V-F24 and V-F26. -/
theorem test_lookup_memory_faults :
    faultOf (.lookupEval { l3 with val := 0x1400 }) l3Start = some .overlap ∧
    faultOf (.lookupEval l3) { l3Start with gm := l3Start.gm.filter (·.1 ≠ 0x1002) } = some .uninitRead := by decide

/-- V-F28: the order of the tests. -/
theorem test_fault_priority :
    faultOf (.nttStage { n2a with n := 6, y := 0x100 }) nttStart = some .badParam ∧
    faultOf (.nttStage { n2a with y := 0x100 }) { nttStart with dom := [⟨0x100, 0x107⟩, ⟨0x300, 0x304⟩] } =
      some .outOfRange ∧
    faultOf (.nttStage { n2a with y := 0x100 }) (idleWith (xCells.filter (·.1 ≠ 0x105) ++ pq2Cells)) =
      some .overlap := by decide

/-- The last paragraph of 95_test_vectors.md section 2.7: no faults. `y = pq - 7` and `x = pq`. -/
theorem test_no_faults :
    faultOf (.nttStage { n2a with y := 0x2F9 })
      { nttStart with dom := [⟨0x100, 0x108⟩, ⟨0x2F9, 0x304⟩] } = none ∧
    faultOf (.nttStage { n2a with pq := 0x100 }) nttStart = none := by decide

/-- V-R2: reset during `BUSY` of V-N1 takes the values of the write footprint, and nothing else. -/
theorem test_reset_in_busy :
    let b := after nttLaneStart (exec (.nttStage n1) { nttLaneStart with gm := (0x0FF, 3) :: nttStart.gm })
    b.status = .busy ∧ b.hardReset.status = .idle ∧ b.hardReset.gm = (0x0FF, 3) :: nttStart.gm ∧
    (List.range 8).map (fun i => gmRead ({ b with gm := gmWrite b.gm 0x203 9 }).hardReset.gm (0x200 + i)) =
      List.replicate 8 none := by decide

/-! ### Host duties (60_exceptions.md R278, R279; 70_reset_and_hazards.md R302) -/

/-- V-M1 as launched by the host, completed and not polled. -/
def scalarUnread : State :=
  after nttStart (hostPerform .startCommand (after nttStart (hostPerform (.regWrite 0x90 4 3)
    (after nttStart (hostPerform (.regWrite 0x8C 4 8) (after nttStart (hostPerform (.regWrite 0x88 4 0)
      (after nttStart (hostPerform (.regWrite 0x84 4 0x100)
        (after nttStart (hostPerform (.regWrite 0x80 4 2) nttStart)))))))))))

/-- R302: the footprint is the host's from the `STATUS` read that returns `DONE` on, and not before. -/
theorem test_footprint_until_done_is_read :
    let t := after scalarUnread (hostPerform (.regRead 4 4) scalarUnread)
    scalarUnread.status = .done ∧ hostPerform (.memRead 0x100) scalarUnread = .refused .hostFootprint ∧
    hostPerform (.memWrite 0x107 1) scalarUnread = .refused .hostFootprint ∧
    hostPerform (.free 0x107 1) scalarUnread = .refused .hostFootprint ∧
    t.rdata = 2 ∧ (after t (hostPerform (.memRead 0x100) t)).edata = 3 :=
  ⟨by decide, rfl, rfl, rfl, by decide, by decide⟩

/-- R279: the end is good once `DONE` has been read, not before; a `START` dropped in `DONE` was not started. -/
theorem test_good_end :
    let t := after scalarUnread (hostPerform (.regRead 4 4) scalarUnread)
    let d := after scalarUnread (hostPerform (.regWrite 0 4 1) scalarUnread)
    ¬scalarUnread.GoodEnd ∧ t.GoodEnd ∧ ¬({ t with host := [.startCommand] } : State).GoodEnd ∧
    ¬(after d (hostPerform (.regRead 4 4) d)).GoodEnd := by decide

/-- R279: the final state is memory at that read, whatever the host writes, releases or reads afterwards. -/
theorem test_final_memory :
    let t := after scalarUnread (hostPerform (.regRead 4 4) scalarUnread)
    let w := after t (hostPerform (.memWrite 0x100 9) t)
    let f := after w (hostPerform (.free 0x101 1) w)
    let r := after f (hostPerform (.regRead 4 4) f)
    gmRead r.gm 0x100 = some 9 ∧ gmRead r.gm 0x101 = none ∧ r.finalMemory = some scalarUnread.gm ∧
    r.finalMemory.map (gmRead · 0x100) = some (some 3) := by decide

/-! ### Host programs -/

/-- Program P1: the macro expands to its two lines. R113's condition fails for digits that do not add up to `log2(n)`, for
one above `max_deg`, and for an `n` that is no power of two. -/
theorem test_ntt_forward :
    nttForward 0x100 0x200 0x300 0x400 8 2 [2, 1] = some [.nttStage n2a, .nttStage n2b] ∧
    nttResultBuffer 0x100 0x200 [2, 1] = 0x100 ∧ nttForward 0x100 0x200 0x300 0x400 8 2 [1, 1] = none ∧
    nttForward 0x100 0x200 0x300 0x400 8 2 [3] = none ∧ nttForward 0x100 0x200 0x300 0x400 6 2 [2] = none := by decide

/-- Program P2, lines 2 to 4: the inverse of 8 modulo 17 is 15. No inverse of 8 exists modulo 16. -/
theorem test_ntt_inverse :
    nttInverse Config.toy17 0x200 0x100 0x500 0x600 8 2 [2, 1] =
      some [.nttStage { n2a with x := 0x200, y := 0x100, pq := 0x500, om := 0x600 },
       .nttStage { n2b with x := 0x100, y := 0x200, pq := 0x500, om := 0x600 },
       .scalarMul { el := 0x200, n := 8, scalar := [15] }] ∧
    nttInverse { Config.toy17 with pMod := 16 } 0x200 0x100 0x500 0x600 8 2 [2, 1] = none := by decide

/-- R111: the text of line 4 of P2 with its numbers in decimal, and R112: its host operations. -/
theorem test_host_sequence :
    commandText Config.toy17 (.scalarMul { el := 0x200, n := 8, scalar := [15] }) =
      some "SCALAR_MUL elements=512 n=8 scalar=15" ∧
    hostSequence Config.toy17 (.scalarMul { el := 0x200, n := 8, scalar := [15] }) =
      [.awaitReady, .regWrite 0x80 4 2, .regWrite 0x84 4 0x200, .regWrite 0x88 4 0, .regWrite 0x8C 4 8,
       .regWrite 0x90 4 15, .startCommand, .awaitEnd] := by decide

/-- R111: line 1 of program P4 and line 4 of P2 as 95_test_vectors.md writes them; a scalar that is no representative, and a
pair out of order, are no command. -/
theorem test_parse_command :
    parseCommand Config.toy17
        "NTT_STAGE  x=0x100 y=0x100 pq=0x300 omegas=0x400 scratch=4 n=8 lgp=0 deg=2 max_deg=2".toList =
      some (.nttStage { n2a with y := 0x100 }) ∧
    parseCommand Config.toy17 "SCALAR_MUL elements=0x200 n=8 scalar=15".toList =
      some (.scalarMul { el := 0x200, n := 8, scalar := [15] }) ∧
    parseCommand Config.toy17 "SCALAR_MUL elements=0x200 n=8 scalar=17".toList = none ∧
    parseCommand Config.toy17 "SCALAR_MUL n=8 elements=0x200 scalar=3".toList = none := by decide

/-! ### Witnesses: a state and operands that meet the hypotheses of each statement that has some -/

/-- V-N6. -/
def n6 : NttOperands :=
  { x := 0x100, y := 0x200, pq := 0x300, om := 0x400, scratchLen := 2, n := 2, lgp := 0, deg := 1, maxDeg := 1 }

/-- V-N1 in flight. -/
def nttBusy : State := after nttLaneStart (exec (.nttStage n1) nttLaneStart)

/-- V-N6 in flight, its one lane at its first statement. -/
def smallBusy : State := after nttLaneStart (exec (.nttStage n6) nttLaneStart)

/-- V-N6 in flight, its one lane waiting at barrier instance 0. -/
def waitingGroup : NttGroup :=
  { newNttGroup Config.toy17 n6 0 with arrived := [0], lanes := [{ newNttLane 0 with progress := .bar 0 }] }

/-- One lane of `SCALAR_MUL` in flight, before its store. -/
def scalarBusy : State :=
  { nttLaneStart with
    status := .busy
    launch := some (.scalar { m1 with n := 1 } 3 [⟨0, .store, some 5⟩])
    held := [.scalarMul { m1 with n := 1 }] }

def l3LaneStart : State := { l3Start with level := .lane }

theorem test_witness_decode_undoes_encode :
    (Instr.scalarMul m1).WellFormed Config.toy17 ∧ (Instr.nttStage n1).WellFormed Config.toy17 ∧
      (Instr.lookupEval l3).WellFormed Config.toy17 := by decide

theorem test_witness_encode_undoes_decode :
    decode Config.toy17.fieldWords ([some 2, some 0x200, some 0, some 8, some 15, none]) =
      .ok (.scalarMul { el := 0x200, n := 8, scalar := [15] }) := rfl

theorem test_witness_word_zero : (∃ i, decode 1 (some 1 :: List.replicate 13 (some 0)) = .ok i) ∧
    (∃ i, decode 1 (some 2 :: List.replicate 4 (some 0)) = .ok i) ∧
    ∃ i, decode 1 (some 3 :: List.replicate 20 (some 0)) = .ok i := ⟨⟨_, rfl⟩, ⟨_, rfl⟩, ⟨_, rfl⟩⟩

/-- Each clause: nothing written; word 0 = 4; the last needed word of each command missing. -/
theorem test_witness_unreadable_descriptor :
    State.reset.status = .idle ∧ State.reset.descWord 0 = none ∧
    (State.reset.writeDesc 0 4).descWord 0 = some 4 ∧
    (State.reset.writeDesc 0 1).descWord 13 = none ∧ (State.reset.writeDesc 0 2).descWord 4 = none ∧
    (State.reset.writeDesc 0 3).descWord 20 = none ∧ State.reset.cfg.fieldWords = 1 := by decide

/-- From `IDLE`, and from `DONE` with `CLEAR`. -/
theorem test_witness_step_runs :
    ∃ (s : State) (i : Instr) (rest : List HostOp), s.launch = none ∧
      decode s.cfg.fieldWords s.desc.toList = .ok i ∧ s.host = .regWrite s.cfg.regBase 4 3 :: rest ∧
      s.status = .done ∧ ({ s with status := .idle } : State).status = .idle :=
  ⟨{ State.reset.withFetchWord 160 2 with status := .done, host := [.regWrite 0 4 3] },
    .scalarMul { el := 0, n := 0, scalar := [0] }, [], rfl, rfl, rfl, rfl, rfl⟩

theorem test_witness_field : (0 < 17) ∧ Config.toy17.Ok ∧ 16 < Config.toy17.pMod ∧
    ({ Config.toy17 with carriage := .external, fieldWords := 2 } : Params).Ok := by decide

/-- `i < 2^w` at both ends, and `w = 1`. -/
theorem test_witness_bitreverse : (0 < 2 ^ 3) ∧ (7 < 2 ^ 3) ∧ (0 : Nat) < 2 ^ 0 ∧ (1 < 2) := by decide

/-- Admitted parameters with every index at its last value (`n = 32`, `deg = 2`, `lgp = 1`), rounds 0 and 1. -/
theorem test_witness_index_arithmetic :
    let o : NttOperands := { n1 with n := 32, lgp := 1, deg := 2 }
    nttParamsOk Config.toy17 o = true ∧ (7 : U32).toNat < (nttT o).toNat ∧ (3 : U32).toNat < (nttCount o).toNat ∧
    (1 : U32) = nttK o 7 ∧ 1 < o.deg.toNat ∧ (1 : U32).toNat < (nttBit o 0).toNat ∧ (0 : U32).toNat < (nttBit o 1).toNat ∧
    lookupParamsOk l3 = true ∧ (7 : U32).toNat < l3.size.toNat := by decide

/-- Last pair number, last cell with the digit 0, last lane of V-N1. -/
theorem test_witness_pairs_and_lanes :
    nttParamsOk Config.toy17 n1 = true ∧ 2 < n1.deg.toNat ∧ (3 : U32).toNat < (nttCounth n1).toNat ∧
    6 < (nttCount n1).toNat ∧ (6).testBit (n1.deg.toNat - 1 - 2) = false ∧
    (3 : U32).toNat < 2 ^ nttLgl Config.toy17 n1 := by decide

/-- `e = 5` reads positions 0 and 2, which hold powers of 2 (V-P1). -/
theorem test_witness_pow_table :
    ∀ j, (5 : U32).getLsbD j = true → gmRead omCells ((0x400 : Addr).toNat + j) = some (2 ^ 2 ^ j % 17) := by
  intro j hj
  have h : j < 32 := BitVec.lt_of_getLsbD hj
  interval_cases j <;> revert hj <;> decide

/-- Another memory that agrees at those positions. -/
theorem test_witness_pow_agree :
    ∀ j, (5 : U32).getLsbD j = true → gmRead omCells ((0x400 : Addr).toNat + j) =
      gmRead (gmWrite omCells 0x401 0) ((0x400 : Addr).toNat + j) := by
  intro j hj
  have h : j < 32 := BitVec.lt_of_getLsbD hj
  interval_cases j <;> revert hj <;> decide

/-- Parameters that break P1 to P5 one each, and the largest that keep them (`n = 8 = 2^3`, `lgp + deg = 3`). -/
theorem test_witness_ntt_preconditions :
    nttStart.status = .idle ∧ nttParamsOk nttStart.cfg { n2a with lgp := 2 } = false ∧
    nttParamsOk nttStart.cfg n2a = true ∧ nttParamsOk nttStart.cfg { n2a with lgp := 1 } = true := by decide

/-- Admitted launches of the three commands at both levels. -/
theorem test_witness_admitted :
    nttStart.status = .idle ∧ nttStart.level = .functional ∧ nttLaneStart.level = .lane ∧
    admission nttStart (nttRequest nttStart.cfg n1) = none ∧ admission nttLaneStart (nttRequest nttStart.cfg n1) = none ∧
    admission nttStart (scalarRequest nttStart.cfg m1) = none ∧
    admission nttLaneStart (scalarRequest nttStart.cfg m1) = none ∧
    admission l3Start (lookupRequest l3) = none ∧ admission l3LaneStart (lookupRequest l3) = none ∧
    0 < l3Start.cfg.pMod ∧ l3LaneStart.status = .idle := by decide

/-- Groups, local indices and lanes of V-N1 at the ends of their ranges. -/
theorem test_witness_ntt_ranges :
    (0 : U32).toNat < (nttT n1).toNat ∧ (7 : U32).toNat < (nttCount n1).toNat ∧ 0x208 ∉ nttWrites n1 ∧
    0x1FF ∉ nttWrites n1 ∧ 0x207 ∈ nttWrites n1 ∧ (groupStaged 17 n1 nttStart.gm 0).length = (nttCount n1).toNat := by
  decide

/-- Memories that agree on the read footprint and differ off it. -/
theorem test_witness_ntt_reads :
    ∀ a ∈ nttReads n1, gmRead nttStart.gm a = gmRead (gmWrite nttStart.gm 0x380 0) a := by decide

/-- A pair with digit index 1 (round 1, pair 1) and one with digit index 0 (pair 0). -/
theorem test_witness_butterfly :
    nttParamsOk Config.toy17 n1 = true ∧ 1 < n1.deg.toNat ∧ (1 : U32).toNat < (nttCounth n1).toNat ∧
    pairDi (nttBit n1 1) 1 ≠ 0 ∧ pairDi (nttBit n1 1) 0 = 0 := by decide

/-- `deg = 1` (V-N2 stage B, V-N6), and `lgp = 0` with the source cells elements. -/
theorem test_witness_corner_stages :
    nttParamsOk Config.toy17 n2b = true ∧ n2b.deg = 1 ∧ nttParamsOk Config.toy17 n6 = true ∧ n6.lgp = 0 := by decide

/-- Every `GM[X + i]` of V-N6 read as an element of `F`, the cells without a value too. -/
theorem test_witness_corner_values : ∀ i : U32, valueAt 17 [] (elemAddr n6.x i) < 17 := by
  intro i
  exact Nat.mod_lt _ (by decide)

/-- Lane steps that store: both lines of the scatter, the put of staging, the sum and the put of a butterfly. -/
theorem test_witness_ntt_lane_steps :
    let g : NttGroup := { newNttGroup Config.toy17 n1 0 with scratch := List.replicate 8 (some 1) }
    let l : NttLane :=
      { newNttLane 0 with base := some 0, p := some 1, counth := some 4, counte := some 2, tmp := some 1, a := some 1,
                          b := some 2, d := some 3, i0 := some 0, i1 := some 4 }
    [NttProgress.scat 0 .low, .scat 0 .high, .stage 7 .put, .bfly 0 0 .sum, .bfly 0 0 .put, .seed .geometry].all
      (fun q => (nttLaneStep nttLaneStart n1 g { l with progress := q }).isOk) = true := by decide

/-- 2 has order 8 modulo 17, and `pq` of V-N1 holds its powers at the indices read (`1 .. 3`). -/
theorem test_witness_transform_tables :
    Nat.Prime 17 ∧ orderOf ((2 : Nat) : ZMod 17) = n1.n.toNat ∧ nttParamsOk Config.toy17 n1 = true ∧
    n1.maxDeg.toNat ≤ log2 n1.n ∧
    ∀ q, 1 ≤ q → q < (nttCounth n1).toNat →
      gmRead nttStart.gm (n1.pq.toNat + q * 2 ^ (n1.maxDeg.toNat - n1.deg.toNat)) =
        some (2 ^ (q * 2 ^ (n1.maxDeg.toNat - n1.deg.toNat) * (n1.n.toNat / 2 ^ n1.maxDeg.toNat)) % 17) := by
  refine ⟨by decide, ?_, by decide, by decide, ?_⟩
  · exact orderOf_eq_prime_pow (p := 2) (n := 2) (by decide) (by decide)
  · intro q hq hq'
    replace hq' : q < 4 := hq'
    interval_cases q <;> decide

theorem test_witness_inv_idle (s : State) (hc : s.cfg.Ok) (hg : gmWf s.gm) (hd : domWf s.dom)
    (hb : ∀ r ∈ s.dom, r.hi ≤ 2 ^ 64) (hm : ∀ c ∈ s.gm, domHas s.dom c.1 = true ∧ c.2 < s.cfg.pMod)
    (hs : s.status = .idle) (hl : s.launch = none) (hf : s.cause = .none) (hr : s.run = .notStarted) : s.Inv where
  cfg_ok := hc
  gm_wf := hg
  dom_wf := hd
  dom_bound := hb
  gm_cells := hm
  busy_iff := by simp [hs, hl]
  cause_iff := by simp [hs, hf]
  held_launch := by simp [hl]
  run_faulted := by simp [hr]
  run_good := by simp [hr]
  elems := by simp [hl]

/-- The start states of V-N1, V-M1 and V-L3 meet the invariant, and their launches answer a next state: the
hypotheses of the three schedule independence statements. -/
theorem test_witness_runs :
    nttLaneStart.Inv ∧ l3LaneStart.Inv ∧ nttLaneStart.host = [] ∧ l3LaneStart.host = [] ∧
    (∃ t, exec (.nttStage n1) nttLaneStart = .next t) ∧ (∃ t, exec (.scalarMul m1) nttLaneStart = .next t) ∧
    ∃ t, exec (.lookupEval l3) l3LaneStart = .next t :=
  ⟨test_witness_inv_idle _ (by decide) (by decide) (by decide) (by decide) (by decide) rfl rfl rfl rfl,
    test_witness_inv_idle _ (by decide) (by decide) (by decide) (by decide) (by decide) rfl rfl rfl rfl,
    rfl, rfl, ⟨_, rfl⟩, ⟨_, rfl⟩, ⟨_, rfl⟩⟩

/-- Releases before a round and before the scatter. -/
theorem test_witness_barrier :
    releasable waitingGroup = some 0 ∧ 0 < n6.deg.toNat ∧ n6.deg.toNat ≤ 1 ∧
    releasable (newNttGroup Config.toy17 n6 0) = none := by decide

/-- A launch in flight in step with its barriers, and its next step; so too with every lane waiting. -/
theorem test_witness_synced :
    smallBusy.Synced ∧ ({ smallBusy with launch := some (.ntt n6 [waitingGroup]) } : State).Synced ∧
    (∃ t, step smallBusy = .next t) ∧ ∃ l, smallBusy.launch = some l := by
  refine ⟨?_, ?_, ⟨_, rfl⟩, ⟨_, rfl⟩⟩
  all_goals
    intro o gs h
    cases h
    intro g hg
    cases List.mem_singleton.mp hg
    refine ⟨by decide, by decide, ?_, by decide⟩
    intro l hl
    cases List.mem_singleton.mp hl
    simp [progressAt, newNttLane, newNttGroup, waitingGroup, n6]

/-- The load and the store of a lane. -/
theorem test_witness_scalar_lane :
    addrOk nttLaneStart.dom (elemAddr m1.el 7) = true ∧ gmRead nttLaneStart.gm (elemAddr m1.el 7) = some 8 := by decide

/-- `n = 0` with a scalar that denotes an element. -/
theorem test_witness_scalar_of_nothing :
    State.reset.status = .idle ∧ ({ m1 with n := 0 } : ScalarOperands).n = 0 ∧
    (fieldDec State.reset.cfg m1.scalar).isSome = true ∧ State.reset.level = .lane ∧ State.reset.host = [] := by decide

/-- Smallest and largest admitted sizes, and one refused. -/
theorem test_witness_lookup_preconditions :
    lookupParamsOk { l3 with size := 0x80000000, rotScale := 0x40000000 } = true ∧ lookupParamsOk l6 = true ∧
    lookupParamsOk { l3 with rotScale := 8 } = false ∧ l3Start.status = .idle := by decide

/-- A load, a term and the store of a lane. -/
theorem test_witness_lookup_lane :
    [LookupProgress.y, .term1, .store].all (fun q =>
      (lookupLaneStep l3LaneStart l3
        { newLookupLane 7 with progress := q, v := some 1, y := some 2, q0 := some 3, z := some 4 }).isOk) = true := by
  decide

/-- Commands from `IDLE` whose own request fails each test first. -/
theorem test_witness_admission_of_commands :
    let s : State := { nttStart with dom := [⟨0x100, 0x108⟩, ⟨0x200, 0x208⟩, ⟨0x300, 0x304⟩], gm := [] }
    s.status = .idle ∧ admission s (nttRequest s.cfg { n2a with n := 6 }) = some .badParam ∧
    admission s (nttRequest s.cfg { n2a with x := 0x101 }) = some .outOfRange ∧
    admission s (nttRequest s.cfg { n2a with y := 0x100 }) = some .overlap ∧
    admission s (nttRequest s.cfg n2a) = some .uninitRead ∧
    admission s (scalarRequest s.cfg { m1 with scalar := [17] }) = some .badParam ∧
    admission s (scalarRequest s.cfg { m1 with n := 9 }) = some .outOfRange ∧
    admission s (scalarRequest s.cfg m1) = some .uninitRead ∧
    admission s (lookupRequest { l3 with rotScale := 8 }) = some .badParam ∧
    admission s (lookupRequest l3) = some .outOfRange ∧
    admission { s with dom := lookupDom } (lookupRequest { l3 with val := 0x1400 }) = some .overlap ∧
    admission { s with dom := lookupDom } (lookupRequest l3) = some .uninitRead := by decide

/-- Requests that fail each test first, and one that fails none. -/
theorem test_witness_admission :
    let r : Request := nttRequest nttStart.cfg n2a
    admission nttStart { r with paramsOk := false } = some .badParam ∧
    admission nttStart { r with writes := [2 ^ 64] } = some .outOfRange ∧
    admission nttStart { r with writes := [0x100] } = some .overlap ∧
    admission nttStart { r with reads := [0x200] } = some .uninitRead ∧ admission nttStart r = none := by decide

/-- In place, and with the last cell of `y` the only one shared (V-F23, V-F24). -/
theorem test_witness_overlap :
    let o : NttOperands := { n2a with y := 0x100 }
    let q : LookupOperands := { l3 with val := 0x1800 - 7 }
    let s : State := { l3Start with dom := [⟨0x1000, 0x1804⟩] }
    (nttStart.status = .idle ∧ nttParamsOk nttStart.cfg o = true ∧
      (∀ a ∈ nttReads o ++ nttWrites o, a < 2 ^ 64 ∧ domHas nttStart.dom a = true) ∧ o.x = o.y) ∧
    (s.status = .idle ∧ lookupParamsOk q = true ∧
      (∀ a ∈ lookupWrites q ++ lookupOthers q, a < 2 ^ 64 ∧ domHas s.dom a = true) ∧
      ∃ a ∈ lookupWrites q, a ∈ lookupOthers q) := by decide

/-- The three states that are not `IDLE`, and a step from `FAULT` that is not reset. -/
theorem test_witness_not_idle :
    (State.reset.enterFault .overlap).status = .fault ∧ nttBusy.status = .busy ∧
    ({ State.reset with status := .done } : State).status ≠ .idle ∧
    ∃ t, step { State.reset.enterFault .overlap with host := [.regWrite 0 4 3] } = .next t :=
  ⟨rfl, rfl, by decide, ⟨_, rfl⟩⟩

/-- Words at the ends of each range of the window, a written `DESC` word, and accesses outside. -/
theorem test_witness_window :
    windowIndex Config.toy17 0 4 = some 0 ∧ windowIndex Config.toy17 124 4 = some 31 ∧
    windowIndex Config.toy17 128 4 = some 32 ∧ windowIndex Config.toy17 252 4 = some 63 ∧
    windowIndex Config.toy17 256 4 = none ∧ windowIndex Config.toy17 0 2 = none ∧
    windowIndex Config.toy17 2 4 = none ∧ windowIndex { Config.toy17 with regBase := 16 } 12 4 = none ∧
    (State.reset.writeDesc 31 7).descWord 31 = some 7 ∧ State.reset.status = .idle ∧ State.reset.launch = none := by
  decide

/-- A host program of one command that completes, from `IDLE` and from `DONE`, and one that faults. -/
theorem test_witness_host_sequence :
    let i : Instr := .scalarMul m1
    let s : State := { nttStart with host := hostSequence nttStart.cfg i ++ [.memRead 0x100] }
    let f : State := { State.reset with level := .functional, host := hostSequence Config.toy17 i }
    s.cfg.Ok ∧ i.WellFormed s.cfg ∧ s.launch = none ∧ s.level = .functional ∧ s.status = .idle ∧
    s.run ≠ .faulted ∧ (HostOp.memRead 0x100).starts s.cfg = false ∧ ({ s with status := .done } : State).status = .done ∧
    (∃ u, exec i { s with status := .idle } = .next u ∧ u.status = .done) ∧
    (f.level = .functional ∧ ∃ u, exec i { f with status := .idle } = .next u ∧ u.status = .fault) :=
  ⟨by decide, by decide, rfl, rfl, rfl, by decide, rfl, rfl, ⟨_, rfl, rfl⟩, rfl, ⟨_, rfl, rfl⟩⟩

/-- A good end in a state that meets the invariant, whose next step, a host's write, changes memory. -/
theorem test_witness_good_end_stays :
    let s : State := { nttStart with run := .good nttStart.gm, host := [.memWrite 0x100 9, .awaitEnd] }
    s.Inv ∧ s.finalMemory = some nttStart.gm ∧ ∃ t, step s = .next t ∧ gmRead t.gm 0x100 = some 9 where
  left :=
    { cfg_ok := by decide
      gm_wf := by decide
      dom_wf := by decide
      dom_bound := by decide
      gm_cells := by decide
      busy_iff := by decide
      cause_iff := by decide
      held_launch := by
        intro l h
        cases h
      run_faulted := by decide
      run_good := by
        intro final h
        cases h
        decide
      elems := by
        intro l h
        cases h }
  right := ⟨by decide, _, rfl, by decide⟩

/-- A lane's step in flight, from a state that meets the invariant. -/
theorem test_witness_step_keeps_invariant :
    scalarBusy.Inv ∧ scalarBusy.level = .lane ∧ ∃ t, step scalarBusy = .next t where
  left :=
    { cfg_ok := by decide
      gm_wf := by decide
      dom_wf := by decide
      dom_bound := by decide
      gm_cells := by decide
      busy_iff := by decide
      cause_iff := by decide
      held_launch := by
        intro l h
        cases h
        exact List.mem_singleton.mpr rfl
      run_faulted := by decide
      run_good := by
        intro final h
        cases h
      elems := by
        intro l h
        cases h
        intro l hl
        cases List.mem_singleton.mp hl
        simp [elemOk, scalarBusy, nttLaneStart, nttStart, idleWith, State.reset, Config.toy17] }
  right := ⟨rfl, _, rfl⟩

/-- Transitions of the sequencer: into `BUSY`, into `FAULT`, out of `BUSY`, out of `DONE`, and reset. -/
theorem test_witness_transitions :
    (after State.reset (step (State.reset.withFetchWord 160 2))).status = .busy ∧
    (after State.reset (step (State.reset.withFetchWord 448 1))).status = .fault ∧
    (after State.reset (step { State.reset with status := .busy, launch := some (.lookup l3 []) })).status = .done ∧
    (after State.reset (step { State.reset with status := .done, host := [.regWrite 0 4 2] })).status = .idle ∧
    (after State.reset (step { State.reset.enterFault .overlap with host := [.reset] })).status = .idle := by decide

/-- A launch in flight, a cell it writes, a cell it only reads, and a request that reads the first (V-R2). -/
theorem test_witness_reset_in_flight :
    let l : Launch := .ntt n1 []
    let s : State := { nttLaneStart with status := .busy, launch := some l }
    let r : Request := nttRequest s.cfg { n1 with x := 0x200, y := 0x100 }
    0x200 ∈ launchWrites l ∧ 0x107 ∉ launchWrites l ∧ 0x200 ∈ r.reads ∧ r.paramsOk = true ∧
    (∀ b ∈ r.reads ++ r.writes, addrOk s.hardReset.dom b = true) ∧ ∀ b ∈ r.writes, b ∉ r.others := by decide

/-- A command accepted and not yet read as `DONE`: cells it writes, one it only reads, and one it does neither. -/
theorem test_witness_footprint :
    let i : Instr := .nttStage n1
    let s := after nttStart (exec i nttStart)
    i ∈ s.held ∧ s.held = [i] ∧ addrOk s.dom 0x207 = true ∧ 0x207 ∈ commandWrites i ∧ addrOk s.dom 0x107 = true ∧
    0x107 ∈ commandReads i ∧ 0x107 ∉ commandWrites i ∧ gmRead s.gm 0x107 = some 8 ∧
    (0x207 ≤ 0x207 ∧ 0x207 < 0x207 + 1) := by decide

/-- The footprint of a launch in flight, in a state that meets the invariant. -/
theorem test_witness_footprint_in_flight :
    scalarBusy.Inv ∧ ∃ l, scalarBusy.launch = some l ∧ l.command = .scalarMul { m1 with n := 1 } :=
  ⟨test_witness_step_keeps_invariant.1, _, rfl, rfl⟩

/-- Steps that give the footprint back: a poll that sees `DONE`, and a reset. -/
theorem test_witness_footprint_given_back :
    let i : Instr := .nttStage n1
    let s := after nttStart (exec i nttStart)
    let p : State := { s with host := [.awaitEnd] }
    let q : State := { s with host := [.reset] }
    (∃ t, step p = .next t ∧ i ∈ p.held ∧ i ∉ t.held) ∧ ∃ t, step q = .next t ∧ i ∈ q.held ∧ i ∉ t.held :=
  ⟨⟨_, rfl, by decide, by decide⟩, ⟨_, rfl, by decide, by decide⟩⟩

end Sys2Proof.Tests
end

section
/-! PROOFS. Bit reversal (00_scope.md R12): the bound and the digits of `bitreverse`, by recursion on the number of
digits; the involution from the digits alone. -/

namespace Sys2Proof.Machine

@[simp] theorem bitreverse_zero (i : Nat) : bitreverse i 0 = 0 := rfl

theorem bitreverse_succ (i w : Nat) : bitreverse i (w + 1) = 2 ^ w * (i % 2) + bitreverse (i / 2) w := by
  rw [bitreverse, Nat.mul_comm]

/-- Every result fits its digits, also of an `i` at or above `2 ^ w` (log 37). -/
theorem bitreverse_lt (i w : Nat) : bitreverse i w < 2 ^ w := by
  induction w generalizing i with
  | zero => simp
  | succ w ih =>
    have hhigh : 2 ^ w * (i % 2) ≤ 2 ^ w * 1 := Nat.mul_le_mul_left _ (by omega)
    have hlow := ih (i / 2)
    rw [bitreverse_succ, Nat.pow_succ]
    omega

/-- The digits below the top one come from `i / 2`, and the top one is the lowest digit of `i`. -/
theorem testBit_bitreverse {i w j : Nat} (hj : j < w) : (bitreverse i w).testBit j = i.testBit (w - 1 - j) := by
  induction w generalizing i with
  | zero => exact absurd hj j.not_lt_zero
  | succ w ih =>
    rw [bitreverse_succ, Nat.testBit_two_pow_mul_add _ (bitreverse_lt _ _)]
    obtain hlow | rfl := Nat.lt_succ_iff_lt_or_eq.mp hj
    · have hdigit : w + 1 - 1 - j = (w - 1 - j) + 1 := by omega
      rw [if_pos hlow, ih hlow, hdigit, Nat.testBit_succ]
    · simp

/-- Below `w` the two reversals of the position cancel; from `w` on both sides have no digit. -/
theorem bitreverse_bitreverse {i w : Nat} (hi : i < 2 ^ w) : bitreverse (bitreverse i w) w = i := by
  refine Nat.eq_of_testBit_eq fun j => ?_
  obtain hj | hj := Nat.lt_or_ge j w
  · have hmirror : w - 1 - j < w := by omega
    have hback : w - 1 - (w - 1 - j) = j := by omega
    rw [testBit_bitreverse hj, testBit_bitreverse hmirror, hback]
  · have hpow : 2 ^ w ≤ 2 ^ j := Nat.pow_le_pow_right Nat.two_pos hj
    rw [Nat.testBit_lt_two_pow ((bitreverse_lt _ _).trans_le hpow), Nat.testBit_lt_two_pow (hi.trans_le hpow)]

theorem bitreverse_one {i : Nat} (hi : i < 2) : bitreverse i 1 = i := by
  simp [bitreverse_succ, Nat.mod_eq_of_lt hi]

/-- Settles O11: the digits by recursion on their number, the involution by comparing digits. -/
theorem bitReverseReversesDigits : Obligations.BitReverseReversesDigits :=
  ⟨fun _ _ hi => ⟨bitreverse_lt _ _, fun _ hj => testBit_bitreverse hj, bitreverse_bitreverse hi⟩,
    fun _ hi => bitreverse_one hi⟩

end Sys2Proof.Machine
end

section
/-! PROOFS. The ring laws of the field operations (40_field_arith.md R141, R143): each operation is the one of
`ZMod p` on residues, and an element of `F` is fixed by its residue, so distribution in the ring is distribution of the
operations. The laws of one operation alone follow from those of `%`. -/

namespace Sys2Proof.Machine

variable {p : Nat}

/-! ### The operations as those of `ZMod p` -/

@[simp] theorem natCast_fadd (a b : Nat) : ((fadd p a b : Nat) : ZMod p) = a + b := by
  rw [fadd, ZMod.natCast_mod, Nat.cast_add]

@[simp] theorem natCast_fmul (a b : Nat) : ((fmul p a b : Nat) : ZMod p) = a * b := by
  rw [fmul, ZMod.natCast_mod, Nat.cast_mul]

/-- The subtrahend is taken as `p - b % p`, whose residue is that of `-b`. -/
theorem natCast_fsub (hp : 0 < p) (a b : Nat) : ((fsub p a b : Nat) : ZMod p) = a - b := by
  have hneg : ((p - b % p : Nat) : ZMod p) = -b := by
    rw [Nat.cast_sub (Nat.mod_lt b hp).le, ZMod.natCast_self, ZMod.natCast_mod, zero_sub]
  rw [fsub, ZMod.natCast_mod, Nat.cast_add, hneg, sub_eq_add_neg]

/-- An element of `F` is fixed by its residue (40_field_arith.md R140). -/
theorem element_eq_of_natCast_eq {a b : Nat} (ha : a < p) (hb : b < p) (h : (a : ZMod p) = b) : a = b :=
  ((ZMod.natCast_eq_natCast_iff a b p).mp h).eq_of_lt_of_lt ha hb

/-! ### Laws of `fadd` -/

theorem fadd_comm (a b : Nat) : fadd p a b = fadd p b a := by
  rw [fadd, fadd, Nat.add_comm]

theorem fadd_assoc (a b c : Nat) : fadd p (fadd p a b) c = fadd p a (fadd p b c) := by
  simp only [fadd, Nat.mod_add_mod, Nat.add_mod_mod, Nat.add_assoc]

theorem fadd_zero {a : Nat} (ha : a < p) : fadd p a 0 = a := Nat.mod_eq_of_lt ha

/-- Settles O7: reducing an operand first does not change the reduced sum. -/
theorem faddIsModularSum : Obligations.FaddIsModularSum :=
  fun _ a b c => ⟨rfl, fadd_comm a b, fadd_assoc a b c, fadd_zero⟩

/-! ### Laws of `fmul` -/

theorem fmul_comm (a b : Nat) : fmul p a b = fmul p b a := by
  rw [fmul, fmul, Nat.mul_comm]

theorem fmul_assoc (a b c : Nat) : fmul p (fmul p a b) c = fmul p a (fmul p b c) := by
  simp only [fmul, Nat.mod_mul_mod, Nat.mul_mod_mod, Nat.mul_assoc]

theorem fmul_fadd (hp : 0 < p) (a b c : Nat) : fmul p a (fadd p b c) = fadd p (fmul p a b) (fmul p a c) :=
  element_eq_of_natCast_eq (fmul_lt hp ..) (fadd_lt hp ..) (by simp [mul_add])

theorem fmul_fsub (hp : 0 < p) (a b c : Nat) : fmul p a (fsub p b c) = fsub p (fmul p a b) (fmul p a c) :=
  element_eq_of_natCast_eq (fmul_lt hp ..) (fsub_lt hp ..) (by simp [natCast_fsub hp, mul_sub])

/-- Also at modulus 1, where `ONE` is the residue 0. -/
theorem fmul_fone {a : Nat} (ha : a < p) : fmul p a (fone p) = a := by
  rw [fmul, fone, Nat.mul_mod_mod, Nat.mul_one, Nat.mod_eq_of_lt ha]

theorem fmul_zero (a : Nat) : fmul p a 0 = 0 := Nat.zero_mod p

/-- Settles O8: distribution is read off in `ZMod p`, where the borrow of `fsub` is a negation. -/
theorem fmulIsModularProduct : Obligations.FmulIsModularProduct :=
  fun _ a b c hp =>
    ⟨rfl, fmul_comm a b, fmul_assoc a b c, fmul_fadd hp a b c, fmul_fsub hp a b c, fmul_fone, fmul_zero a⟩

end Sys2Proof.Machine
end

section
/-! PROOFS. The preconditions of `NTT_STAGE` (41_ntt_stage.md R163): `ispow2` and `log2` as statements about an
exponent, and what admission answers when its first test fails. -/

namespace Sys2Proof.Machine

theorem isPow2_iff {v : U32} : isPow2 v = true ↔ ∃ m, m ≤ 31 ∧ v.toNat = 2 ^ m := by
  simp [isPow2, Nat.lt_succ_iff]

theorem log2_of_toNat_eq_two_pow {v : U32} {m : Nat} (h : v.toNat = 2 ^ m) : log2 v = m := by
  rw [log2, h, Nat.log2_two_pow]

/-- `nttParamsOk` is P1 to P5, in the order of R163. -/
theorem nttParamsOk_iff {c : Params} {o : NttOperands} :
    nttParamsOk c o = true ↔
      (∃ m, 1 ≤ m ∧ m ≤ 31 ∧ o.n.toNat = 2 ^ m ∧ o.lgp.toNat + o.deg.toNat ≤ m) ∧
      1 ≤ o.deg.toNat ∧ o.deg.toNat ≤ o.maxDeg.toNat ∧ o.maxDeg.toNat ≤ 31 ∧
      2 ^ o.deg.toNat ≤ o.scratchLen.toNat ∧ o.deg.toNat ≤ c.lgScratch := by
  simp only [nttParamsOk, Bool.and_eq_true, decide_eq_true_eq, isPow2_iff]
  constructor
  · rintro ⟨⟨⟨⟨⟨⟨m, hm, hn⟩, h2⟩, hdeg, hdegMax⟩, hmax⟩, hlgp⟩, hscratch⟩
    rw [log2_of_toNat_eq_two_pow hn] at hlgp
    exact ⟨⟨m, by omega, hm, hn, hlgp⟩, hdeg, hdegMax, hmax, hscratch⟩
  · rintro ⟨⟨m, h1, hm, hn, hlgp⟩, hdeg, hdegMax, hmax, hscratch⟩
    have h2 : 2 ≤ o.n.toNat := hn ▸ Nat.pow_le_pow_right Nat.two_pos h1
    rw [← log2_of_toNat_eq_two_pow hn] at hlgp
    exact ⟨⟨⟨⟨⟨⟨m, hm, hn⟩, h2⟩, hdeg, hdegMax⟩, hmax⟩, hlgp⟩, hscratch⟩

theorem exec_nttStage (o : NttOperands) (s : State) :
    exec (.nttStage o) s =
      startLaunch (nttRequest s.cfg o) (newNttLaunch s.cfg o) (nttMemory s.cfg.pMod o s.gm) s := rfl

/-- The parameter test is the first of admission's own (60_exceptions.md R252). -/
theorem admission_of_paramsOk_eq_false {s : State} {r : Request} (h : r.paramsOk = false) :
    admission s r = some .badParam := by
  simp [admission, h]

theorem startLaunch_refused {r : Request} {l : Launch} {gm : List (Nat × Nat)} {s : State} {code : FaultCode}
    (hs : s.status = .idle) (ha : admission s r = some code) :
    startLaunch r l gm s = .next (s.enterFault code) := by
  simp [startLaunch, hs, ha]

/-- Settles O18: each precondition is a test of `nttParamsOk`, and admission makes that test before the others. -/
theorem nttPreconditions : Obligations.NttPreconditions := by
  refine fun s o => ⟨nttParamsOk_iff, fun hidle hbad => ?_⟩
  rw [exec_nttStage]
  exact startLaunch_refused hidle (admission_of_paramsOk_eq_false hbad)

end Sys2Proof.Machine
end

section
/-! PROOFS. The pairs of a round (41_ntt_stage.md R171) in natural numbers, for `bit = 2^b`: the pair number is split at
digit `b`, and the lower cell has a 0 put in there, the upper one a 1. -/

namespace Sys2Proof.Machine

/-! ### The sizes of a group -/

theorem toNat_nttCount {o : NttOperands} (hdeg : o.deg.toNat ≤ 31) : (nttCount o).toNat = 2 ^ o.deg.toNat := by
  have hlt : 2 ^ o.deg.toNat < 2 ^ 32 := Nat.pow_lt_pow_right Nat.one_lt_two (by omega)
  rw [nttCount, BitVec.shiftLeft_eq', BitVec.toNat_shiftLeft, BitVec.toNat_ofNat, Nat.one_mod, Nat.one_shiftLeft,
    Nat.mod_eq_of_lt hlt]

theorem toNat_nttCounth {o : NttOperands} (hpos : 1 ≤ o.deg.toNat) (hdeg : o.deg.toNat ≤ 31) :
    (nttCounth o).toNat = 2 ^ (o.deg.toNat - 1) := by
  rw [nttCounth, BitVec.toNat_ushiftRight, toNat_nttCount hdeg, Nat.shiftRight_eq_div_pow, Nat.pow_div hpos Nat.two_pos]

theorem toNat_nttBit {o : NttOperands} {rnd : Nat} (hrnd : rnd < o.deg.toNat) (hdeg : o.deg.toNat ≤ 31) :
    (nttBit o rnd).toNat = 2 ^ (o.deg.toNat - 1 - rnd) := by
  rw [nttBit, BitVec.toNat_ushiftRight, toNat_nttCounth (by omega) hdeg, Nat.shiftRight_eq_div_pow,
    Nat.pow_div (by omega) Nat.two_pos]

/-! ### The cells of a pair -/

section
variable {bit i : U32} {b : Nat} (hbit : bit.toNat = 2 ^ b)
include hbit

theorem toNat_pairDi : (pairDi bit i).toNat = i.toNat % 2 ^ b := by
  have hpos : 1 ≤ bit.toNat := hbit ▸ Nat.one_le_two_pow
  have hmask : (bit - 1).toNat = 2 ^ b - 1 := by
    rw [← hbit]
    bv_omega
  rw [pairDi, BitVec.toNat_and, hmask, Nat.and_two_pow_sub_one_eq_mod]

/-- Doubling the part of `i` above digit `b` leaves that digit 0. -/
theorem toNat_pairLow (hi : i.toNat < 2 ^ 31) :
    (pairLow bit i).toNat = i.toNat / 2 ^ b * (2 * 2 ^ b) + i.toNat % 2 ^ b := by
  have hdi := toNat_pairDi (i := i) hbit
  have hsplit := Nat.div_add_mod' i.toNat (2 ^ b)
  have hle := Nat.mod_le i.toNat (2 ^ b)
  have hsub : (pairLow bit i).toNat = 2 * i.toNat - i.toNat % 2 ^ b := by
    rw [← hdi] at hle ⊢
    rw [pairLow]
    bv_omega
  rw [hsub, Nat.mul_left_comm]
  omega

/-- With a pair number of `r` digits above digit `b`, the upper cell is below `2^(r + b + 1)`. -/
theorem pairLow_add_lt {r : Nat} (hrb : r + b ≤ 30) (hi : i.toNat < 2 ^ (r + b)) :
    (pairLow bit i).toNat + 2 ^ b < 2 ^ (r + b + 1) := by
  have hi31 : i.toNat < 2 ^ 31 := hi.trans (Nat.pow_lt_pow_right Nat.one_lt_two (by omega))
  have hblk : i.toNat / 2 ^ b + 1 ≤ 2 ^ r := Nat.div_lt_of_lt_mul (by rwa [Nat.pow_add, Nat.mul_comm] at hi)
  have hmod : i.toNat % 2 ^ b < 2 ^ b := Nat.mod_lt _ (Nat.two_pow_pos b)
  calc (pairLow bit i).toNat + 2 ^ b
      < (i.toNat / 2 ^ b + 1) * (2 * 2 ^ b) := by rw [toNat_pairLow hbit hi31, Nat.add_mul]; omega
    _ ≤ 2 ^ r * (2 * 2 ^ b) := Nat.mul_le_mul_right _ hblk
    _ = 2 ^ (r + b + 1) := by ring

theorem toNat_pairHigh {r : Nat} (hrb : r + b ≤ 30) (hi : i.toNat < 2 ^ (r + b)) :
    (pairHigh bit i).toNat = (pairLow bit i).toNat + 2 ^ b := by
  have hlt := pairLow_add_lt hbit hrb hi
  have h32 : 2 ^ (r + b + 1) < 2 ^ 32 := Nat.pow_lt_pow_right Nat.one_lt_two (by omega)
  rw [pairHigh, BitVec.toNat_add, hbit, Nat.mod_eq_of_lt (hlt.trans h32)]

end

/-- The two cells of a pair of a round are different cells of the group. -/
theorem pairLow_lt_pairHigh_lt_count {o : NttOperands} {rnd : Nat} {i : U32} (hdeg : o.deg.toNat ≤ 31)
    (hrnd : rnd < o.deg.toNat) (hi : i.toNat < (nttCounth o).toNat) :
    (pairLow (nttBit o rnd) i).toNat < (pairHigh (nttBit o rnd) i).toNat ∧
      (pairHigh (nttBit o rnd) i).toNat < (nttCount o).toNat := by
  have hbit := toNat_nttBit hrnd hdeg
  have hcounth : o.deg.toNat - 1 = rnd + (o.deg.toNat - 1 - rnd) := by omega
  have hcount : o.deg.toNat = rnd + (o.deg.toNat - 1 - rnd) + 1 := by omega
  rw [toNat_nttCounth (by omega) hdeg, hcounth] at hi
  rw [toNat_pairHigh hbit (by omega) hi, toNat_nttCount hdeg]
  refine ⟨Nat.lt_add_of_pos_right (Nat.two_pow_pos _), ?_⟩
  have hlt := pairLow_add_lt hbit (by omega) hi
  rwa [← hcount] at hlt

end Sys2Proof.Machine
end

section
/-! PROOFS. The butterfly (41_ntt_stage.md R172): what each of the two cells holds after it, and that it leaves the
others alone. -/

namespace Sys2Proof.Machine

variable {p : Nat} {o : NttOperands} {gm : List (Nat × Nat)} {rnd : Nat} {u : List Nat} {i : U32}

theorem twisted_of_ne_zero {di : U32} {d : Nat} (h : di ≠ 0) :
    twisted p o gm rnd di d = fmul p (valueAt p gm (elemAddr o.pq (pqIndex di rnd (nttPqshift o)))) d := if_pos h

/-- At digit index 0 no entry of `pq` is read. -/
theorem twisted_zero {d : Nat} : twisted p o gm rnd 0 d = d := rfl

theorem butterfly_low (hne : (pairLow (nttBit o rnd) i).toNat ≠ (pairHigh (nttBit o rnd) i).toNat)
    (hlow : (pairLow (nttBit o rnd) i).toNat < u.length) :
    (butterfly p o gm rnd u i)[(pairLow (nttBit o rnd) i).toNat]? =
      some (fadd p (cellOf p u (pairLow (nttBit o rnd) i)) (cellOf p u (pairHigh (nttBit o rnd) i))) := by
  rw [butterfly, List.getElem?_set_ne hne.symm, List.getElem?_set_self hlow]

theorem butterfly_high (hhigh : (pairHigh (nttBit o rnd) i).toNat < u.length) :
    (butterfly p o gm rnd u i)[(pairHigh (nttBit o rnd) i).toNat]? =
      some (twisted p o gm rnd (pairDi (nttBit o rnd) i)
        (fsub p (cellOf p u (pairLow (nttBit o rnd) i)) (cellOf p u (pairHigh (nttBit o rnd) i)))) := by
  rw [butterfly, List.getElem?_set_self (by rwa [List.length_set])]

theorem butterfly_other {x : Nat} (hlow : x ≠ (pairLow (nttBit o rnd) i).toNat)
    (hhigh : x ≠ (pairHigh (nttBit o rnd) i).toNat) : (butterfly p o gm rnd u i)[x]? = u[x]? := by
  rw [butterfly, List.getElem?_set_ne hhigh.symm, List.getElem?_set_ne hlow.symm]

/-- Settles O23: the two cells are different cells of the group, so the second write keeps the sum. -/
theorem butterflyOfAPair : Obligations.ButterflyOfAPair := by
  intro c o p gm rnd u i hok hrnd hi hu
  obtain ⟨-, -, hdegMax, hmax, -⟩ := nttParamsOk_iff.mp hok
  obtain ⟨hlt, hhigh⟩ := pairLow_lt_pairHigh_lt_count (hdegMax.trans hmax) hrnd hi
  rw [← hu] at hhigh
  refine ⟨butterfly_low hlt.ne (hlt.trans hhigh), fun hdi => ?_, fun hdi => ?_, fun _ => butterfly_other⟩
  · rw [butterfly_high hhigh, twisted_of_ne_zero hdi, pqIndex]
  · rw [butterfly_high hhigh, hdi, twisted_zero]

end Sys2Proof.Machine
end

section
/-! PROOFS. The preconditions of `LOOKUP_EVAL` (44_lookup_eval.md R223) as statements about exponents, and the sizes
they give. -/

namespace Sys2Proof.Machine

/-- `lookupParamsOk` is P1 to P3, in the order of R223. -/
theorem lookupParamsOk_iff {o : LookupOperands} :
    lookupParamsOk o = true ↔
      (∃ k, k ≤ 31 ∧ o.size.toNat = 2 ^ k) ∧ (∃ r, r ≤ 31 ∧ o.rotScale.toNat = 2 ^ r) ∧
        o.rotScale.toNat < o.size.toNat := by
  simp only [lookupParamsOk, Bool.and_eq_true, decide_eq_true_eq, isPow2_iff, and_assoc]

/-- The exponent of `rot_scale` is below that of `size`, hence at most 30. -/
theorem bounds_of_lookupParamsOk {o : LookupOperands} (hok : lookupParamsOk o = true) :
    2 ≤ o.size.toNat ∧ o.size.toNat ≤ 2 ^ 31 ∧ 1 ≤ o.rotScale.toNat ∧ o.rotScale.toNat ≤ 2 ^ 30 := by
  obtain ⟨⟨k, hk, hsize⟩, ⟨r, -, hrot⟩, hlt⟩ := lookupParamsOk_iff.mp hok
  have hrk : r < k := (Nat.pow_lt_pow_iff_right Nat.one_lt_two).mp (hrot ▸ hsize ▸ hlt)
  have hsizeLe : o.size.toNat ≤ 2 ^ 31 := hsize ▸ Nat.pow_le_pow_right Nat.two_pos hk
  have hrotPos : 1 ≤ o.rotScale.toNat := hrot ▸ Nat.one_le_two_pow
  have hrotLe : o.rotScale.toNat ≤ 2 ^ 30 := hrot ▸ Nat.pow_le_pow_right Nat.two_pos (by omega)
  exact ⟨hrotPos.trans_lt hlt, hsizeLe, hrotPos, hrotLe⟩

theorem exec_lookupEval (o : LookupOperands) (s : State) :
    exec (.lookupEval o) s =
      startLaunch (lookupRequest o) (newLookupLaunch o) (lookupMemory s.cfg.pMod o s.gm) s := rfl

/-- Settles O36: each precondition is a test of `lookupParamsOk`, and admission makes that test before the others. -/
theorem lookupPreconditions : Obligations.LookupPreconditions := by
  refine fun s o => ⟨lookupParamsOk_iff, bounds_of_lookupParamsOk, fun hidle hbad => ?_⟩
  rw [exec_lookupEval]
  exact startLaunch_refused hidle (admission_of_paramsOk_eq_false hbad)

end Sys2Proof.Machine
end

section
/-! PROOFS. The rotated indices of `LOOKUP_EVAL` (44_lookup_eval.md R225): a mask by `size - 1` is the remainder by
`size`, and the sums under the mask do not wrap. -/

namespace Sys2Proof.Machine

theorem toNat_and_size_sub_one {o : LookupOperands} (hok : lookupParamsOk o = true) (x : U32) :
    (x &&& (o.size - 1)).toNat = x.toNat % o.size.toNat := by
  obtain ⟨⟨k, -, hsize⟩, -⟩ := lookupParamsOk_iff.mp hok
  rw [hsize]
  exact toNat_pairDi hsize

section
variable {o : LookupOperands} {idx : U32} (hok : lookupParamsOk o = true) (hidx : idx.toNat < o.size.toNat)
include hok hidx

theorem toNat_idx_add_rotScale : (idx + o.rotScale).toNat = idx.toNat + o.rotScale.toNat := by
  obtain ⟨-, hsize, -, hrot⟩ := bounds_of_lookupParamsOk hok
  exact BitVec.toNat_add_of_lt (by omega)

theorem toNat_idx_add_size : (idx + o.size).toNat = idx.toNat + o.size.toNat := by
  obtain ⟨-, hsize, -, -⟩ := bounds_of_lookupParamsOk hok
  exact BitVec.toNat_add_of_lt (by omega)

theorem toNat_idx_add_size_sub_rotScale :
    (idx + o.size - o.rotScale).toNat = idx.toNat + o.size.toNat - o.rotScale.toNat := by
  obtain ⟨-, -, hlt⟩ := lookupParamsOk_iff.mp hok
  have hsum := toNat_idx_add_size hok hidx
  rw [← hsum]
  exact BitVec.toNat_sub_of_le (BitVec.le_def.mpr (by omega))

theorem toNat_lookupNext : (lookupNext o idx).toNat = (idx.toNat + o.rotScale.toNat) % o.size.toNat := by
  rw [lookupNext, toNat_and_size_sub_one hok, toNat_idx_add_rotScale hok hidx]

theorem toNat_lookupPrev :
    (lookupPrev o idx).toNat = (idx.toNat + o.size.toNat - o.rotScale.toNat) % o.size.toNat := by
  rw [lookupPrev, toNat_and_size_sub_one hok, toNat_idx_add_size_sub_rotScale hok hidx]

end

/-- Settles O15: the masks are remainders, of sums that do not wrap; the example of R225 by evaluation. -/
theorem rotationIsCyclic : Obligations.RotationIsCyclic := by
  constructor
  · exact fun o idx hok hidx => ⟨rfl, rfl, toNat_idx_add_rotScale hok hidx, toNat_idx_add_size hok hidx,
      toNat_idx_add_size_sub_rotScale hok hidx, toNat_lookupNext hok hidx, toNat_lookupPrev hok hidx⟩
  · intro o hsize hrot
    rw [lookupNext, lookupPrev, hsize, hrot]
    decide

end Sys2Proof.Machine
end

section
/-! PROOFS. Fault entry and `CLEAR` (60_exceptions.md R256, R273): what each does to the whole state, and which `CTRL`
write is `CLEAR` alone. -/

namespace Sys2Proof.Machine

/-- Fault entry as one update: a field it does not name is that of the state before. -/
theorem enterFault_eq (s : State) (code : FaultCode) :
    s.enterFault code = { s with status := .fault, cause := code } := rfl

/-- Settles O44: fault entry is one update of two fields, and each field is read off from it. -/
theorem faultEntryRecordsTheCodeOnly : Obligations.FaultEntryRecordsTheCodeOnly :=
  fun s code => ⟨enterFault_status s code, enterFault_cause s code, enterFault_desc s code, enterFault_launch s code,
    enterFault_gm s code, enterFault_eq s code⟩

theorem clear_of_done {s : State} (h : s.status = .done) : s.clear = { s with status := .idle } := by
  rw [clear_eq, if_pos h]

theorem clear_of_ne_done {s : State} (h : s.status ≠ .done) : s.clear = s := by
  rw [clear_eq, if_neg h]

theorem acceptsWrites_of_done {s : State} (h : s.status = .done) : s.acceptsWrites = true := by
  rw [State.acceptsWrites, h]

theorem writeCtrl_of_not_acceptsWrites {s : State} (h : ¬ s.acceptsWrites) (v : Word) : s.writeCtrl v = .next s := by
  rw [State.writeCtrl, if_neg h]

/-- A write with bit 1 set and bit 0 not is `CLEAR`, also where the window ignores the write: `CLEAR` does nothing
there (10_state.md R25). -/
theorem writeCtrl_eq_next_clear (s : State) {v : Word} (hclear : v.getLsbD 1 = true) (hstart : ¬ v.getLsbD 0 = true) :
    s.writeCtrl v = .next s.clear := by
  by_cases hacc : s.acceptsWrites
  · simp only [State.writeCtrl, if_pos hacc, if_pos hclear, if_neg hstart]
  · have hnot : s.status ≠ .done := fun hdone => hacc (acceptsWrites_of_done hdone)
    rw [writeCtrl_of_not_acceptsWrites hacc, clear_of_ne_done hnot]

/-- Settles O52: the states in which `CTRL` ignores a write are among those in which `CLEAR` changes nothing. -/
theorem clearAcknowledges : Obligations.ClearAcknowledges :=
  fun s => ⟨clear_of_done, clear_of_ne_done, writeCtrl_eq_next_clear s (by decide) (by decide)⟩

end Sys2Proof.Machine
end

section
/-! PROOFS. The descriptor decoder and the encoder (30_encoding.md R100 to R110): word 0 fixes the command, and each format
is the list of a command's words read back. -/

namespace Sys2Proof.Machine

/-! ### Words and addresses -/

@[simp] theorem addrOf_addrLo_addrHi (a : Addr) : addrOf (addrLo a) (addrHi a) = a := by
  have hlo : (addrLo a).toNat = a.toNat % 2 ^ 32 := by simp [addrLo]
  have hhi : (addrHi a).toNat = a.toNat / 2 ^ 32 := by
    simp only [addrHi, BitVec.extractLsb'_toNat, Nat.shiftRight_eq_div_pow]
    omega
  apply BitVec.eq_of_toNat_eq
  rw [addrOf, BitVec.toNat_append, hlo, hhi, ← Nat.shiftLeft_add_eq_or_of_lt (by omega), Nat.shiftLeft_eq]
  omega

theorem toNat_addrOf (lo hi : Word) : (addrOf lo hi).toNat = hi.toNat * 2 ^ 32 + lo.toNat := by
  rw [addrOf, BitVec.toNat_append, ← Nat.shiftLeft_add_eq_or_of_lt lo.isLt, Nat.shiftLeft_eq]

@[simp] theorem addrLo_addrOf (lo hi : Word) : addrLo (addrOf lo hi) = lo := by
  apply BitVec.eq_of_toNat_eq
  simp only [addrLo, BitVec.extractLsb'_toNat, toNat_addrOf]
  omega

@[simp] theorem addrHi_addrOf (lo hi : Word) : addrHi (addrOf lo hi) = hi := by
  apply BitVec.eq_of_toNat_eq
  simp only [addrHi, BitVec.extractLsb'_toNat, toNat_addrOf, Nat.shiftRight_eq_div_pow]
  omega

/-- Word 0 is its opcode when its reserved bits are zero (30_encoding.md R101). -/
theorem toNat_opcodeField_of_reservedField {w : Word} (h : reservedField w = 0) : (opcodeField w).toNat = w.toNat := by
  have hres : (reservedField w).toNat = 0 := congrArg BitVec.toNat h
  simp only [reservedField, opcodeField, BitVec.extractLsb'_toNat, Nat.shiftRight_eq_div_pow] at hres ⊢
  omega

theorem reservedField_opcodeField_iff {w : Word} {code : BitVec 8} :
    reservedField w = 0 ∧ opcodeField w = code ↔ w.toNat = code.toNat := by
  constructor
  · rintro ⟨hres, rfl⟩
    exact (toNat_opcodeField_of_reservedField hres).symm
  · intro h
    have hres : reservedField w = 0 := by
      apply BitVec.eq_of_toNat_eq
      change (reservedField w).toNat = 0
      simp only [reservedField, BitVec.extractLsb'_toNat, Nat.shiftRight_eq_div_pow]
      omega
    exact ⟨hres, BitVec.eq_of_toNat_eq ((toNat_opcodeField_of_reservedField hres).trans h)⟩

/-! ### The words a command needs -/

theorem takeWritten_map_some_append (vs : List Word) (rest : List (Option Word)) :
    takeWritten vs.length (vs.map some ++ rest) = some vs := by
  induction vs with
  | nil => rfl
  | cons v vs ih => simp [takeWritten, ih]

theorem takeWritten_eq_some {k : Nat} {ws : List (Option Word)} {vs : List Word} (h : takeWritten k ws = some vs) :
    vs.length = k ∧ ∃ rest, ws = vs.map some ++ rest := by
  induction k generalizing ws vs with
  | zero => cases h; exact ⟨rfl, ws, rfl⟩
  | succ k ih =>
    match ws, h with
    | some w :: ws, h =>
      obtain ⟨us, hus, rfl⟩ := Option.map_eq_some_iff.mp h
      obtain ⟨hlen, rest, rfl⟩ := ih hus
      exact ⟨congrArg (· + 1) hlen, rest, rfl⟩

theorem takeWritten_eq_none {k j : Nat} {ws : List (Option Word)} (hj : j < k) (h : ws[j]?.getD none = none) :
    takeWritten k ws = none := by
  cases htake : takeWritten k ws with
  | none => rfl
  | some vs =>
    obtain ⟨rfl, rest, rfl⟩ := takeWritten_eq_some htake
    simp [List.getElem?_append_left, hj] at h

/-! ### One command's words -/

theorem decodeOperands_eq_ok {α : Type} {k : Nat} {format : List Word → Option α} {mk : α → Instr}
    {rest : List (Option Word)} {i : Instr} :
    decodeOperands k format mk rest = .ok i ↔ ∃ vs o, takeWritten k rest = some vs ∧ format vs = some o ∧ mk o = i := by
  unfold decodeOperands
  cases takeWritten k rest with
  | none => simp
  | some vs => cases h : format vs <;> simp [h]

theorem decodeOperands_eq_unwritten {α : Type} {k : Nat} {format : List Word → Option α} {mk : α → Instr}
    {rest : List (Option Word)} (h : takeWritten k rest = none) :
    decodeOperands k format mk rest = .error .unwritten := by
  simp [decodeOperands, h]

theorem decodeOperands_ne_illegalOpcode {α : Type} {k : Nat} {format : List Word → Option α} {mk : α → Instr}
    {rest : List (Option Word)} : decodeOperands k format mk rest ≠ .error .illegalOpcode := by
  unfold decodeOperands
  split <;> simp

theorem decodeOperands_map_some_append {α : Type} {format : List Word → Option α} {mk : α → Instr} {vs : List Word}
    {o : α} {k : Nat} (rest : List (Option Word)) (hk : vs.length = k) (h : format vs = some o) :
    decodeOperands k format mk (vs.map some ++ rest) = .ok (mk o) :=
  decodeOperands_eq_ok.mpr ⟨vs, o, hk ▸ takeWritten_map_some_append vs rest, h, rfl⟩

theorem encode_of_decodeFormatN {vs : List Word} {o : NttOperands} (h : decodeFormatN vs = some o) :
    encode (.nttStage o) = 1 :: vs := by
  unfold decodeFormatN at h
  split at h
  · cases h; simp [encode]
  · cases h

theorem encode_of_decodeFormatS {vs : List Word} {o : ScalarOperands} (h : decodeFormatS vs = some o) :
    encode (.scalarMul o) = 2 :: vs ∧ o.scalar.length + 3 = vs.length := by
  unfold decodeFormatS at h
  split at h
  · cases h; simp [encode]
  · cases h

theorem encode_of_decodeFormatL {vs : List Word} {o : LookupOperands} (h : decodeFormatL vs = some o) :
    encode (.lookupEval o) = 3 :: vs := by
  unfold decodeFormatL at h
  split at h
  · cases h; simp [encode]
  · cases h

theorem decodeFormatN_tail_encode (o : NttOperands) : decodeFormatN (encode (.nttStage o)).tail = some o := by
  simp [encode, decodeFormatN]

theorem decodeFormatS_tail_encode (o : ScalarOperands) : decodeFormatS (encode (.scalarMul o)).tail = some o := by
  simp [encode, decodeFormatS]

theorem decodeFormatL_tail_encode (o : LookupOperands) : decodeFormatL (encode (.lookupEval o)).tail = some o := by
  simp [encode, decodeFormatL]

/-! ### Word 0 -/

variable {fw : Nat} {rest : List (Option Word)}

theorem decode_some_cons (w : Word) :
    decode fw (some w :: rest) =
      if w = 1 then decodeOperands 13 decodeFormatN .nttStage rest
      else if w = 2 then decodeOperands (3 + fw) decodeFormatS .scalarMul rest
      else if w = 3 then decodeOperands 20 decodeFormatL .lookupEval rest
      else .error .illegalOpcode := by
  have hword (v : Word) (code : BitVec 8) (hv : v.toNat = code.toNat) :
      w = v ↔ reservedField w = 0 ∧ opcodeField w = code := by
    rw [reservedField_opcodeField_iff, ← hv, BitVec.toNat_inj]
  simp only [hword 1 0x01 rfl, hword 2 0x02 rfl, hword 3 0x03 rfl, decode]
  by_cases hres : reservedField w = 0 <;> simp only [hres, ne_eq, not_true, not_false_eq_true, if_true, if_false,
    true_and, false_and]

theorem decode_one_cons : decode fw (some 1 :: rest) = decodeOperands 13 decodeFormatN .nttStage rest := by
  rw [decode_some_cons, if_pos rfl]

theorem decode_two_cons : decode fw (some 2 :: rest) = decodeOperands (3 + fw) decodeFormatS .scalarMul rest := by
  rw [decode_some_cons, if_neg (by decide), if_pos rfl]

theorem decode_three_cons : decode fw (some 3 :: rest) = decodeOperands 20 decodeFormatL .lookupEval rest := by
  rw [decode_some_cons, if_neg (by decide), if_neg (by decide), if_pos rfl]

theorem decode_illegal {w : Word} (h1 : w ≠ 1) (h2 : w ≠ 2) (h3 : w ≠ 3) :
    decode fw (some w :: rest) = .error .illegalOpcode := by
  rw [decode_some_cons, if_neg h1, if_neg h2, if_neg h3]

/-- A word 0 is one of the three opcodes or illegal. -/
theorem word_zero_cases (w : Word) : w = 1 ∨ w = 2 ∨ w = 3 ∨ w ≠ 1 ∧ w ≠ 2 ∧ w ≠ 3 := by
  tauto

/-! ### The obligations -/

/-- Settles O1: the words after word 0 are all written and as many as the opcode asks for, and the format reads them
back. -/
theorem decodeUndoesEncode : Obligations.DecodeUndoesEncode := by
  intro c i rest hwf
  cases i with
  | nttStage o => exact decode_one_cons.trans (decodeOperands_map_some_append rest rfl (decodeFormatN_tail_encode o))
  | scalarMul o =>
    have hlen : (encode (.scalarMul o)).tail.length = 3 + c.fieldWords := by
      rw [← show o.scalar.length = c.fieldWords from hwf]
      simp only [encode, List.cons_append, List.nil_append, List.tail_cons, List.length_cons]
      omega
    exact decode_two_cons.trans (decodeOperands_map_some_append rest hlen (decodeFormatS_tail_encode o))
  | lookupEval o =>
    exact decode_three_cons.trans (decodeOperands_map_some_append rest rfl (decodeFormatL_tail_encode o))

/-- Settles O2: by word 0, then by the format's own inverse. -/
theorem encodeUndoesDecode : Obligations.EncodeUndoesDecode := by
  intro c ws i h
  match ws, h with
  | some w :: ws, h =>
    obtain rfl | rfl | rfl | ⟨h1, h2, h3⟩ := word_zero_cases w
    · obtain ⟨vs, o, htake, hformat, rfl⟩ := decodeOperands_eq_ok.mp (decode_one_cons.symm.trans h)
      obtain ⟨-, rest, rfl⟩ := takeWritten_eq_some htake
      exact ⟨trivial, rest, by simp [encode_of_decodeFormatN hformat]⟩
    · obtain ⟨vs, o, htake, hformat, rfl⟩ := decodeOperands_eq_ok.mp (decode_two_cons.symm.trans h)
      obtain ⟨hlen, rest, rfl⟩ := takeWritten_eq_some htake
      obtain ⟨hwords, hscalar⟩ := encode_of_decodeFormatS hformat
      exact ⟨show o.scalar.length = c.fieldWords by omega, rest, by simp [hwords]⟩
    · obtain ⟨vs, o, htake, hformat, rfl⟩ := decodeOperands_eq_ok.mp (decode_three_cons.symm.trans h)
      obtain ⟨-, rest, rfl⟩ := takeWritten_eq_some htake
      exact ⟨trivial, rest, by simp [encode_of_decodeFormatL hformat]⟩
    · rw [decode_illegal h1 h2 h3] at h
      cases h

/-- Settles O3: the decoder evaluated on the descriptors of 95_test_vectors.md. -/
theorem programDescriptorsDecode : Obligations.ProgramDescriptorsDecode := ⟨rfl, rfl, rfl⟩

/-- Settles O4: the decoder looks at word 0 first, and the operand formats never answer `ILLEGAL_OPCODE`. -/
theorem wordZeroDecidesTheCommand : Obligations.WordZeroDecidesTheCommand := by
  intro fw w rest
  obtain rfl | rfl | rfl | ⟨h1, h2, h3⟩ := word_zero_cases w
  · refine ⟨iff_of_false (decode_one_cons ▸ decodeOperands_ne_illegalOpcode) (by simp), fun i h => ?_⟩
    obtain ⟨-, o, -, -, rfl⟩ := decodeOperands_eq_ok.mp (decode_one_cons.symm.trans h)
    exact .inl ⟨rfl, o, rfl⟩
  · refine ⟨iff_of_false (decode_two_cons ▸ decodeOperands_ne_illegalOpcode) (by simp), fun i h => ?_⟩
    obtain ⟨-, o, -, -, rfl⟩ := decodeOperands_eq_ok.mp (decode_two_cons.symm.trans h)
    exact .inr (.inl ⟨rfl, o, rfl⟩)
  · refine ⟨iff_of_false (decode_three_cons ▸ decodeOperands_ne_illegalOpcode) (by simp), fun i h => ?_⟩
    obtain ⟨-, o, -, -, rfl⟩ := decodeOperands_eq_ok.mp (decode_three_cons.symm.trans h)
    exact .inr (.inr ⟨rfl, o, rfl⟩)
  · refine ⟨iff_of_true (decode_illegal h1 h2 h3) ⟨h1, h2, h3⟩, fun i h => ?_⟩
    rw [decode_illegal h1 h2 h3] at h
    cases h

/-- `START` from `IDLE` of a descriptor that names no command (60_exceptions.md R252 steps 1 to 3). -/
theorem start_of_decode_error {s : State} {e : DecodeError} (hs : s.status = .idle)
    (h : decode s.cfg.fieldWords s.desc.toList = .error e) : s.start = .next (s.enterFault (decodeFault e)) := by
  simp [State.start, hs, h]

theorem start_of_decode_ok {s : State} {i : Instr} (hs : s.status = .idle)
    (h : decode s.cfg.fieldWords s.desc.toList = .ok i) : s.start = exec i s := by
  simp [State.start, hs, h]

theorem decode_of_head_unwritten {ws : List (Option Word)} (h : ws[0]?.getD none = none) :
    decode fw ws = .error .unwritten := by
  cases ws with
  | nil => rfl
  | cons d ws =>
    cases d with
    | none => rfl
    | some w => cases h

theorem eq_some_cons_of_head {ws : List (Option Word)} {w : Word} (h : ws[0]?.getD none = some w) :
    ∃ rest, ws = some w :: rest := by
  cases ws with
  | nil => cases h
  | cons d ws => exact ⟨ws, by simpa using h⟩

/-- A needed word after a legal word 0 holds no value (60_exceptions.md R252 step 3). -/
theorem decode_of_later_unwritten {w : Word} {len k : Nat}
    (hlen : w = 1 ∧ len = 14 ∨ w = 2 ∧ len = 4 + fw ∨ w = 3 ∧ len = 21) (hk : k + 1 < len)
    (h : rest[k]?.getD none = none) : decode fw (some w :: rest) = .error .unwritten := by
  obtain ⟨rfl, rfl⟩ | ⟨rfl, rfl⟩ | ⟨rfl, rfl⟩ := hlen
  · exact decode_one_cons.trans (decodeOperands_eq_unwritten (takeWritten_eq_none (by omega) h))
  · exact decode_two_cons.trans (decodeOperands_eq_unwritten (takeWritten_eq_none (by omega) h))
  · exact decode_three_cons.trans (decodeOperands_eq_unwritten (takeWritten_eq_none (by omega) h))

/-- Settles O5: the decoder's error is the fault, and it looks at word 0 before the words after it. -/
theorem unreadableDescriptorFaults : Obligations.UnreadableDescriptorFaults := by
  intro s hs
  refine ⟨fun h => start_of_decode_error hs (decode_of_head_unwritten h), fun w h h1 h2 h3 => ?_,
    fun w len k h hlen hk hnone => ?_⟩
  · obtain ⟨rest, hws⟩ := eq_some_cons_of_head h
    exact start_of_decode_error hs (hws ▸ decode_illegal h1 h2 h3)
  · obtain ⟨rest, hws⟩ := eq_some_cons_of_head h
    cases k with
    | zero => rw [hnone] at h; cases h
    | succ k =>
      rw [State.descWord, hws, List.getElem?_cons_succ] at hnone
      exact start_of_decode_error hs (hws ▸ decode_of_later_unwritten hlen hk hnone)

end Sys2Proof.Machine
end

section
/-! PROOFS. The register window (10_state.md R24 to R29, 60_exceptions.md R271 to R274): which accesses have a meaning, what
a write to each word does, and the values after reset. -/

namespace Sys2Proof.Machine

/-! ### The window -/

theorem windowIndex_eq_some {c : Params} {addr bytes k : Nat} :
    windowIndex c addr bytes = some k ↔ bytes = 4 ∧ addr = c.regBase + 4 * k ∧ k < 64 := by
  unfold windowIndex
  split <;> simp only [Option.some.injEq, reduceCtorEq, false_iff] <;> omega

theorem windowIndex_word {c : Params} {k : Nat} (hk : k < 64) : windowIndex c (c.regBase + 4 * k) 4 = some k :=
  windowIndex_eq_some.mpr ⟨rfl, rfl, hk⟩

theorem windowIndex_regBase {c : Params} : windowIndex c c.regBase 4 = some 0 := windowIndex_word (k := 0) (by decide)

theorem hostPerform_regWrite {s : State} {addr bytes k : Nat} (v : Word) (h : windowIndex s.cfg addr bytes = some k) :
    hostPerform (.regWrite addr bytes v) s = (s.noted k v).writeRegister k v := by
  rw [hostPerform, h]

theorem hostPerform_regRead {s : State} {addr bytes k : Nat} (h : windowIndex s.cfg addr bytes = some k) :
    hostPerform (.regRead addr bytes) s = .next (s.readRegister k) := by
  rw [hostPerform, h]

theorem writeRegister_ctrl (s : State) (v : Word) : s.writeRegister 0 v = s.writeCtrl v := rfl

theorem writeRegister_desc {s : State} {k : Nat} (v : Word) (hk : 32 ≤ k) :
    s.writeRegister k v = .next (s.writeDesc (k - 32) v) := by
  rw [State.writeRegister, if_neg (show ¬ k = 0 by omega), if_pos hk]

/-- `STATUS`, `FAULT_CAUSE` and reserved words (60_exceptions.md R274). -/
theorem writeRegister_ignored {s : State} {k : Nat} (v : Word) (hpos : 1 ≤ k) (hk : k < 32) :
    s.writeRegister k v = .next s := by
  rw [State.writeRegister, if_neg (show ¬ k = 0 by omega), if_neg (show ¬ 32 ≤ k by omega)]

theorem noted_of_ne_ctrl {s : State} {k : Nat} (v : Word) (hk : k ≠ 0) : s.noted k v = s :=
  noted_eq_self fun h => hk h.1

theorem windowRead_reserved {s : State} {k : Nat} (hk : k = 0 ∨ 3 ≤ k ∧ k < 32) : s.windowRead k = 0 := by
  rw [State.windowRead, if_neg (show ¬ k = 1 by omega), if_neg (show ¬ k = 2 by omega),
    if_neg (show ¬ 32 ≤ k by omega)]

theorem windowRead_desc {s : State} {k : Nat} (hk : 32 ≤ k) :
    s.windowRead k = (s.descWord (k - 32)).getD (Config.freeWord s.draws) := by
  rw [State.windowRead, if_neg (show ¬ k = 1 by omega), if_neg (show ¬ k = 2 by omega), if_pos hk]

/-! ### Which writes act -/

theorem acceptsWrites_iff {s : State} : s.acceptsWrites = true ↔ s.status = .idle ∨ s.status = .done := by
  unfold State.acceptsWrites
  cases s.status <;> simp

theorem not_acceptsWrites {s : State} (h : s.status = .busy ∨ s.status = .fault) : ¬ s.acceptsWrites := by
  rw [acceptsWrites_iff]
  obtain h | h := h <;> simp [h]

theorem writeDesc_of_not_acceptsWrites {s : State} (h : ¬ s.acceptsWrites) (i : Nat) (v : Word) :
    s.writeDesc i v = s := by
  rw [State.writeDesc, if_neg h]

theorem writeDesc_of_acceptsWrites {s : State} (h : s.acceptsWrites) (i : Nat) (v : Word) :
    s.writeDesc i v = { s with desc := s.desc.setIfInBounds i (some v) } := by
  rw [State.writeDesc, if_pos h]

theorem descWord_setIfInBounds (s : State) (i j : Nat) (v : Word) :
    ({ s with desc := s.desc.setIfInBounds i (some v) } : State).descWord j =
      if i = j ∧ i < 32 then some v else s.descWord j := by
  simp only [State.descWord, Vector.toList_setIfInBounds, List.getElem?_set, Vector.length_toList]
  by_cases hij : i = j
  · subst hij
    by_cases hi : i < 32
    · simp [hi]
    · simp [hi]
  · simp [hij]

/-! ### `START` -/

theorem startLaunch_of_ne_idle {r : Request} {l : Launch} {gm : List (Nat × Nat)} {s : State} (hs : s.status ≠ .idle) :
    startLaunch r l gm s = .next s := by
  unfold startLaunch
  cases h : s.status <;> simp_all

theorem start_of_ne_idle {s : State} (hs : s.status ≠ .idle) : s.start = .next s := by
  unfold State.start
  cases h : s.status <;> simp_all

theorem exec_of_ne_idle (i : Instr) {s : State} (hs : s.status ≠ .idle) : exec i s = .next s := by
  cases i <;> exact startLaunch_of_ne_idle hs

/-- Settles O45: `START` looks at the state first. -/
theorem startIsDroppedUnlessIdle : Obligations.StartIsDroppedUnlessIdle :=
  fun i _ hs => ⟨exec_of_ne_idle i hs, start_of_ne_idle hs⟩

theorem writeCtrl_start_of_idle {s : State} {v : Word} (hs : s.status = .idle) (hv : v.getLsbD 0 = true) :
    s.writeCtrl v = s.start := by
  have hclear : s.clear = s := clear_of_ne_done (by simp [hs])
  simp only [State.writeCtrl, acceptsWrites_iff.mpr (.inl hs), hv, hclear, ite_self, if_true]

/-- `CLEAR` and `START` in one write (log 23). -/
theorem writeCtrl_clear_start_of_done {s : State} {v : Word} (hs : s.status = .done) (hclear : v.getLsbD 1 = true)
    (hv : v.getLsbD 0 = true) : s.writeCtrl v = ({ s with status := .idle } : State).start := by
  simp only [State.writeCtrl, acceptsWrites_of_done hs, hv, hclear, clear_of_done hs, if_true]

/-- `START` alone is dropped in `DONE`. -/
theorem writeCtrl_start_of_done {s : State} {v : Word} (hs : s.status = .done) (hclear : v.getLsbD 1 = false)
    (hv : v.getLsbD 0 = true) : s.writeCtrl v = .next s := by
  simp only [State.writeCtrl, acceptsWrites_of_done hs, hv, hclear, if_true, if_false, Bool.false_eq_true]
  exact start_of_ne_idle (by simp [hs])

theorem writeCtrl_no_bits {s : State} {v : Word} (hclear : v.getLsbD 1 = false) (hv : v.getLsbD 0 = false) :
    s.writeCtrl v = .next s := by
  simp only [State.writeCtrl, hclear, hv, Bool.false_eq_true, if_false, ite_self]

theorem noted_start_of_idle {s : State} {v : Word} (hs : s.status = .idle) (hv : v.getLsbD 0 = true) :
    s.noted 0 v = { s with run := s.run.starting .idle } := by
  have hclear : s.clear = s := clear_of_ne_done (by simp [hs])
  simp [State.noted, hv, hclear, hs]

theorem noted_clear_start_of_done {s : State} {v : Word} (hs : s.status = .done) (hclear : v.getLsbD 1 = true)
    (hv : v.getLsbD 0 = true) : s.noted 0 v = { s with run := s.run.starting .idle } := by
  simp [State.noted, hv, hclear, clear_of_done hs]

/-- A `START` that `CLEAR` of the same write does not make possible. -/
theorem noted_dropped {s : State} {v : Word} (hs : s.status ≠ .done ∨ v.getLsbD 1 = false) (hv : v.getLsbD 0 = true) :
    s.noted 0 v = { s with run := s.run.starting s.status } := by
  have hstatus : (if v.getLsbD 1 then s.clear else s).status = s.status := by
    obtain hs | hs := hs
    · rw [clear_of_ne_done hs, ite_self]
    · simp only [hs, Bool.false_eq_true, if_false]
  simp only [State.noted, hv, hstatus, and_self, if_true]

/-- Settles O6: the write reaches `CTRL`, which the state accepts, and `START` decodes the descriptor. -/
theorem stepRunsTheDecodedCommand : Obligations.StepRunsTheDecodedCommand := by
  intro s i rest v hlaunch hdecode hhost hv
  have hstep : step s = ((s.withHost rest).noted 0 v).writeCtrl v := by
    simp only [step, hlaunch, quietStep, hostMove, hhost]
    exact hostPerform_regWrite v windowIndex_regBase
  constructor
  · intro hs
    rw [hstep, writeCtrl_start_of_idle (by exact hs) hv, noted_start_of_idle (by exact hs) hv]
    exact start_of_decode_ok hs hdecode
  · intro hs hclear
    rw [hstep, writeCtrl_clear_start_of_done (by exact hs) hclear hv,
      noted_clear_start_of_done (by exact hs) hclear hv]
    exact start_of_decode_ok rfl hdecode

/-! ### What the host reads and writes -/

/-- Settles O48: the words by the ranges of `windowRead`, the rest by the read's one update. -/
theorem registerReads : Obligations.RegisterReads := by
  refine ⟨⟨rfl, rfl, rfl, rfl⟩, ⟨rfl, rfl, rfl, rfl, rfl, rfl, rfl⟩, fun s k hk => ?_⟩
  refine ⟨s.readRegister k, hostPerform_regRead (windowIndex_word hk), rfl, ?_, ?_, ?_, ?_, ?_, ?_⟩
  · rintro rfl
    simp
  · intro hne
    simp [hne]
  · rintro rfl
    rfl
  · rintro rfl
    rfl
  · intro hrange
    exact windowRead_reserved hrange
  · intro w hle hw
    rw [readRegister_rdata, windowRead_desc hle, hw, Option.getD_some]

/-- Settles O49: such an access has no word index. -/
theorem otherRegisterAccessesAreRefused : Obligations.OtherRegisterAccessesAreRefused := by
  intro s addr bytes v h
  have hnone : windowIndex s.cfg addr bytes = none := by
    rw [windowIndex, if_neg (by omega)]
  exact ⟨by rw [hostPerform, hnone], by rw [hostPerform, hnone]⟩

/-- Settles O50: by the word written, `CTRL`, the words without a register, and `DESC`. -/
theorem ignoredRegisterWrites : Obligations.IgnoredRegisterWrites := by
  intro s k v hk hignored
  rw [hostPerform_regWrite v (windowIndex_word hk)]
  constructor
  · intro hne
    rw [noted_of_ne_ctrl v hne]
    obtain hlow | hhigh := Nat.lt_or_ge k 32
    · exact writeRegister_ignored v (by omega) hlow
    · have hstate : s.status = .busy ∨ s.status = .fault := hignored.resolve_left (by omega)
      rw [writeRegister_desc v hhigh, writeDesc_of_not_acceptsWrites (not_acceptsWrites hstate)]
  · rintro rfl
    have hstate : s.status = .busy ∨ s.status = .fault := hignored.resolve_left (by omega)
    have hnot : ¬ (s.noted 0 v).acceptsWrites := not_acceptsWrites hstate
    rw [writeRegister_ctrl, writeCtrl_of_not_acceptsWrites hnot]
    cases hv : v.getLsbD 0
    · rw [noted_eq_self (fun h => Bool.eq_false_iff.mp hv h.2)]
      rfl
    · rw [noted_dropped (.inl (by obtain h | h := hstate <;> simp [h])) hv]
      rfl

/-- Settles O51: the write replaces one entry of the descriptor. -/
theorem descriptorWriteSetsOneWord : Obligations.DescriptorWriteSetsOneWord := by
  intro s i v hi hs
  have hindex : windowIndex s.cfg (s.cfg.regBase + 0x80 + 4 * i) 4 = some (32 + i) :=
    windowIndex_eq_some.mpr ⟨rfl, by omega, by omega⟩
  refine ⟨{ s with desc := s.desc.setIfInBounds i (some v) }, ?_, rfl, ?_, fun j hj => ?_⟩
  · rw [hostPerform_regWrite v hindex, noted_of_ne_ctrl v (by omega), writeRegister_desc v (by omega),
      Nat.add_sub_cancel_left, writeDesc_of_acceptsWrites (acceptsWrites_iff.mpr hs)]
  · rw [descWord_setIfInBounds, if_pos ⟨rfl, hi⟩]
  · rw [descWord_setIfInBounds, if_neg (fun h => hj h.1.symm)]

/-- Settles O53: `CTRL` looks at bits 0 and 1 only, and `CLEAR` first. -/
theorem ctrlWrites : Obligations.CtrlWrites := by
  intro s v
  refine ⟨fun hs => ⟨writeCtrl_clear_start_of_done hs (by decide) (by decide),
    writeCtrl_start_of_done hs (by decide) (by decide), ?_⟩, ?_, fun hs =>
    writeCtrl_of_not_acceptsWrites (not_acceptsWrites hs) v⟩
  · rw [hostPerform_regWrite 1 windowIndex_regBase, writeRegister_ctrl,
      noted_dropped (.inr (by decide)) (by decide), writeCtrl_start_of_done (by exact hs) (by decide) (by decide), hs]
  · have h0 : (v &&& 3).getLsbD 0 = v.getLsbD 0 := by simp
    have h1 : (v &&& 3).getLsbD 1 = v.getLsbD 1 := by simp
    simp only [State.writeCtrl, h0, h1]

/-! ### Reset -/

theorem descWord_replicate {s : State} (h : s.desc = Vector.replicate 32 none) (i : Nat) : s.descWord i = none := by
  rw [State.descWord, h, Vector.toList_replicate, List.getElem?_replicate]
  split <;> rfl

/-- Below the descriptor the window of a state without a fault code reads 0 in `IDLE`. -/
theorem windowRead_eq_zero {s : State} {k : Nat} (hs : s.status = .idle) (hc : s.cause = .none) (hk : k < 32) :
    s.windowRead k = 0 := by
  obtain rfl | rfl | hk : k = 1 ∨ k = 2 ∨ k = 0 ∨ 3 ≤ k ∧ k < 32 := by omega
  · exact congrArg statusWord hs
  · exact congrArg causeWord hc
  · exact windowRead_reserved hk

/-- Settles O56: the fields by the reset's one update, `START` by the unwritten word 0. -/
theorem resetValues : Obligations.ResetValues := by
  refine ⟨fun s t ht => ?_, fun s hs => ⟨?_, rfl⟩⟩
  · obtain ⟨hstatus, hcause, hdesc, hlaunch, hheld, hrun⟩ : t.status = .idle ∧ t.cause = .none ∧
        t.desc = Vector.replicate 32 none ∧ t.launch = none ∧ t.held = [] ∧ t.run = .notStarted := by
      obtain rfl | rfl := ht <;> exact ⟨rfl, rfl, rfl, rfl, rfl, rfl⟩
    exact ⟨hstatus, hcause, descWord_replicate hdesc, hlaunch, hheld, hrun,
      fun k hk => windowRead_eq_zero hstatus hcause hk,
      (unreadableDescriptorFaults t hstatus).1 (descWord_replicate hdesc 0)⟩
  · simp [State.resetLosses, hs, gmErase]

/-- Settles O58: no cell, no run, no launch. -/
theorem resetMeetsTheInvariants : Obligations.ResetMeetsTheInvariants where
  left :=
    { cfg_ok := by decide
      gm_wf := by decide
      dom_wf := by decide
      dom_bound := by decide
      gm_cells := by decide
      busy_iff := by decide
      cause_iff := by decide
      held_launch := fun _ h => nomatch h
      run_faulted := fun h => nomatch h
      run_good := fun _ h => nomatch h
      elems := fun _ h => nomatch h }
  right := fun _ _ h => nomatch h

end Sys2Proof.Machine
end

section
/-! PROOFS. The remaining field operations as those of `ZMod p` (40_field_arith.md R142 to R146), the identities of
`LOOKUP_EVAL` in that ring (44_lookup_eval.md R226 to R231), and the carriage of by-value elements (00_scope.md R7). -/

namespace Sys2Proof.Machine

variable {p : Nat}

@[simp] theorem natCast_fsqr (a : Nat) : ((fsqr p a : Nat) : ZMod p) = a ^ 2 := by
  rw [fsqr, ZMod.natCast_mod, Nat.cast_mul, sq]

@[simp] theorem natCast_fpow (a e : Nat) : ((fpow p a e : Nat) : ZMod p) = a ^ e := by
  rw [fpow, ZMod.natCast_mod, Nat.cast_pow]

@[simp] theorem natCast_fone : ((fone p : Nat) : ZMod p) = 1 := by
  rw [fone, ZMod.natCast_mod, Nat.cast_one]

/-- Settles O9: each operation reduces the same operation of the natural numbers, and `fsub` that of the ring. -/
theorem fieldIsTheResidueRing : Obligations.FieldIsTheResidueRing :=
  fun _ a b e hp => ⟨natCast_fadd a b, natCast_fsub hp a b, natCast_fmul a b, natCast_fsqr a, natCast_fpow a e,
    natCast_fone, fadd_lt hp a b, fsub_lt hp a b, fmul_lt hp a b, fsqr_lt hp a, fpow_lt hp a e, fone_lt hp⟩

/-! ### The five terms -/

section
variable (hp : 0 < p)
include hp

theorem natCast_lookupTerm1 (q0 z : Nat) : ((lookupTerm1 p q0 z : Nat) : ZMod p) = q0 * (1 - z) := by
  simp [lookupTerm1, natCast_fsub hp]

theorem natCast_lookupTerm2 (ql z : Nat) : ((lookupTerm2 p ql z : Nat) : ZMod p) = ql * (z ^ 2 - z) := by
  simp [lookupTerm2, natCast_fsub hp]

theorem natCast_lookupTerm3 (qa a beta s gamma zn z tb : Nat) :
    ((lookupTerm3 p qa a beta s gamma zn z tb : Nat) : ZMod p) = qa * ((a + beta) * (s + gamma) * zn - z * tb) := by
  simp [lookupTerm3, natCast_fsub hp]

theorem natCast_lookupTerm4 (q0 a s : Nat) : ((lookupTerm4 p q0 a s : Nat) : ZMod p) = q0 * (a - s) := by
  simp [lookupTerm4, natCast_fsub hp]

theorem natCast_lookupTerm5 (qa a s ap : Nat) :
    ((lookupTerm5 p qa a s ap : Nat) : ZMod p) = qa * (a - s) * (a - ap) := by
  simp [lookupTerm5, natCast_fsub hp]

omit hp in
@[simp] theorem natCast_foldTerm (v y t : Nat) : ((foldTerm p v y t : Nat) : ZMod p) = v * y + t := by
  simp [foldTerm]

end

/-- Settles O37: each term is a composition of operations of the ring. -/
theorem lookupTermsAreTheIdentities : Obligations.LookupTermsAreTheIdentities :=
  fun _ q0 ql qa z zn a ap s tb beta gamma v y t hp =>
    ⟨natCast_lookupTerm1 hp q0 z, natCast_lookupTerm2 hp ql z, natCast_lookupTerm3 hp qa a beta s gamma zn z tb,
      natCast_lookupTerm4 hp q0 a s, natCast_lookupTerm5 hp qa a s ap, natCast_foldTerm v y t⟩

/-! ### By-value elements -/

@[simp] theorem length_wordsOfPattern (k n : Nat) : (wordsOfPattern k n).length = k := by
  induction k generalizing n with
  | zero => rfl
  | succ k ih => exact congrArg (· + 1) (ih _)

/-- The words of a number that fits them are its digits to the base 2^32. -/
theorem patternOf_wordsOfPattern {k n : Nat} (hn : n < 2 ^ (32 * k)) : patternOf (wordsOfPattern k n) = n := by
  induction k generalizing n with
  | zero => simp_all [wordsOfPattern, patternOf]
  | succ k ih =>
    have hhigh : n / 2 ^ 32 < 2 ^ (32 * k) := by
      rw [Nat.div_lt_iff_lt_mul (Nat.two_pow_pos _), ← Nat.pow_add]
      exact hn
    rw [wordsOfPattern, patternOf, ih hhigh, BitVec.toNat_ofNat]
    exact Nat.mod_add_div n (2 ^ 32)

/-- An implementation has a carriage (log 5). -/
theorem codecOf_isSome {c : Params} (hc : c.Ok) : ∃ codec, codecOf c = some codec := by
  obtain ⟨-, -, -, -, -, -, hroom⟩ := hc
  unfold codecOf
  rw [dif_pos hroom]
  cases c.carriage <;> exact ⟨_, rfl⟩

/-- Settles O10: the words carry the pattern, and the decoder of either carriage undoes its encoder on it. -/
theorem fieldDecUndoesFieldEnc : Obligations.FieldDecUndoesFieldEnc := by
  intro c v hc hv
  obtain ⟨codec, hcodec⟩ := codecOf_isSome hc
  have henc : fieldEnc c v = wordsOfPattern c.fieldWords (codec.enc v) := by
    rw [fieldEnc, hcodec]
  have hdec (ws : List (BitVec 32)) : fieldDec c ws = codec.dec (patternOf ws) := by
    rw [fieldDec, hcodec, Option.bind_some]
  rw [hdec, henc, patternOf_wordsOfPattern (codec.enc_lt v hv), codec.dec_enc v hv]
  exact ⟨length_wordsOfPattern _ _, rfl⟩

end Sys2Proof.Machine
end

section
/-! PROOFS. The index formulas of `NTT_STAGE` on the natural numbers (40_field_arith.md R151, 41_ntt_stage.md R162 to R175).
With `n = 2^r * 2^lgp * 2^deg` a group number is `q * 2^lgp + k`, and a destination index has the three digits `q`, the
local position and `k`. -/

namespace Sys2Proof.Machine

/-! ### Sizes -/

theorem toNat_nttT (o : NttOperands) : (nttT o).toNat = o.n.toNat / 2 ^ o.deg.toNat := by
  rw [nttT, BitVec.ushiftRight_eq', BitVec.toNat_ushiftRight, Nat.shiftRight_eq_div_pow]

theorem toNat_nttP {o : NttOperands} (hlgp : o.lgp.toNat ≤ 31) : (nttP o).toNat = 2 ^ o.lgp.toNat := by
  have hlt : 2 ^ o.lgp.toNat < 2 ^ 32 := Nat.pow_lt_pow_right Nat.one_lt_two (by omega)
  rw [nttP, BitVec.shiftLeft_eq', BitVec.toNat_shiftLeft, BitVec.toNat_ofNat, Nat.one_mod, Nat.one_shiftLeft,
    Nat.mod_eq_of_lt hlt]

theorem toNat_ofNat_of_lt {x : Nat} (h : x < 2 ^ 32) : (BitVec.ofNat 32 x).toNat = x := by
  rw [BitVec.toNat_ofNat, Nat.mod_eq_of_lt h]

/-- A left shift that loses no bit. -/
theorem toNat_shiftLeft_of_lt {v : U32} {k : Nat} (h : v.toNat * 2 ^ k < 2 ^ 32) : (v <<< k).toNat = v.toNat * 2 ^ k := by
  rw [BitVec.toNat_shiftLeft, Nat.shiftLeft_eq, Nat.mod_eq_of_lt h]

theorem toNat_mul_of_lt {v w : U32} (h : v.toNat * w.toNat < 2 ^ 32) : (v * w).toNat = v.toNat * w.toNat := by
  rw [BitVec.toNat_mul, Nat.mod_eq_of_lt h]

/-- What the preconditions say of the sizes: `n` is the product of three powers of two. -/
structure NttSizes (o : NttOperands) (r : Nat) : Prop where
  n_eq : o.n.toNat = 2 ^ r * 2 ^ o.lgp.toNat * 2 ^ o.deg.toNat
  le : r + o.lgp.toNat + o.deg.toNat ≤ 31
  deg_pos : 1 ≤ o.deg.toNat
  deg_le : o.deg.toNat ≤ o.maxDeg.toNat
  maxDeg_le : o.maxDeg.toNat ≤ 31

theorem nttSizes_of_nttParamsOk {c : Params} {o : NttOperands} (hok : nttParamsOk c o = true) : ∃ r, NttSizes o r := by
  obtain ⟨⟨m, -, hm, hn, hle⟩, hpos, hdegMax, hmax, -⟩ := nttParamsOk_iff.mp hok
  refine ⟨m - o.lgp.toNat - o.deg.toNat, ?_, by omega, hpos, hdegMax, hmax⟩
  rw [hn, ← Nat.pow_add, ← Nat.pow_add]
  congr 1
  omega

section
variable {o : NttOperands} {r : Nat} (hs : NttSizes o r)
include hs

theorem NttSizes.t_eq : (nttT o).toNat = 2 ^ r * 2 ^ o.lgp.toNat := by
  rw [toNat_nttT, hs.n_eq, Nat.mul_div_cancel _ (Nat.two_pow_pos _)]

theorem NttSizes.t_mul_count : (nttT o).toNat * 2 ^ o.deg.toNat = o.n.toNat := by
  rw [hs.t_eq, hs.n_eq]

theorem NttSizes.p_eq : (nttP o).toNat = 2 ^ o.lgp.toNat := toNat_nttP (by have := hs.le; omega)

theorem NttSizes.count_eq : (nttCount o).toNat = 2 ^ o.deg.toNat := toNat_nttCount (by have := hs.le; omega)

theorem NttSizes.counth_eq : (nttCounth o).toNat = 2 ^ (o.deg.toNat - 1) :=
  toNat_nttCounth hs.deg_pos (by have := hs.le; omega)

theorem NttSizes.count_eq_counth : (nttCount o).toNat = 2 * (nttCounth o).toNat := by
  rw [hs.count_eq, hs.counth_eq, ← Nat.pow_succ']
  congr 1
  have := hs.deg_pos
  omega

theorem NttSizes.pqshift_eq : (nttPqshift o).toNat = o.maxDeg.toNat - o.deg.toNat := by
  rw [nttPqshift, BitVec.toNat_sub_of_le (BitVec.le_def.mpr hs.deg_le)]

/-! ### Source and destination of an element -/

section
variable {index : U32}

theorem NttSizes.toNat_k : (nttK o index).toNat = index.toNat % 2 ^ o.lgp.toNat := toNat_pairDi hs.p_eq

/-- The stage's own digit of a group number. -/
theorem NttSizes.quotient_lt (hindex : index.toNat < (nttT o).toNat) : index.toNat / 2 ^ o.lgp.toNat < 2 ^ r := by
  rw [hs.t_eq, Nat.mul_comm] at hindex
  exact Nat.div_lt_of_lt_mul hindex

theorem NttSizes.toNat_index_sub_k :
    (index - nttK o index).toNat = index.toNat / 2 ^ o.lgp.toNat * 2 ^ o.lgp.toNat := by
  have hk := hs.toNat_k (index := index)
  have hle : (nttK o index).toNat ≤ index.toNat := hk ▸ Nat.mod_le _ _
  have hsplit := Nat.div_add_mod' index.toNat (2 ^ o.lgp.toNat)
  rw [BitVec.toNat_sub_of_le (BitVec.le_def.mpr hle), hk]
  omega

/-- A group's destination cells start at its digit times their number. -/
theorem NttSizes.block_le (hindex : index.toNat < (nttT o).toNat) :
    index.toNat / 2 ^ o.lgp.toNat * 2 ^ o.lgp.toNat * 2 ^ o.deg.toNat + 2 ^ o.lgp.toNat * 2 ^ o.deg.toNat ≤ o.n.toNat :=
  calc index.toNat / 2 ^ o.lgp.toNat * 2 ^ o.lgp.toNat * 2 ^ o.deg.toNat + 2 ^ o.lgp.toNat * 2 ^ o.deg.toNat
      = (index.toNat / 2 ^ o.lgp.toNat + 1) * (2 ^ o.lgp.toNat * 2 ^ o.deg.toNat) := by ring
    _ ≤ 2 ^ r * (2 ^ o.lgp.toNat * 2 ^ o.deg.toNat) := Nat.mul_le_mul_right _ (hs.quotient_lt hindex)
    _ = o.n.toNat := by rw [hs.n_eq, Nat.mul_assoc]

theorem NttSizes.toNat_index_sub_k_shift (hindex : index.toNat < (nttT o).toNat) :
    ((index - nttK o index) <<< o.deg).toNat =
      index.toNat / 2 ^ o.lgp.toNat * 2 ^ o.lgp.toNat * 2 ^ o.deg.toNat := by
  have hblock := hs.block_le hindex
  have hn := o.n.isLt
  rw [BitVec.shiftLeft_eq', toNat_shiftLeft_of_lt] <;> rw [hs.toNat_index_sub_k]
  omega

theorem NttSizes.toNat_exponent :
    (nttExponent o (nttK o index)).toNat = 2 ^ r * (nttK o index).toNat := by
  have hscale : ((o.n >>> o.lgp) >>> o.deg).toNat = 2 ^ r := by
    rw [BitVec.ushiftRight_eq', BitVec.ushiftRight_eq', BitVec.toNat_ushiftRight, BitVec.toNat_ushiftRight,
      Nat.shiftRight_eq_div_pow, Nat.shiftRight_eq_div_pow, hs.n_eq, Nat.div_div_eq_div_mul, Nat.mul_assoc,
      Nat.mul_div_cancel _ (Nat.mul_pos (Nat.two_pow_pos _) (Nat.two_pow_pos _))]
  have hk : (nttK o index).toNat < 2 ^ o.lgp.toNat := hs.toNat_k ▸ Nat.mod_lt _ (Nat.two_pow_pos _)
  have hlt : 2 ^ r * (nttK o index).toNat < (nttT o).toNat :=
    hs.t_eq ▸ Nat.mul_lt_mul_of_pos_left hk (Nat.two_pow_pos r)
  rw [nttExponent, toNat_mul_of_lt] <;> rw [hscale]
  exact hlt.trans (nttT o).isLt

theorem NttSizes.exponent_lt : (nttExponent o (nttK o index)).toNat < (nttT o).toNat := by
  have hk : (nttK o index).toNat < 2 ^ o.lgp.toNat := hs.toNat_k ▸ Nat.mod_lt _ (Nat.two_pow_pos _)
  rw [hs.toNat_exponent, hs.t_eq]
  exact Nat.mul_lt_mul_of_pos_left hk (Nat.two_pow_pos r)

variable {i : U32}

theorem NttSizes.mul_t_le (hi : i.toNat < (nttCount o).toNat) :
    i.toNat * (nttT o).toNat + (nttT o).toNat ≤ o.n.toNat := by
  rw [hs.count_eq] at hi
  calc i.toNat * (nttT o).toNat + (nttT o).toNat = (i.toNat + 1) * (nttT o).toNat := by ring
    _ ≤ 2 ^ o.deg.toNat * (nttT o).toNat := Nat.mul_le_mul_right _ hi
    _ = o.n.toNat := by rw [Nat.mul_comm, hs.t_mul_count]

theorem NttSizes.t_pos : 0 < (nttT o).toNat := by
  rw [hs.t_eq]
  exact Nat.mul_pos (Nat.two_pow_pos _) (Nat.two_pow_pos _)

theorem NttSizes.toNat_mul_t (hi : i.toNat < (nttCount o).toNat) : (i * nttT o).toNat = i.toNat * (nttT o).toNat := by
  have hle := hs.mul_t_le hi
  have hn := o.n.isLt
  have hpos := hs.t_pos
  exact toNat_mul_of_lt (by omega)

theorem NttSizes.toNat_source (hindex : index.toNat < (nttT o).toNat) (hi : i.toNat < (nttCount o).toNat) :
    (nttSource o index i).toNat = index.toNat + i.toNat * (nttT o).toNat := by
  have hle := hs.mul_t_le hi
  have hn := o.n.isLt
  have hmul := hs.toNat_mul_t hi
  rw [nttSource, BitVec.toNat_add_of_lt (by omega), hmul]

theorem NttSizes.source_lt (hindex : index.toNat < (nttT o).toNat) (hi : i.toNat < (nttCount o).toNat) :
    (nttSource o index i).toNat < o.n.toNat := by
  have hle := hs.mul_t_le hi
  rw [hs.toNat_source hindex hi]
  omega

/-- Local position and `k` together are below the number of a digit's destination cells. -/
theorem NttSizes.k_add_lt (hi : i.toNat < (nttCount o).toNat) :
    index.toNat % 2 ^ o.lgp.toNat + i.toNat * 2 ^ o.lgp.toNat < 2 ^ o.lgp.toNat * 2 ^ o.deg.toNat := by
  have hk : index.toNat % 2 ^ o.lgp.toNat < 2 ^ o.lgp.toNat := Nat.mod_lt _ (Nat.two_pow_pos _)
  rw [hs.count_eq] at hi
  calc index.toNat % 2 ^ o.lgp.toNat + i.toNat * 2 ^ o.lgp.toNat < (i.toNat + 1) * 2 ^ o.lgp.toNat := by
        rw [Nat.add_mul]; omega
    _ ≤ 2 ^ o.deg.toNat * 2 ^ o.lgp.toNat := Nat.mul_le_mul_right _ hi
    _ = 2 ^ o.lgp.toNat * 2 ^ o.deg.toNat := Nat.mul_comm _ _

/-- The three digits of a destination index. -/
theorem NttSizes.toNat_dest (hindex : index.toNat < (nttT o).toNat) (hi : i.toNat < (nttCount o).toNat) :
    (nttDest o (nttBase o index (nttK o index)) i).toNat =
      index.toNat / 2 ^ o.lgp.toNat * 2 ^ o.lgp.toNat * 2 ^ o.deg.toNat + index.toNat % 2 ^ o.lgp.toNat +
        i.toNat * 2 ^ o.lgp.toNat := by
  have hblock := hs.block_le hindex
  have hlow := hs.k_add_lt (index := index) hi
  have hn := o.n.isLt
  have hshift := hs.toNat_index_sub_k_shift hindex
  have hk := hs.toNat_k (index := index)
  have hstride : (i * nttP o).toNat = i.toNat * 2 ^ o.lgp.toNat := by
    rw [toNat_mul_of_lt] <;> rw [hs.p_eq]
    omega
  have hbase : (nttBase o index (nttK o index)).toNat =
      index.toNat / 2 ^ o.lgp.toNat * 2 ^ o.lgp.toNat * 2 ^ o.deg.toNat + index.toNat % 2 ^ o.lgp.toNat := by
    rw [nttBase, BitVec.toNat_add_of_lt (by omega), hshift, hk]
  rw [nttDest, BitVec.toNat_add_of_lt (by omega), hbase, hstride]

theorem NttSizes.dest_lt (hindex : index.toNat < (nttT o).toNat) (hi : i.toNat < (nttCount o).toNat) :
    (nttDest o (nttBase o index (nttK o index)) i).toNat < o.n.toNat := by
  have hblock := hs.block_le hindex
  have hlow := hs.k_add_lt (index := index) hi
  rw [hs.toNat_dest hindex hi]
  omega

end

/-! ### The entry of `pq` a pair uses -/

section
variable {rnd : Nat} {di : U32} (hrnd : rnd < o.deg.toNat) (hdi : di.toNat < (nttBit o rnd).toNat)
include hrnd hdi

/-- Shifted by the round, the digit index of a pair is below `counth`. -/
theorem NttSizes.di_shift_lt : di.toNat * 2 ^ rnd < 2 ^ (o.deg.toNat - 1) := by
  have hle := hs.le
  rw [toNat_nttBit hrnd (by omega)] at hdi
  calc di.toNat * 2 ^ rnd < 2 ^ (o.deg.toNat - 1 - rnd) * 2 ^ rnd := Nat.mul_lt_mul_of_pos_right hdi (Nat.two_pow_pos _)
    _ = 2 ^ (o.deg.toNat - 1) := by rw [← Nat.pow_add]; congr 1; omega

theorem NttSizes.pq_shift_lt :
    di.toNat * 2 ^ rnd * 2 ^ (o.maxDeg.toNat - o.deg.toNat) < 2 ^ (o.maxDeg.toNat - 1) := by
  have hpos := hs.deg_pos
  have hle := hs.deg_le
  calc di.toNat * 2 ^ rnd * 2 ^ (o.maxDeg.toNat - o.deg.toNat)
      < 2 ^ (o.deg.toNat - 1) * 2 ^ (o.maxDeg.toNat - o.deg.toNat) :=
        Nat.mul_lt_mul_of_pos_right (hs.di_shift_lt hrnd hdi) (Nat.two_pow_pos _)
    _ = 2 ^ (o.maxDeg.toNat - 1) := by rw [← Nat.pow_add]; congr 1; omega

theorem NttSizes.toNat_pqIndex :
    (pqIndex di rnd (nttPqshift o)).toNat = di.toNat * 2 ^ rnd * 2 ^ (o.maxDeg.toNat - o.deg.toNat) := by
  have hmax := hs.maxDeg_le
  have hdeg := hs.le
  have hcounth := hs.di_shift_lt hrnd hdi
  have hpq := hs.pq_shift_lt hrnd hdi
  have hdeg32 : 2 ^ (o.deg.toNat - 1) ≤ 2 ^ 31 := Nat.pow_le_pow_right Nat.two_pos (by omega)
  have hmax32 : 2 ^ (o.maxDeg.toNat - 1) ≤ 2 ^ 31 := Nat.pow_le_pow_right Nat.two_pos (by omega)
  have hround : (di <<< rnd).toNat = di.toNat * 2 ^ rnd := toNat_shiftLeft_of_lt (by omega)
  rw [pqIndex, BitVec.shiftLeft_eq', hs.pqshift_eq, toNat_shiftLeft_of_lt] <;> rw [hround]
  omega

end
end

/-- Settles O12: the formulas on the natural numbers, each within the bounds that make them exact. -/
theorem indexArithmeticDoesNotWrap : Obligations.IndexArithmeticDoesNotWrap := by
  refine ⟨fun c o hok => ?_, fun o idx hok hidx => ⟨toNat_idx_add_rotScale hok hidx, toNat_idx_add_size hok hidx,
    toNat_idx_add_size_sub_rotScale hok hidx⟩⟩
  obtain ⟨r, hs⟩ := nttSizes_of_nttParamsOk hok
  refine ⟨toNat_nttT o, hs.p_eq, hs.count_eq, hs.counth_eq, hs.pqshift_eq, ?_,
    fun rnd di hrnd hdi => ⟨hs.toNat_pqIndex hrnd hdi, hs.toNat_pqIndex hrnd hdi ▸ hs.pq_shift_lt hrnd hdi⟩⟩
  rintro index i _ hindex hi rfl
  have hsub : index.toNat - (nttK o index).toNat = index.toNat / 2 ^ o.lgp.toNat * 2 ^ o.lgp.toNat := by
    have hsplit := Nat.div_add_mod' index.toNat (2 ^ o.lgp.toNat)
    rw [hs.toNat_k]
    omega
  have hblock := hs.block_le hindex
  have hmul := hs.mul_t_le hi
  have hpos := hs.t_pos
  have hscale : o.n.toNat / 2 ^ o.lgp.toNat / 2 ^ o.deg.toNat = 2 ^ r := by
    rw [hs.n_eq, Nat.div_div_eq_div_mul, Nat.mul_assoc,
      Nat.mul_div_cancel _ (Nat.mul_pos (Nat.two_pow_pos _) (Nat.two_pow_pos _))]
  refine ⟨hs.toNat_k, hs.toNat_mul_t hi, by omega, hs.toNat_source hindex hi, hs.source_lt hindex hi, ?_, ?_, ?_,
    hs.dest_lt hindex hi, ?_, hs.exponent_lt⟩
  · rw [hs.toNat_index_sub_k_shift hindex, hsub]
  · have hdeg : 2 ^ o.deg.toNat ≤ 2 ^ o.lgp.toNat * 2 ^ o.deg.toNat := Nat.le_mul_of_pos_left _ (Nat.two_pow_pos _)
    rw [hs.toNat_index_sub_k_shift hindex]
    omega
  · rw [hs.toNat_dest hindex hi, hsub, hs.toNat_k]
  · rw [hs.toNat_exponent, hscale]

/-! ### Pairs and lanes -/

/-- The pair number of a cell: its digit `b` is taken out. -/
def pairNumberOf (b x : Nat) : Nat := x / (2 * 2 ^ b) * 2 ^ b + x % 2 ^ b

theorem pairNumberOf_div (b x : Nat) : pairNumberOf b x / 2 ^ b = x / (2 * 2 ^ b) := by
  have hmod : x % 2 ^ b < 2 ^ b := Nat.mod_lt _ (Nat.two_pow_pos b)
  rw [pairNumberOf, Nat.mul_comm _ (2 ^ b), Nat.mul_add_div (Nat.two_pow_pos b), Nat.div_eq_of_lt hmod, Nat.add_zero]

theorem pairNumberOf_mod (b x : Nat) : pairNumberOf b x % 2 ^ b = x % 2 ^ b := by
  rw [pairNumberOf, Nat.mul_comm _ (2 ^ b), Nat.mul_add_mod, Nat.mod_mod]

/-- Below `2^(d+1)` the pair number is below `2^d`. -/
theorem pairNumberOf_lt {x b d : Nat} (hb : b ≤ d) (hx : x < 2 ^ (d + 1)) : pairNumberOf b x < 2 ^ d := by
  have hmod : x % 2 ^ b < 2 ^ b := Nat.mod_lt _ (Nat.two_pow_pos b)
  have hblk : x / (2 * 2 ^ b) < 2 ^ (d - b) := by
    apply Nat.div_lt_of_lt_mul
    rw [← Nat.pow_succ', ← Nat.pow_add]
    exact hx.trans_le (Nat.pow_le_pow_right Nat.two_pos (by omega))
  calc pairNumberOf b x < (x / (2 * 2 ^ b) + 1) * 2 ^ b := by rw [pairNumberOf, Nat.add_mul]; omega
    _ ≤ 2 ^ (d - b) * 2 ^ b := Nat.mul_le_mul_right _ hblk
    _ = 2 ^ d := by rw [← Nat.pow_add, Nat.sub_add_cancel hb]

/-- A cell is its pair's lower cell, plus `2^b` if its digit `b` is 1. -/
theorem eq_pair_cell (b x : Nat) :
    x = x / (2 * 2 ^ b) * (2 * 2 ^ b) + x % 2 ^ b + (if x.testBit b then 2 ^ b else 0) := by
  have hsplit := Nat.div_add_mod' x (2 ^ b)
  have hblk : x / (2 * 2 ^ b) = x / 2 ^ b / 2 := by rw [Nat.mul_comm, Nat.div_div_eq_div_mul]
  have hdigit := Nat.div_add_mod' (x / 2 ^ b) 2
  rw [hblk, Nat.testBit_eq_decide_div_mod_eq, ← Nat.mul_assoc]
  obtain h | h := Nat.mod_two_eq_zero_or_one (x / 2 ^ b)
  · rw [h, Nat.add_zero] at hdigit
    simp [h, hdigit, hsplit]
  · rw [h] at hdigit
    rw [← hdigit, Nat.add_mul, Nat.one_mul] at hsplit
    simp only [h, decide_true, if_true]
    omega

section
variable {o : NttOperands} {r rnd : Nat} {i : U32} (hs : NttSizes o r) (hrnd : rnd < o.deg.toNat)
include hs hrnd

theorem NttSizes.bit_eq : (nttBit o rnd).toNat = 2 ^ (o.deg.toNat - 1 - rnd) :=
  toNat_nttBit hrnd (by have := hs.le; omega)

theorem NttSizes.toNat_pairDi : (pairDi (nttBit o rnd) i).toNat = i.toNat % 2 ^ (o.deg.toNat - 1 - rnd) :=
  Machine.toNat_pairDi (hs.bit_eq hrnd)

theorem NttSizes.pairDi_lt : (pairDi (nttBit o rnd) i).toNat < (nttBit o rnd).toNat := by
  rw [hs.toNat_pairDi hrnd, hs.bit_eq hrnd]
  exact Nat.mod_lt _ (Nat.two_pow_pos _)

/-- The pair of a cell of the group, and whether the cell is its lower or its upper one. -/
theorem NttSizes.exists_pair {x : Nat} (hx : x < (nttCount o).toNat) :
    ∃ i : U32, i.toNat < (nttCounth o).toNat ∧
      x = (pairLow (nttBit o rnd) i).toNat + (if x.testBit (o.deg.toNat - 1 - rnd) then 2 ^ (o.deg.toNat - 1 - rnd) else 0) := by
  have hle := hs.le
  have hcount : o.deg.toNat = o.deg.toNat - 1 + 1 := by omega
  rw [hs.count_eq, hcount] at hx
  have hnumber := pairNumberOf_lt (b := o.deg.toNat - 1 - rnd) (by omega) hx
  have hi31 : pairNumberOf (o.deg.toNat - 1 - rnd) x < 2 ^ 31 :=
    hnumber.trans_le (Nat.pow_le_pow_right Nat.two_pos (by omega))
  have htoNat := toNat_ofNat_of_lt (hi31.trans (by decide))
  refine ⟨BitVec.ofNat 32 (pairNumberOf (o.deg.toNat - 1 - rnd) x), ?_, ?_⟩
  · rw [htoNat, hs.counth_eq]
    exact hnumber
  · rw [Machine.toNat_pairLow (hs.bit_eq hrnd) (by rwa [htoNat]), htoNat, pairNumberOf_div, pairNumberOf_mod]
    exact eq_pair_cell _ _

variable (hi : i.toNat < (nttCounth o).toNat)
include hi

theorem NttSizes.toNat_pairLow :
    (pairLow (nttBit o rnd) i).toNat =
      i.toNat / 2 ^ (o.deg.toNat - 1 - rnd) * (2 * 2 ^ (o.deg.toNat - 1 - rnd)) +
        i.toNat % 2 ^ (o.deg.toNat - 1 - rnd) := by
  have hle := hs.le
  rw [hs.counth_eq] at hi
  exact Machine.toNat_pairLow (hs.bit_eq hrnd) (hi.trans_le (Nat.pow_le_pow_right Nat.two_pos (by omega)))

theorem NttSizes.toNat_pairHigh :
    (pairHigh (nttBit o rnd) i).toNat = (pairLow (nttBit o rnd) i).toNat + 2 ^ (o.deg.toNat - 1 - rnd) := by
  have hle := hs.le
  have hcounth : o.deg.toNat - 1 = rnd + (o.deg.toNat - 1 - rnd) := by omega
  rw [hs.counth_eq] at hi
  exact Machine.toNat_pairHigh (hs.bit_eq hrnd) (r := rnd) (by omega) (hcounth ▸ hi)

theorem NttSizes.pairLow_div_mod :
    (pairLow (nttBit o rnd) i).toNat / 2 ^ (o.deg.toNat - 1 - rnd) = 2 * (i.toNat / 2 ^ (o.deg.toNat - 1 - rnd)) ∧
      (pairLow (nttBit o rnd) i).toNat % 2 ^ (o.deg.toNat - 1 - rnd) = i.toNat % 2 ^ (o.deg.toNat - 1 - rnd) := by
  have hpos := Nat.two_pow_pos (o.deg.toNat - 1 - rnd)
  have hmod : i.toNat % 2 ^ (o.deg.toNat - 1 - rnd) < 2 ^ (o.deg.toNat - 1 - rnd) := Nat.mod_lt _ hpos
  have hlow : (pairLow (nttBit o rnd) i).toNat = 2 ^ (o.deg.toNat - 1 - rnd) *
      (2 * (i.toNat / 2 ^ (o.deg.toNat - 1 - rnd))) + i.toNat % 2 ^ (o.deg.toNat - 1 - rnd) := by
    rw [hs.toNat_pairLow hrnd hi]; ring
  rw [hlow, Nat.mul_add_div hpos, Nat.div_eq_of_lt hmod, Nat.mul_add_mod, Nat.mod_mod]
  exact ⟨rfl, rfl⟩

theorem NttSizes.pair_lt_count : (pairLow (nttBit o rnd) i).toNat < (nttCount o).toNat ∧
    (pairHigh (nttBit o rnd) i).toNat < (nttCount o).toNat := by
  obtain ⟨hlt, hhigh⟩ := pairLow_lt_pairHigh_lt_count (by have := hs.le; omega) hrnd hi
  exact ⟨hlt.trans hhigh, hhigh⟩

end

/-- Settles O13: the closed forms with `bit = 2^b`, and for a cell whose digit `b` is 0 the pair it is in. -/
theorem pairsOfARoundCoverTheCells : Obligations.PairsOfARoundCoverTheCells := by
  intro c o rnd hok hrnd
  obtain ⟨r, hs⟩ := nttSizes_of_nttParamsOk hok
  refine ⟨hs.bit_eq hrnd, fun i hi => ?_, fun x hx hdigit => ?_⟩
  · obtain ⟨hdiv, hmod⟩ := hs.pairLow_div_mod hrnd hi
    refine ⟨hs.toNat_pairDi hrnd, hs.toNat_pairLow hrnd hi, hs.toNat_pairHigh hrnd hi, (hs.pair_lt_count hrnd hi).2, ?_, ?_⟩
    · rw [Nat.testBit_eq_decide_div_mod_eq, hdiv, Nat.mul_mod_right]
      rfl
    · rw [hs.toNat_pairDi hrnd, hmod]
  · obtain ⟨i, hi, hcell⟩ := hs.exists_pair hrnd hx
    rw [hdigit] at hcell
    exact ⟨i, hi, hcell.symm⟩

theorem toNat_half (v : U32) : (half v).toNat = v.toNat / 2 := by
  rw [half, BitVec.toNat_ushiftRight, Nat.shiftRight_eq_div_pow, Nat.pow_one]

section
variable {o : NttOperands} {r : Nat} (hs : NttSizes o r) (c : Params)
include hs

theorem NttSizes.lgl_lt : nttLgl c o < o.deg.toNat := by
  have := hs.deg_pos
  rw [nttLgl]
  omega

theorem NttSizes.share_eq : (nttShare c o).toNat = 2 ^ (o.deg.toNat - nttLgl c o) := by
  rw [nttShare, BitVec.toNat_ushiftRight, hs.count_eq, Nat.shiftRight_eq_div_pow,
    Nat.pow_div (hs.lgl_lt c).le Nat.two_pos]

theorem NttSizes.lanes_mul_share : 2 ^ nttLgl c o * (nttShare c o).toNat = (nttCount o).toNat := by
  rw [hs.share_eq, hs.count_eq, ← Nat.pow_add, Nat.add_sub_cancel' (hs.lgl_lt c).le]

theorem NttSizes.share_even : (nttShare c o).toNat = 2 * 2 ^ (o.deg.toNat - nttLgl c o - 1) := by
  have := hs.lgl_lt c
  rw [hs.share_eq, ← Nat.pow_succ']
  congr 1
  omega

/-- The number of lanes of a group. -/
theorem NttSizes.toNat_lanes : (1#32 <<< nttLgl c o).toNat = 2 ^ nttLgl c o := by
  have hlgl := hs.lgl_lt c
  have hle := hs.le
  rw [toNat_shiftLeft_of_lt] <;> rw [BitVec.toNat_ofNat, Nat.one_mod, Nat.one_mul]
  exact Nat.pow_lt_pow_right Nat.one_lt_two (by omega)

variable {lid : U32} (hlid : lid.toNat < 2 ^ nttLgl c o)
include hlid

theorem NttSizes.share_le : (nttShare c o).toNat * (lid.toNat + 1) ≤ (nttCount o).toNat := by
  rw [← hs.lanes_mul_share c, Nat.mul_comm]
  exact Nat.mul_le_mul_right _ hlid

theorem NttSizes.toNat_counts : (nttCounts c o lid).toNat = (nttShare c o).toNat * lid.toNat := by
  have hle := hs.share_le c hlid
  have hlt := (nttCount o).isLt
  have hpos : 0 < (nttShare c o).toNat := hs.share_eq c ▸ Nat.two_pow_pos _
  rw [Nat.mul_add_one] at hle
  exact toNat_mul_of_lt (by omega)

theorem NttSizes.toNat_counte : (nttCounte c o lid).toNat = (nttShare c o).toNat * (lid.toNat + 1) := by
  have hcounts := hs.toNat_counts c hlid
  have hle := hs.share_le c hlid
  have hlt := hs.le
  have hcount : (nttCount o).toNat ≤ 2 ^ 31 := hs.count_eq ▸ Nat.pow_le_pow_right Nat.two_pos (by omega)
  rw [Nat.mul_add_one] at hle
  rw [nttCounte, BitVec.toNat_add_of_lt (by omega), hcounts, Nat.mul_add_one]

end

/-- Settles O14: the shares are equal powers of two, at least 2 because there are at most `2^(deg-1)` lanes. -/
theorem laneSharesPartitionTheGroup : Obligations.LaneSharesPartitionTheGroup := by
  intro c o hok
  obtain ⟨r, hs⟩ := nttSizes_of_nttParamsOk hok
  have heven := hs.share_even c
  have hpos : 0 < 2 ^ (o.deg.toNat - nttLgl c o - 1) := Nat.two_pow_pos _
  refine ⟨hs.lanes_mul_share c, by omega, by omega, fun lid hlid => ?_⟩
  have hcounts := hs.toNat_counts c hlid
  have hcounte := hs.toNat_counte c hlid
  refine ⟨hcounts, hcounte, hcounte ▸ hs.share_le c hlid, ?_, ?_⟩
  · rw [toNat_half, hcounts, heven, Nat.mul_assoc, Nat.mul_div_cancel_left _ Nat.two_pos]
  · rw [toNat_half, hcounte, heven, Nat.mul_assoc, Nat.mul_div_cancel_left _ Nat.two_pos]

end Sys2Proof.Machine
end

section
/-! PROOFS. `POW_LOOKUP` (42_pow_lookup.md R200 to R202): the loop goes through the set digits of the exponent, and with a
table of powers the product is the power, digit by digit. -/

namespace Sys2Proof.Machine

/-! ### The positions read -/

theorem powPositions_zero (fuel j : Nat) : powPositions fuel 0 j = [] := by
  cases fuel <;> rfl

theorem powPositions_succ {fuel j : Nat} {e : U32} (he : e ≠ 0) :
    powPositions (fuel + 1) e j =
      (if e.getLsbD 0 then [BitVec.ofNat 32 j] else []) ++ powPositions fuel (e >>> 1) (j + 1) := by
  have hodd : e &&& 1 ≠ 0 ↔ e.getLsbD 0 = true := by
    have hand : (e &&& 1).toNat = e.toNat % 2 := by
      rw [BitVec.toNat_and]
      exact Nat.and_one_is_mod _
    have hdigit : e.getLsbD 0 = decide (e.toNat % 2 = 1) := by
      rw [BitVec.getLsbD, Nat.testBit_zero]
    rw [hdigit, decide_eq_true_eq, ne_eq, ← BitVec.toNat_inj, hand]
    change ¬ e.toNat % 2 = 0 ↔ _
    omega
  rw [powPositions, if_neg he]
  by_cases h : e.getLsbD 0 = true
  · rw [if_pos (hodd.mpr h), if_pos h, List.singleton_append]
  · rw [if_neg fun hne => h (hodd.mp hne), if_neg h, List.nil_append]

/-- From position `j` on, with at most `fuel` digits left and none at or above 32. -/
theorem toNat_powPositions {fuel j : Nat} {e : U32} (he : e.toNat < 2 ^ fuel) (hj : j + fuel ≤ 32) :
    (powPositions fuel e j).map BitVec.toNat =
      ((List.range fuel).filter fun d => e.getLsbD d).map (j + ·) := by
  induction fuel generalizing e j with
  | zero => rfl
  | succ fuel ih =>
    by_cases hzero : e = 0
    · rw [hzero, powPositions_zero]
      simp
    · have hhalf : (e >>> 1).toNat < 2 ^ fuel := by
        rw [BitVec.toNat_ushiftRight, Nat.shiftRight_eq_div_pow]
        omega
      have hdigits : ((List.range fuel).filter fun d => (e >>> 1).getLsbD d) =
          (List.range fuel).filter fun d => e.getLsbD (d + 1) :=
        List.filter_congr fun d _ => by rw [BitVec.getLsbD_ushiftRight, Nat.add_comm]
      have hshift : ((List.range fuel).filter fun d => e.getLsbD (d + 1)).map (j + 1 + ·) =
          (((List.range fuel).map Nat.succ).filter fun d => e.getLsbD d).map (j + ·) := by
        rw [List.filter_map, List.map_map]
        exact List.map_congr_left fun d _ => by simp; omega
      rw [powPositions_succ hzero, List.map_append, ih hhalf (by omega), hdigits, hshift, List.range_succ_eq_map,
        List.filter_cons]
      cases e.getLsbD 0
      · simp
      · simp [Nat.mod_eq_of_lt (show j < 4294967296 by omega)]

theorem toNat_powReads (e : U32) :
    (powReads e).map BitVec.toNat = (List.range 32).filter fun j => e.getLsbD j := by
  rw [powReads, toNat_powPositions e.isLt (Nat.le_refl 32)]
  simp

theorem getLsbD_of_mem_powReads {e j : U32} (h : j ∈ powReads e) : e.getLsbD j.toNat = true := by
  have hmem : j.toNat ∈ (powReads e).map BitVec.toNat := List.mem_map_of_mem h
  rw [toNat_powReads] at hmem
  exact (List.mem_filter.mp hmem).2

/-- The value depends on the entries read alone. -/
theorem powLookup_congr {p : Nat} {gm gm' : List (Nat × Nat)} {base : Addr} {e : U32}
    (h : ∀ j, e.getLsbD j = true → gmRead gm (base.toNat + j) = gmRead gm' (base.toNat + j)) :
    powLookup p gm base e = powLookup p gm' base e := by
  unfold powLookup
  congr 1
  refine List.map_congr_left fun j hj => ?_
  rw [valueAt, valueAt, elemAddr, h _ (getLsbD_of_mem_powReads hj)]

/-- Settles O16: the positions by recursion on the digits left, and the value is the product of the entries there. -/
theorem powLookupReadsTheSetDigits : Obligations.PowLookupReadsTheSetDigits :=
  fun _ e _ => ⟨toNat_powReads e, fun _ _ => powLookup_congr⟩

/-! ### The value -/

variable {p : Nat}

theorem natCast_powProduct (entries : List Nat) : ((powProduct p entries : Nat) : ZMod p) = (entries.map (Nat.cast)).prod := by
  have hfold (acc : Nat) : ((entries.foldl (fmul p) acc : Nat) : ZMod p) = acc * (entries.map (Nat.cast)).prod := by
    induction entries generalizing acc with
    | nil => simp
    | cons x xs ih => rw [List.foldl_cons, ih, natCast_fmul, List.map_cons, List.prod_cons, mul_assoc]
  rw [powProduct, hfold, natCast_fone, one_mul]

/-- The powers at the set digits multiply to the power, digit by digit from position `j`. -/
theorem prod_powPositions {M : Type} [CommMonoid M] (x : M) {fuel j : Nat} {e : U32} (he : e.toNat < 2 ^ fuel)
    (hj : j + fuel ≤ 32) : ((powPositions fuel e j).map fun d => x ^ 2 ^ d.toNat).prod = (x ^ 2 ^ j) ^ e.toNat := by
  induction fuel generalizing e j with
  | zero =>
    have hzero : e.toNat = 0 := by omega
    simp [powPositions, hzero]
  | succ fuel ih =>
    by_cases hzero : e = 0
    · rw [hzero, powPositions_zero]
      simp
    · have hhalf : (e >>> 1).toNat = e.toNat / 2 := by
        rw [BitVec.toNat_ushiftRight, Nat.shiftRight_eq_div_pow, Nat.pow_one]
      have hdigit : (x ^ 2 ^ j) ^ (e.toNat % 2) =
          ((if e.getLsbD 0 then [BitVec.ofNat 32 j] else []).map fun d => x ^ 2 ^ d.toNat).prod := by
        rw [BitVec.getLsbD, Nat.testBit_zero]
        obtain h | h := Nat.mod_two_eq_zero_or_one e.toNat <;>
          simp [h, Nat.mod_eq_of_lt (show j < 4294967296 by omega)]
      rw [powPositions_succ hzero, List.map_append, List.prod_append, ih (by omega) (by omega), hhalf, ← hdigit,
        Nat.pow_succ, pow_mul, ← pow_mul _ 2, ← pow_add, Nat.mod_add_div]

/-- Settles O17: in `ZMod p` the entries are the powers at the set digits, which multiply to the power. -/
theorem powLookupReturnsThePower : Obligations.PowLookupReturnsThePower := by
  intro p root gm base e hp htable
  constructor
  · refine element_eq_of_natCast_eq (powProduct_lt hp _) (Nat.mod_lt _ hp) ?_
    have hentry : ∀ j ∈ powReads e,
        ((valueAt p gm (elemAddr base j) : Nat) : ZMod p) = (root : ZMod p) ^ 2 ^ j.toNat := fun j hj => by
      rw [valueAt, elemAddr, htable _ (getLsbD_of_mem_powReads hj), Option.getD_some, ZMod.natCast_mod, Nat.cast_pow]
    calc ((powLookup p gm base e : Nat) : ZMod p)
        = ((powReads e).map fun j => (root : ZMod p) ^ 2 ^ j.toNat).prod := by
          rw [powLookup, natCast_powProduct, List.map_map]
          exact congrArg List.prod (List.map_congr_left hentry)
      _ = ((root : ZMod p) ^ 2 ^ 0) ^ e.toNat := prod_powPositions _ e.isLt (Nat.le_refl 32)
      _ = ((root ^ e.toNat % p : Nat) : ZMod p) := by
          rw [Nat.pow_zero, pow_one, ZMod.natCast_mod, Nat.cast_pow]
  · intro m hm j hj
    by_contra hge
    have hdigit := getLsbD_of_mem_powReads hj
    rw [BitVec.getLsbD, Nat.testBit_lt_two_pow (hm.trans_le (Nat.pow_le_pow_right Nat.two_pos (by omega)))] at hdigit
    cases hdigit

end Sys2Proof.Machine
end

section
/-! PROOFS. The stores of the functional forms (41_ntt_stage.md R174, 43_scalar_mul.md R213, 44_lookup_eval.md R233): each
command stores to every cell of its write footprint, and to each once. -/

namespace Sys2Proof.Machine

/-! ### Lists of uints and of cells -/

@[simp] theorem mem_upTo {n i : U32} : i ∈ upTo n ↔ i.toNat < n.toNat := by
  rw [upTo, List.mem_map]
  constructor
  · rintro ⟨k, hk, rfl⟩
    have hk := List.mem_range.mp hk
    rwa [toNat_ofNat_of_lt (hk.trans n.isLt)]
  · exact fun h => ⟨i.toNat, List.mem_range.mpr h, BitVec.eq_of_toNat_eq (toNat_ofNat_of_lt i.isLt)⟩

@[simp] theorem length_upTo (n : U32) : (upTo n).length = n.toNat := by
  simp [upTo]

theorem getElem?_upTo {n i : U32} {k : Nat} (h : (upTo n)[k]? = some i) : i.toNat = k ∧ k < n.toNat := by
  rw [upTo, List.getElem?_map, Option.map_eq_some_iff] at h
  obtain ⟨j, hj, rfl⟩ := h
  obtain ⟨hk, rfl⟩ := List.getElem?_eq_some_iff.mp hj
  rw [List.length_range] at hk
  rw [List.getElem_range, toNat_ofNat_of_lt (hk.trans n.isLt)]
  exact ⟨rfl, hk⟩

theorem toNat_upTo (n : U32) : (upTo n).map BitVec.toNat = List.range n.toNat := by
  rw [upTo, List.map_map]
  refine (List.map_congr_left fun k hk => ?_).trans (List.map_id _)
  exact toNat_ofNat_of_lt ((List.mem_range.mp hk).trans n.isLt)

theorem nodup_upTo (n : U32) : (upTo n).Nodup :=
  List.Nodup.of_map BitVec.toNat (toNat_upTo n ▸ List.nodup_range)

theorem mem_cellsFrom {base : Addr} {lo len a : Nat} :
    a ∈ cellsFrom base lo len ↔ ∃ j, j < len ∧ a = base.toNat + (lo + j) := by
  simp [cellsFrom, eq_comm]

theorem nodup_cellsFrom (base : Addr) (lo len : Nat) : (cellsFrom base lo len).Nodup :=
  List.nodup_range.map fun _ _ h => by omega

theorem map_elemAddr_upTo (base : Addr) (n : U32) : (upTo n).map (elemAddr base) = cellsFrom base 0 n.toNat := by
  rw [cellsFrom, ← toNat_upTo, List.map_map]
  exact List.map_congr_left fun i _ => by simp [elemAddr]

theorem elemAddr_mem_cellsFrom {base : Addr} {i : U32} {len : Nat} (h : i.toNat < len) :
    elemAddr base i ∈ cellsFrom base 0 len :=
  mem_cellsFrom.mpr ⟨i.toNat, h, by rw [elemAddr, Nat.zero_add]⟩

/-! ### `SCALAR_MUL` and `LOOKUP_EVAL` -/

theorem map_fst_scalarStores (p : Nat) (o : ScalarOperands) (factor : Nat) (gm : List (Nat × Nat)) :
    (scalarStores p o factor gm).map (fun st => st.1) = scalarCells o := by
  rw [scalarStores, List.map_map]
  exact map_elemAddr_upTo o.el o.n

theorem map_fst_lookupStores (p : Nat) (o : LookupOperands) (gm : List (Nat × Nat)) :
    (lookupStores p o gm).map (fun st => st.1) = lookupWrites o := by
  rw [lookupStores, List.map_map]
  exact map_elemAddr_upTo o.val o.size

/-! ### `NTT_STAGE` -/

/-- Two digits to a base are fixed by the number they make. -/
theorem digits_inj {b q q' x x' : Nat} (hx : x < b) (hx' : x' < b) (h : q * b + x = q' * b + x') :
    q = q' ∧ x = x' := by
  have hpos : 0 < b := by omega
  have hdiv := congrArg (· / b) h
  have hmod := congrArg (· % b) h
  simp only [Nat.mul_comm _ b, Nat.mul_add_div hpos, Nat.div_eq_of_lt hx, Nat.div_eq_of_lt hx', Nat.mul_add_mod,
    Nat.mod_eq_of_lt hx, Nat.mod_eq_of_lt hx', Nat.add_zero] at hdiv hmod
  exact ⟨hdiv, hmod⟩

section
variable {o : NttOperands} {r : Nat} (hs : NttSizes o r)
include hs

theorem NttSizes.toNat_reverse (i : U32) : (nttReverse o i).toNat = bitreverse i.toNat o.deg.toNat := by
  have hlt : bitreverse i.toNat o.deg.toNat < 2 ^ o.deg.toNat := bitreverse_lt _ _
  exact toNat_ofNat_of_lt (hlt.trans_le (Nat.pow_le_pow_right Nat.two_pos (by have := hs.le; omega)))

theorem NttSizes.reverse_lt (i : U32) : (nttReverse o i).toNat < (nttCount o).toNat := by
  rw [hs.toNat_reverse, hs.count_eq]
  exact bitreverse_lt _ _

theorem NttSizes.reverse_reverse {i : U32} (hi : i.toNat < (nttCount o).toNat) : nttReverse o (nttReverse o i) = i := by
  rw [hs.count_eq] at hi
  apply BitVec.eq_of_toNat_eq
  rw [hs.toNat_reverse, hs.toNat_reverse, bitreverse_bitreverse hi]

theorem NttSizes.storeAddr_mem_writes {index : U32} (hindex : index.toNat < (nttT o).toNat) (i : U32) :
    nttStoreAddr o index i ∈ nttWrites o :=
  elemAddr_mem_cellsFrom (hs.dest_lt hindex (hs.reverse_lt i))

/-- The digits of a destination index give back the group and the local position. -/
theorem NttSizes.dest_inj {index index' i i' : U32} (hindex : index.toNat < (nttT o).toNat)
    (hindex' : index'.toNat < (nttT o).toNat) (hi : i.toNat < (nttCount o).toNat) (hi' : i'.toNat < (nttCount o).toNat)
    (h : (nttDest o (nttBase o index (nttK o index)) i).toNat = (nttDest o (nttBase o index' (nttK o index')) i').toNat) :
    index = index' ∧ i = i' := by
  rw [hs.toNat_dest hindex hi, hs.toNat_dest hindex' hi'] at h
  have hlow := hs.k_add_lt (index := index) hi
  have hlow' := hs.k_add_lt (index := index') hi'
  have hk : index.toNat % 2 ^ o.lgp.toNat < 2 ^ o.lgp.toNat := Nat.mod_lt _ (Nat.two_pow_pos _)
  have hk' : index'.toNat % 2 ^ o.lgp.toNat < 2 ^ o.lgp.toNat := Nat.mod_lt _ (Nat.two_pow_pos _)
  rw [Nat.mul_assoc, Nat.mul_assoc, Nat.add_assoc, Nat.add_assoc] at h
  obtain ⟨hq, hrest⟩ := digits_inj hlow hlow' h
  rw [Nat.add_comm, Nat.add_comm (index'.toNat % _)] at hrest
  obtain ⟨hi, hmod⟩ := digits_inj hk hk' hrest
  have hsplit := Nat.div_add_mod' index.toNat (2 ^ o.lgp.toNat)
  have hsplit' := Nat.div_add_mod' index'.toNat (2 ^ o.lgp.toNat)
  refine ⟨BitVec.eq_of_toNat_eq ?_, BitVec.eq_of_toNat_eq hi⟩
  rw [← hsplit, ← hsplit', hq, hmod]

theorem NttSizes.storeAddr_inj {index index' i i' : U32} (hindex : index.toNat < (nttT o).toNat)
    (hindex' : index'.toNat < (nttT o).toNat) (hi : i.toNat < (nttCount o).toNat) (hi' : i'.toNat < (nttCount o).toNat)
    (h : nttStoreAddr o index i = nttStoreAddr o index' i') : index = index' ∧ i = i' := by
  obtain ⟨rfl, hrev⟩ := hs.dest_inj hindex hindex' (hs.reverse_lt i) (hs.reverse_lt i') (Nat.add_left_cancel h)
  exact ⟨rfl, by rw [← hs.reverse_reverse hi, hrev, hs.reverse_reverse hi']⟩

end

variable {p : Nat} {o : NttOperands} {gm : List (Nat × Nat)}

theorem mem_nttStores {st : Nat × Nat} :
    st ∈ nttStores p o gm ↔ ∃ index i : U32, index.toNat < (nttT o).toNat ∧ i.toNat < (nttCount o).toNat ∧
      st = (nttStoreAddr o index i, cellOf p (groupResult p o gm index) i) := by
  simp only [nttStores, List.mem_flatMap, groupStores, List.mem_map, mem_upTo]
  constructor
  · rintro ⟨index, hindex, i, hi, rfl⟩
    exact ⟨index, i, hindex, hi, rfl⟩
  · rintro ⟨index, i, hindex, hi, rfl⟩
    exact ⟨index, hindex, i, hi, rfl⟩

theorem map_fst_nttStores : (nttStores p o gm).map (fun st => st.1) =
    (upTo (nttT o)).flatMap fun index => (upTo (nttCount o)).map (nttStoreAddr o index) := by
  rw [nttStores, List.map_flatMap]
  congr 1
  funext index
  rw [groupStores, List.map_map]
  rfl

theorem NttSizes.nodup_stores {r : Nat} (hs : NttSizes o r) : ((nttStores p o gm).map fun st => st.1).Nodup := by
  rw [map_fst_nttStores, List.nodup_flatMap]
  constructor
  · exact fun index hindex => (nodup_upTo _).map_on fun i hi i' hi' h =>
      (hs.storeAddr_inj (mem_upTo.mp hindex) (mem_upTo.mp hindex) (mem_upTo.mp hi) (mem_upTo.mp hi') h).2
  · refine (nodup_upTo _).pairwise_of_forall_ne fun index hindex index' hindex' hne => ?_
    rw [Function.onFun, List.disjoint_left]
    intro a ha ha'
    obtain ⟨i, hi, rfl⟩ := List.mem_map.mp ha
    obtain ⟨i', hi', h⟩ := List.mem_map.mp ha'
    exact hne (hs.storeAddr_inj (mem_upTo.mp hindex) (mem_upTo.mp hindex') (mem_upTo.mp hi) (mem_upTo.mp hi') h.symm).1

theorem NttSizes.store_mem_writes {r : Nat} (hs : NttSizes o r) {st : Nat × Nat} (h : st ∈ nttStores p o gm) :
    st.1 ∈ nttWrites o := by
  obtain ⟨index, i, hindex, -, rfl⟩ := mem_nttStores.mp h
  exact hs.storeAddr_mem_writes hindex i

/-- Settles O20: no two stores go to one cell, they stay in the destination, and they are as many as its cells. -/
theorem nttScatterCoversTheDestinationOnce : Obligations.NttScatterCoversTheDestinationOnce := by
  intro c o p gm hok
  obtain ⟨r, hs⟩ := nttSizes_of_nttParamsOk hok
  have hsub : ((nttStores p o gm).map fun st => st.1) ⊆ nttWrites o := fun a ha => by
    obtain ⟨st, hst, rfl⟩ := List.mem_map.mp ha
    exact hs.store_mem_writes hst
  have hlength : ((nttStores p o gm).map fun st => st.1).length = (nttWrites o).length := by
    rw [map_fst_nttStores, List.length_flatMap]
    simp [nttWrites, cellsFrom, ← hs.t_mul_count, hs.count_eq]
  exact (List.subperm_of_subset hs.nodup_stores hsub).perm_of_length_le hlength.ge

end Sys2Proof.Machine
end

section
/-! PROOFS. Admission and `START` of any command (60_exceptions.md R252, R256, R271): the first failing test decides, and an
accepted command is in flight or has completed. -/

namespace Sys2Proof.Machine

/-! ### The tests of admission -/

theorem addrOk_iff {dom : List Region} {a : Nat} : addrOk dom a = true ↔ a < 2 ^ 64 ∧ domHas dom a = true := by
  simp [addrOk]

/-- The tests in order, each as the proposition it decides. -/
theorem admission_eq (s : State) (r : Request) [Decidable (∀ a ∈ r.reads ++ r.writes, addrOk s.dom a = true)]
    [Decidable (∀ a ∈ r.writes, a ∉ r.others)] [Decidable (∀ a ∈ r.reads, (gmRead s.gm a).isSome = true)] :
    admission s r =
      if ¬r.paramsOk = true then some .badParam
      else if ¬∀ a ∈ r.reads ++ r.writes, addrOk s.dom a = true then some .outOfRange
      else if ¬∀ a ∈ r.writes, a ∉ r.others then some .overlap
      else if ¬∀ a ∈ r.reads, (gmRead s.gm a).isSome = true then some .uninitRead
      else none := by
  have hany : (r.writes.any r.others.contains = true) ↔ ¬∀ a ∈ r.writes, a ∉ r.others := by simp
  simp only [admission, Bool.not_eq_true', ← Bool.not_eq_true, List.all_eq_true, hany]

/-- Settles O42: the tests are made in their order, and `START` takes the fault admission names. -/
theorem admissionReportsTheFirstFailingTest : Obligations.AdmissionReportsTheFirstFailingTest := by
  classical
  intro s r
  have hrange : (∀ a ∈ r.reads ++ r.writes, a < 2 ^ 64 ∧ ∃ q ∈ s.dom, q.lo ≤ a ∧ a < q.hi) ↔
      ∀ a ∈ r.reads ++ r.writes, addrOk s.dom a = true := by
    simp only [addrOk_iff, domHas_iff]
  have hfilled : (∀ a ∈ r.reads, ∃ v, gmRead s.gm a = some v) ↔ ∀ a ∈ r.reads, (gmRead s.gm a).isSome = true := by
    simp only [Option.isSome_iff_exists]
  simp only [hrange, hfilled, ← Bool.not_eq_true]
  refine ⟨?_, ?_, ?_, ?_, ?_, fun hs code => ⟨fun o => startLaunch_refused hs, fun o => startLaunch_refused hs,
    fun o => startLaunch_refused hs⟩⟩
  all_goals
    rw [admission_eq]
    split_ifs with hparams hdom hdisjoint hvalue <;> simp only [reduceCtorEq, Option.some.injEq, true_iff, false_iff] <;>
      tauto

theorem admission_eq_overlap {s : State} {r : Request} (hparams : r.paramsOk = true)
    (hrange : ∀ a ∈ r.reads ++ r.writes, addrOk s.dom a = true) (h : ∃ a ∈ r.writes, a ∈ r.others) :
    admission s r = some .overlap := by
  classical
  rw [admission_eq, if_neg (not_not_intro hparams), if_neg (not_not_intro hrange), if_pos (by simpa using h)]

theorem admission_eq_uninitRead {s : State} {r : Request} (hparams : r.paramsOk = true)
    (hrange : ∀ a ∈ r.reads ++ r.writes, addrOk s.dom a = true) (hapart : ∀ a ∈ r.writes, a ∉ r.others)
    (h : ∃ a ∈ r.reads, gmRead s.gm a = none) : admission s r = some .uninitRead := by
  classical
  obtain ⟨a, ha, hnone⟩ := h
  rw [admission_eq, if_neg (not_not_intro hparams), if_neg (not_not_intro hrange), if_neg (not_not_intro hapart),
    if_pos fun hall => by simpa [hnone] using hall a ha]

theorem admission_ne_overlap {s : State} {r : Request} (h : r.others = []) : admission s r ≠ some .overlap := by
  classical
  rw [admission_eq]
  simp only [h]
  split_ifs <;> simp_all

/-! ### `START` of any command -/

/-- What admission tests of a command. -/
def commandRequest (c : Params) : Instr → Request
  | .nttStage o => nttRequest c o
  | .scalarMul o => scalarRequest c o
  | .lookupEval o => lookupRequest o

/-- The launch of a command at the lane level. -/
def commandLaunch (c : Params) : Instr → Launch
  | .nttStage o => newNttLaunch c o
  | .scalarMul o => newScalarLaunch o (scalarFactor c o)
  | .lookupEval o => newLookupLaunch o

/-- The stores of a command's functional form. -/
def commandStores (c : Params) (gm : List (Nat × Nat)) : Instr → List (Nat × Nat)
  | .nttStage o => nttStores c.pMod o gm
  | .scalarMul o => scalarStores c.pMod o (scalarFactor c o) gm
  | .lookupEval o => lookupStores c.pMod o gm

/-- `START` of a command, whichever it is. -/
theorem exec_eq (i : Instr) (s : State) :
    exec i s = startLaunch (commandRequest s.cfg i) (commandLaunch s.cfg i)
      (gmStores s.gm (commandStores s.cfg s.gm i)) s := by
  cases i <;> rfl

@[simp] theorem commandLaunch_command (c : Params) (i : Instr) : (commandLaunch c i).command = i := by
  cases i <;> rfl

@[simp] theorem commandRequest_writes (c : Params) (i : Instr) : (commandRequest c i).writes = commandWrites i := by
  cases i <;> rfl

/-- `START` of a command always answers a next state, one of four. -/
theorem exec_cases (i : Instr) (s : State) :
    (s.status ≠ .idle ∧ exec i s = .next s) ∨
    (s.status = .idle ∧ ∃ code, admission s (commandRequest s.cfg i) = some code ∧ exec i s = .next (s.enterFault code)) ∨
    (s.status = .idle ∧ admission s (commandRequest s.cfg i) = none ∧ s.level = .lane ∧
      exec i s = .next (s.enterBusy (commandLaunch s.cfg i))) ∨
    (s.status = .idle ∧ admission s (commandRequest s.cfg i) = none ∧ s.level = .functional ∧
      exec i s = .next (s.complete i (gmStores s.gm (commandStores s.cfg s.gm i)))) := by
  have h := startLaunch_cases (commandRequest s.cfg i) (commandLaunch s.cfg i)
    (gmStores s.gm (commandStores s.cfg s.gm i)) s
  rwa [← exec_eq, commandLaunch_command] at h

/-- A command whose parameters pass stores to its write footprint only. -/
theorem store_mem_commandWrites {c : Params} {i : Instr} {gm : List (Nat × Nat)} {st : Nat × Nat}
    (hok : (commandRequest c i).paramsOk = true) (h : st ∈ commandStores c gm i) : st.1 ∈ commandWrites i := by
  cases i with
  | nttStage o =>
    obtain ⟨r, hs⟩ := nttSizes_of_nttParamsOk hok
    exact hs.store_mem_writes h
  | scalarMul o =>
    have hmem := List.mem_map_of_mem (f := fun st => st.1) h
    rwa [commandStores, map_fst_scalarStores] at hmem
  | lookupEval o =>
    have hmem := List.mem_map_of_mem (f := fun st => st.1) h
    rwa [commandStores, map_fst_lookupStores] at hmem

theorem gmRead_commandStores_frame {c : Params} {i : Instr} {gm gm' : List (Nat × Nat)} {a : Nat}
    (hok : (commandRequest c i).paramsOk = true) (ha : a ∉ commandWrites i) :
    gmRead (gmStores gm' (commandStores c gm i)) a = gmRead gm' a :=
  gmRead_gmStores_other _ fun _ hst he => ha (he ▸ store_mem_commandWrites hok hst)

/-- Settles O46: each of the four answers of `START` is one update of the state. -/
theorem startFrame : Obligations.StartFrame := by
  intro i s
  obtain ⟨-, h⟩ | ⟨-, code, -, h⟩ | ⟨hs, -, -, h⟩ | ⟨hs, hadm, hlevel, h⟩ := exec_cases i s
  · exact ⟨s, h, rfl, .inl rfl, fun _ => rfl, fun _ _ => rfl⟩
  · exact ⟨_, h, rfl, .inl rfl, fun _ => rfl, fun _ _ => rfl⟩
  · refine ⟨_, h, rfl, .inr ⟨hs, by simp, ?_⟩, fun _ => rfl, fun _ _ => rfl⟩
    rw [enterBusy_held, commandLaunch_command]
  · obtain ⟨hok, -⟩ := (admission_eq_none_iff _ _).mp hadm
    refine ⟨_, h, rfl, .inr ⟨hs, by simp, rfl⟩, fun hlane => ?_, fun a ha => gmRead_commandStores_frame hok ha⟩
    rw [hlevel] at hlane
    cases hlane

/-! ### Arrays that meet -/

/-- Settles O43: the shared cell makes the third test fail; `SCALAR_MUL` has no other array to test. -/
theorem overlappingOutputIsRefused : Obligations.OverlappingOutputIsRefused := by
  intro s hs
  refine ⟨fun o hok hrange hmeet => startLaunch_refused hs (admission_eq_overlap hok ?_ ?_),
    fun o hok hrange hmeet => startLaunch_refused hs (admission_eq_overlap hok ?_ hmeet), fun o hfault => ?_⟩
  · exact fun a ha => addrOk_iff.mpr (hrange a ha)
  · obtain hxy | hmeet := hmeet
    · obtain ⟨r, hsizes⟩ := nttSizes_of_nttParamsOk hok
      have hn : 0 < o.n.toNat := hsizes.t_mul_count ▸ Nat.mul_pos hsizes.t_pos (Nat.two_pow_pos _)
      have hcell : o.y.toNat + (0 + 0) ∈ nttWrites o := mem_cellsFrom.mpr ⟨0, hn, rfl⟩
      refine ⟨_, hcell, ?_⟩
      simp only [nttRequest, nttReads, hxy, List.mem_append]
      exact .inl (.inl hcell)
    · exact hmeet
  · exact fun a ha => addrOk_iff.mpr (hrange a ((List.mem_append.mp ha).elim id (List.mem_append_left _)))
  · obtain ⟨hne, -⟩ | ⟨-, code, hcode, h⟩ | ⟨-, -, -, h⟩ | ⟨-, -, -, h⟩ := exec_cases (.scalarMul o) s
    · exact hne hs
    · rw [h, Host.Outcome.next.injEq] at hfault
      have hoverlap : code = .overlap := congrArg State.cause hfault
      exact admission_ne_overlap rfl (hoverlap ▸ hcode)
    · rw [h, Host.Outcome.next.injEq] at hfault
      exact absurd (congrArg State.status hfault) (by simp)
    · rw [h, Host.Outcome.next.injEq] at hfault
      exact absurd (congrArg State.status hfault) (by simp)

/-! ### Reset during a launch -/

/-- Settles O57: reset erases what the launch writes, and the read test of admission is the last. -/
theorem resetEmptiesTheWriteFootprint : Obligations.ResetEmptiesTheWriteFootprint := by
  intro s l hl
  have hlosses : s.resetLosses = launchWrites l := by
    rw [State.resetLosses, hl]
  have hread (a : Nat) : gmRead s.hardReset.gm a = if a ∈ launchWrites l then none else gmRead s.gm a := by
    rw [hardReset_gm, gmRead_gmErase, hlosses]
  refine ⟨rfl, fun a ha => by rw [hread, if_pos ha], fun a ha => by rw [hread, if_neg ha],
    fun r a hwrite hreads hok hrange hapart => admission_eq_uninitRead hok hrange hapart ⟨a, hreads, ?_⟩⟩
  rw [hread, if_pos hwrite]

end Sys2Proof.Machine
end

section
/-! PROOFS. An admitted command at either level (41_ntt_stage.md section 6, 43_scalar_mul.md R212 to R216, 44_lookup_eval.md
R224, R233): what it leaves in memory, and the lanes it creates. -/

namespace Sys2Proof.Machine

variable {s : State}

theorem exec_functional {i : Instr} (hs : s.status = .idle) (hlevel : s.level = .functional)
    (hadm : admission s (commandRequest s.cfg i) = none) :
    exec i s = .next { s with status := .done, gm := gmStores s.gm (commandStores s.cfg s.gm i), held := i :: s.held } := by
  rw [exec_eq, startLaunch_functional hs hlevel hadm, commandLaunch_command]
  rfl

theorem exec_lane {i : Instr} (hs : s.status = .idle) (hlevel : s.level = .lane)
    (hadm : admission s (commandRequest s.cfg i) = none) :
    exec i s = .next { s with status := .busy, launch := some (commandLaunch s.cfg i), held := i :: s.held } := by
  rw [exec_eq, startLaunch_lane hs hlevel hadm, State.enterBusy, commandLaunch_command]

/-- A cell of an admitted command's read footprint holds a value. -/
theorem exists_gmRead_of_admission {r : Request} {a : Nat} (hadm : admission s r = none) (ha : a ∈ r.reads) :
    ∃ v, gmRead s.gm a = some v := by
  obtain ⟨-, -, -, hfilled⟩ := (admission_eq_none_iff _ _).mp hadm
  exact Option.isSome_iff_exists.mp (hfilled a ha)

theorem valueAt_of_gmRead {p a v : Nat} {gm : List (Nat × Nat)} (h : gmRead gm a = some v) : valueAt p gm a = v := by
  rw [valueAt, h, Option.getD_some]

/-- A launch whose lanes have all ended, with nothing for the host to do, can only end (60_exceptions.md R272). -/
theorem step_of_ended {l : Launch} (hlaunch : s.launch = some l) (hhost : s.host = [])
    (hmoves : laneMoves s.picked l = []) (hended : launchEnded l = true) : step s = .next s.picked.endLaunch := by
  have hfinish : laneMoves s.picked l ++ finishMoves s.picked l = [.ok s.picked.endLaunch] := by
    rw [hmoves, List.nil_append, finishMoves, if_pos hended]
  obtain ⟨r, hr, hstep⟩ := step_alone hlaunch hhost (hfinish ▸ List.cons_ne_nil _ _)
  rw [hfinish, List.mem_singleton] at hr
  rw [hstep, hr]
  rfl

/-! ### `NTT_STAGE` -/

/-- Settles O19: the stores go to distinct cells, so each holds what was stored there. -/
theorem nttStageScattersGroupResults : Obligations.NttStageScattersGroupResults := by
  intro s o hs hlevel hadm
  obtain ⟨hok, -⟩ := (admission_eq_none_iff _ _).mp hadm
  obtain ⟨r, hsizes⟩ := nttSizes_of_nttParamsOk hok
  exact ⟨_, exec_functional (i := .nttStage o) hs hlevel hadm,
    fun index i hindex hi => gmRead_gmStores_mem _ hsizes.nodup_stores (mem_nttStores.mpr ⟨index, i, hindex, hi, rfl⟩),
    fun a ha => gmRead_commandStores_frame (i := .nttStage o) hok ha⟩

/-- Settles O22: groups and lanes are the images of the uints below their numbers. -/
theorem nttStartCreatesGroupsAndLanes : Obligations.NttStartCreatesGroupsAndLanes := by
  intro s o hs hlevel hadm
  obtain ⟨hok, -⟩ := (admission_eq_none_iff _ _).mp hadm
  obtain ⟨r, hsizes⟩ := nttSizes_of_nttParamsOk hok
  refine ⟨_, exec_lane (i := .nttStage o) hs hlevel hadm, ?_, fun j g hg => ?_⟩
  · rw [List.length_map, length_upTo, toNat_nttT]
  · obtain ⟨index, hindex, rfl⟩ := Option.map_eq_some_iff.mp (List.getElem?_map ▸ hg)
    obtain ⟨hj, -⟩ := getElem?_upTo hindex
    refine ⟨hj, rfl, rfl, by rw [newNttGroup, hsizes.count_eq], ?_, fun k l hl => ?_⟩
    · rw [newNttGroup, List.length_map, length_upTo, hsizes.toNat_lanes]
      rfl
    · obtain ⟨lid, hlid, rfl⟩ := Option.map_eq_some_iff.mp (List.getElem?_map ▸ hl)
      exact ⟨rfl, (getElem?_upTo hlid).1⟩

/-! ### `SCALAR_MUL` -/

theorem scalarFactor_of_paramsOk {c : Params} {o : ScalarOperands} (hok : (scalarRequest c o).paramsOk = true) :
    fieldDec c o.scalar = some (scalarFactor c o) := by
  obtain ⟨f, hf⟩ := Option.isSome_iff_exists.mp hok
  rw [scalarFactor, hf, Option.getD_some]

/-- Settles O32: a lane's load and store succeed on a cell of `Dom`; the functional form stores once per element. -/
theorem scalarMulMultipliesEveryElement : Obligations.ScalarMulMultipliesEveryElement := by
  refine ⟨fun s o f gid x v haddr => ⟨fun hread => ?_, ?_⟩, fun s o hs hlevel hadm => ?_⟩
  · simp only [scalarLaneStep, memLoad_eq_ok.mpr ⟨haddr, hread⟩]
    rfl
  · simp only [scalarLaneStep, temp, memStore_eq_ok.mpr ⟨haddr, rfl⟩]
    rfl
  · obtain ⟨hok, -⟩ := (admission_eq_none_iff _ _).mp hadm
    refine ⟨_, _, exec_functional (i := .scalarMul o) hs hlevel hadm, scalarFactor_of_paramsOk hok, fun i hi => ?_,
      fun a ha => gmRead_commandStores_frame (i := .scalarMul o) hok fun hmem => ?_⟩
    · have htoNat := toNat_ofNat_of_lt (hi.trans o.n.isLt)
      have hcell : o.el.toNat + i = elemAddr o.el (BitVec.ofNat 32 i) := by rw [elemAddr, htoNat]
      have hmem : BitVec.ofNat 32 i ∈ upTo o.n := mem_upTo.mpr (htoNat.symm ▸ hi)
      rw [hcell]
      obtain ⟨v, hv⟩ := exists_gmRead_of_admission hadm (elemAddr_mem_cellsFrom (mem_upTo.mp hmem))
      refine ⟨v, hv, gmRead_gmStores_mem _ ?_ (List.mem_map.mpr ⟨_, hmem, ?_⟩)⟩
      · exact (map_fst_scalarStores _ _ _ _).symm ▸ nodup_cellsFrom _ _ _
      · rw [valueAt_of_gmRead hv]
    · obtain ⟨i, hi, rfl⟩ := mem_cellsFrom.mp hmem
      exact ha i hi (by rw [Nat.zero_add])

/-- Settles O33: a lane per uint below `n`. -/
theorem scalarStartCreatesLanes : Obligations.ScalarStartCreatesLanes := by
  intro s o hs hlevel hadm
  obtain ⟨hok, -⟩ := (admission_eq_none_iff _ _).mp hadm
  refine ⟨_, _, scalarFactor_of_paramsOk hok, exec_lane (i := .scalarMul o) hs hlevel hadm, ?_, fun k l hl => ?_⟩
  · rw [List.length_map, length_upTo]
  · obtain ⟨gid, hgid, rfl⟩ := Option.map_eq_some_iff.mp (List.getElem?_map ▸ hl)
    exact ⟨(getElem?_upTo hgid).1, rfl, rfl⟩

/-- Settles O34: no cell, so no test but the first can fail; no lane, so the only move is the end of the launch. -/
theorem scalarMulOfNothing : Obligations.ScalarMulOfNothing := by
  intro s o hs hn hfactor
  have hupTo : upTo o.n = [] := by rw [hn]; rfl
  have hcells : scalarCells o = [] := by rw [scalarCells, ← map_elemAddr_upTo, hupTo, List.map_nil]
  have hadm : admission s (commandRequest s.cfg (.scalarMul o)) = none := by
    rw [admission_eq_none_iff]
    simp [commandRequest, scalarRequest, hcells, hfactor]
  refine ⟨fun hlevel => ?_, fun hlevel hhost => ?_⟩
  · rw [exec_functional hs hlevel hadm]
    simp [commandStores, scalarStores, hupTo]
  · have hlaunch : commandLaunch s.cfg (.scalarMul o) = .scalar o (scalarFactor s.cfg o) [] := by
      rw [commandLaunch, newScalarLaunch, hupTo, List.map_nil]
    have hstart := exec_lane hs hlevel hadm
    rw [hlaunch] at hstart
    exact ⟨_, _, hstart, rfl, step_of_ended rfl hhost rfl rfl, rfl, rfl, rfl⟩

/-! ### `LOOKUP_EVAL` -/

/-- Settles O39: a lane per uint below `size`. -/
theorem lookupStartCreatesLanes : Obligations.LookupStartCreatesLanes := by
  intro s o hs hlevel hadm
  refine ⟨_, exec_lane (i := .lookupEval o) hs hlevel hadm, ?_, fun k l hl => ?_⟩
  · rw [List.length_map, length_upTo]
  · obtain ⟨idx, hidx, rfl⟩ := Option.map_eq_some_iff.mp (List.getElem?_map ▸ hl)
    exact ⟨rfl, (getElem?_upTo hidx).1⟩

/-- `lookupValue` as the polynomial of R233 in the elements read. -/
theorem natCast_lookupValue {p : Nat} (hp : 0 < p) (o : LookupOperands) (gm : List (Nat × Nat)) (idx : U32) :
    let get := fun (base : Addr) (i : U32) => ((valueAt p gm (elemAddr base i) : Nat) : ZMod p)
    let y := get o.ch 0
    let z := get o.prd idx
    let a := get o.pic idx
    let s := get o.ptc idx
    let q0 := get o.l0 idx
    let qa := get o.la idx
    ((lookupValue p o gm idx : Nat) : ZMod p) =
      get o.val idx * y ^ 5 + q0 * (1 - z) * y ^ 4 + get o.ll idx * (z ^ 2 - z) * y ^ 3 +
        qa * ((a + get o.ch 1) * (s + get o.ch 2) * get o.prd (lookupNext o idx) - z * get o.tab idx) * y ^ 2 +
        q0 * (a - s) * y + qa * (a - s) * (a - get o.pic (lookupPrev o idx)) := by
  simp only [lookupValue, natCast_foldTerm, natCast_lookupTerm1 hp, natCast_lookupTerm2 hp, natCast_lookupTerm3 hp,
    natCast_lookupTerm4 hp, natCast_lookupTerm5 hp]
  ring

section
variable {o : LookupOperands} {j : Nat}

theorem mem_lookupReads {base : Addr} (hbase : base ∈ [o.val, o.tab, o.pic, o.ptc, o.prd, o.l0, o.ll, o.la])
    (hj : j < o.size.toNat) : base.toNat + j ∈ lookupWrites o ++ lookupOthers o := by
  have hcell : base.toNat + j ∈ cellsFrom base 0 o.size.toNat := mem_cellsFrom.mpr ⟨j, hj, by rw [Nat.zero_add]⟩
  obtain rfl | hbase := List.mem_cons.mp hbase
  · exact List.mem_append_left _ hcell
  · exact List.mem_append_right _ (List.mem_append_left _ (List.mem_flatMap.mpr ⟨base, hbase, hcell⟩))

theorem mem_lookupReads_challenge (hj : j < 3) : o.ch.toNat + j ∈ lookupWrites o ++ lookupOthers o :=
  List.mem_append_right _ (List.mem_append_right _ (mem_cellsFrom.mpr ⟨j, hj, by rw [Nat.zero_add]⟩))

end

/-- Settles O38: every array of the launch holds values, and the value stored is the polynomial in them. -/
theorem lookupEvalFoldsTheIdentities : Obligations.LookupEvalFoldsTheIdentities := by
  intro s o hp hs hlevel hadm
  obtain ⟨hok, -⟩ := (admission_eq_none_iff _ _).mp hadm
  refine ⟨_, exec_functional (i := .lookupEval o) hs hlevel hadm,
    fun a ha => gmRead_commandStores_frame (i := .lookupEval o) hok ha, fun idx hidx => ?_⟩
  have hnext := toNat_lookupNext hok hidx
  have hprev := toNat_lookupPrev hok hidx
  have hsize : 0 < o.size.toNat := by omega
  have hread {base : Addr} {j : Nat} (hbase : base ∈ [o.val, o.tab, o.pic, o.ptc, o.prd, o.l0, o.ll, o.la])
      (hj : j < o.size.toNat) := exists_gmRead_of_admission hadm (mem_lookupReads hbase hj)
  have hchallenge {j : Nat} (hj : j < 3) := exists_gmRead_of_admission hadm (mem_lookupReads_challenge (o := o) hj)
  obtain ⟨y, hy⟩ := hchallenge (j := 0) (by omega)
  obtain ⟨beta, hbeta⟩ := hchallenge (j := 1) (by omega)
  obtain ⟨gamma, hgamma⟩ := hchallenge (j := 2) (by omega)
  obtain ⟨v0, hv0⟩ := hread (base := o.val) (by simp) hidx
  obtain ⟨z, hz⟩ := hread (base := o.prd) (by simp) hidx
  obtain ⟨zn, hzn⟩ := hread (base := o.prd) (by simp) (Nat.mod_lt (idx.toNat + o.rotScale.toNat) hsize)
  obtain ⟨a, ha⟩ := hread (base := o.pic) (by simp) hidx
  obtain ⟨ap, hap⟩ := hread (base := o.pic) (by simp) (Nat.mod_lt (idx.toNat + o.size.toNat - o.rotScale.toNat) hsize)
  obtain ⟨sv, hsv⟩ := hread (base := o.ptc) (by simp) hidx
  obtain ⟨tb, htb⟩ := hread (base := o.tab) (by simp) hidx
  obtain ⟨q0, hq0⟩ := hread (base := o.l0) (by simp) hidx
  obtain ⟨ql, hql⟩ := hread (base := o.ll) (by simp) hidx
  obtain ⟨qa, hqa⟩ := hread (base := o.la) (by simp) hidx
  have hstored : gmRead (gmStores s.gm (commandStores s.cfg s.gm (.lookupEval o))) (o.val.toNat + idx.toNat) =
      some (lookupValue s.cfg.pMod o s.gm idx) :=
    gmRead_gmStores_mem _ ((map_fst_lookupStores _ _ _).symm ▸ nodup_cellsFrom _ _ _)
      (List.mem_map.mpr ⟨idx, mem_upTo.mpr hidx, rfl⟩)
  refine ⟨y, beta, gamma, v0, z, zn, a, ap, sv, tb, q0, ql, qa, _, hy, hbeta, hgamma, hv0, hz, hzn, ha, hap, hsv, htb,
    hq0, hql, hqa, hstored, lookupValue_lt hp o s.gm idx, ?_⟩
  have hvalue {base : Addr} {i : U32} {j v : Nat} (hi : i.toNat = j) (h : gmRead s.gm (base.toNat + j) = some v) :
      valueAt s.cfg.pMod s.gm (elemAddr base i) = v := valueAt_of_gmRead (by rw [elemAddr, hi, h])
  simpa only [hvalue (i := 0) rfl hy, hvalue (i := 1) rfl hbeta, hvalue (i := 2) rfl hgamma, hvalue rfl hv0,
    hvalue rfl hz, hvalue hnext hzn, hvalue rfl ha, hvalue hprev hap, hvalue rfl hsv, hvalue rfl htb, hvalue rfl hq0,
    hvalue rfl hql, hvalue rfl hqa] using natCast_lookupValue hp o s.gm idx

end Sys2Proof.Machine
end

section
/-! PROOFS. What one host operation can do to the machine (10_state.md R20 (a), 60_exceptions.md R270 to R274, R278, R279),
said once: the invariants and the transitions of the sequencer are read off from it. -/

namespace Sys2Proof.Machine

/-- `START` that the sequencer takes up in `IDLE` refuses a command or accepts one (60_exceptions.md R252, R271). -/
inductive Started (m : State) : State → Prop
  | refused (code : FaultCode) (hcode : code ≠ .none) : Started m (m.enterFault code)
  | inFlight (i : Instr) (hadm : admission m (commandRequest m.cfg i) = none) (hlevel : m.level = .lane) :
      Started m (m.enterBusy (commandLaunch m.cfg i))
  | completed (i : Instr) (hadm : admission m (commandRequest m.cfg i) = none) (hlevel : m.level = .functional) :
      Started m (m.complete i (gmStores m.gm (commandStores m.cfg m.gm i)))

theorem started_of_start {m t : State} (hs : m.status = .idle) (h : m.start = .next t) : Started m t := by
  cases hdec : decode m.cfg.fieldWords m.desc.toList with
  | error e =>
    rw [start_of_decode_error hs hdec, Host.Outcome.next.injEq] at h
    subst h
    exact .refused _ (by cases e <;> decide)
  | ok i =>
    rw [start_of_decode_ok hs hdec] at h
    obtain ⟨hne, -⟩ | ⟨-, code, hcode, he⟩ | ⟨-, hadm, hlevel, he⟩ | ⟨-, hadm, hlevel, he⟩ := exec_cases i m
    · exact absurd hs hne
    all_goals
      rw [he, Host.Outcome.next.injEq] at h
      subst h
    · exact .refused _ (admission_code hcode)
    · exact .inFlight i hadm hlevel
    · exact .completed i hadm hlevel

/-- The next state of a host operation, `m` being the state with the operation taken off the host's list. -/
inductive HostEffect (m : State) (op : HostOp) : State → Prop
  /-- an ignored write, or an allocation or release of no cell -/
  | kept : HostEffect m op m
  | reset (hop : op = .reset) : HostEffect m op m.hardReset
  /-- a register read or a poll; a poll may stay the next operation, and one that sees `FAULT` empties the list -/
  | read (k : Nat) (rest : List HostOp)
      (hop : op = .regRead (m.cfg.regBase + 4 * k) 4 ∨ k = 1 ∧ (op = .awaitReady ∨ op = .awaitEnd))
      (hrest : rest = m.host ∨ op.starts m.cfg = false ∧ rest = op :: m.host ∨ m.status = .fault ∧ rest = []) :
      HostEffect m op ((m.readRegister k).withHost rest)
  /-- a write of `CLEAR` alone in `DONE` -/
  | cleared (hdone : m.status = .done) : HostEffect m op { m with status := .idle }
  /-- a write of `START` that is dropped -/
  | dropped (hop : op.starts m.cfg = true) (hs : m.status ≠ .idle) :
      HostEffect m op { m with run := m.run.starting m.status }
  /-- a write of `START` taken up in `IDLE`, or in `DONE` after `CLEAR` of the same write -/
  | started (t : State) (hop : op.starts m.cfg = true)
      (hs : m.status = .idle ∨ m.status = .done ∧ (op = .startCommand ∨
        ∃ v : Word, op = .regWrite m.cfg.regBase 4 v ∧ v.getLsbD 0 = true ∧ v.getLsbD 1 = true))
      (h : Started { m with status := .idle, run := m.run.starting .idle } t) : HostEffect m op t
  | descWritten (i : Nat) (v : Word) : HostEffect m op (m.writeDesc i v)
  | memRead (v draws : Nat) : HostEffect m op { m with edata := v, draws := draws }
  | memWritten (a v : Nat) (haddr : addrOk m.dom a = true) :
      HostEffect m op { m with gm := gmWrite m.gm a (v % m.cfg.pMod) }
  | allocated (lo len : Nat) (hlen : 0 < len) (hbound : lo + len ≤ 2 ^ 64) :
      HostEffect m op { m with dom := domAdd m.dom lo (lo + len) }
  | freed (lo len : Nat) (hlen : 0 < len) :
      HostEffect m op { m with dom := domRemove m.dom lo (lo + len),
                               gm := m.gm.filter fun c => !decide (lo ≤ c.1 ∧ c.1 < lo + len) }

/-- A write of `START`, whichever operation makes it. -/
theorem hostEffect_of_start {m t : State} {op : HostOp} {v : Word} (hop : op.starts m.cfg = true)
    (hform : op = .startCommand ∨ op = .regWrite m.cfg.regBase 4 v) (hv : v.getLsbD 0 = true)
    (h : (m.noted 0 v).writeCtrl v = .next t) : HostEffect m op t := by
  cases hs : m.status with
  | idle =>
    rw [writeCtrl_start_of_idle (by exact hs) hv, noted_start_of_idle hs hv] at h
    have hm : { m with run := m.run.starting .idle } = { m with status := .idle, run := m.run.starting .idle } := by
      rw [← hs]
    rw [hm] at h
    exact .started t hop (.inl hs) (started_of_start rfl h)
  | done =>
    cases hclear : v.getLsbD 1 with
    | true =>
      rw [writeCtrl_clear_start_of_done (by exact hs) hclear hv, noted_clear_start_of_done hs hclear hv] at h
      exact .started t hop (.inr ⟨hs, hform.imp id fun he => ⟨v, he, hv, hclear⟩⟩) (started_of_start rfl h)
    | false =>
      rw [writeCtrl_start_of_done (by exact hs) hclear hv, noted_dropped (.inr hclear) hv,
        Host.Outcome.next.injEq] at h
      exact h ▸ .dropped hop (by simp [hs])
  | busy | fault =>
    rw [writeCtrl_of_not_acceptsWrites (not_acceptsWrites (by simp [hs])), noted_dropped (.inl (by simp [hs])) hv,
      Host.Outcome.next.injEq] at h
    exact h ▸ .dropped hop (by simp [hs])

/-- A write of `CTRL` without `START`. -/
theorem hostEffect_of_no_start {m t : State} {op : HostOp} {v : Word} (hv : v.getLsbD 0 = false)
    (h : m.writeCtrl v = .next t) : HostEffect m op t := by
  cases hclear : v.getLsbD 1 with
  | false =>
    rw [writeCtrl_no_bits hclear hv, Host.Outcome.next.injEq] at h
    exact h ▸ .kept
  | true =>
    rw [writeCtrl_eq_next_clear m hclear (Bool.eq_false_iff.mp hv), Host.Outcome.next.injEq] at h
    subst h
    by_cases hs : m.status = .done
    · rw [clear_of_done hs]
      exact .cleared hs
    · rw [clear_of_ne_done hs]
      exact .kept

/-- Every host operation that answers a next state has one of these effects. -/
theorem hostPerform_effect {m t : State} {op : HostOp} (h : hostPerform op m = .next t) : HostEffect m op t := by
  cases op with
  | regWrite addr bytes v =>
    cases hk : windowIndex m.cfg addr bytes with
    | none => simp [hostPerform, hk] at h
    | some k =>
      rw [hostPerform_regWrite v hk] at h
      obtain rfl | ⟨hpos, hlow⟩ | hhigh : k = 0 ∨ (1 ≤ k ∧ k < 32) ∨ 32 ≤ k := by omega
      · cases hv : v.getLsbD 0 with
        | true =>
          obtain ⟨rfl, rfl, -⟩ := windowIndex_eq_some.mp hk
          have hop : (HostOp.regWrite (m.cfg.regBase + 4 * 0) 4 v).starts m.cfg = true := by
            simp only [HostOp.starts, hk, hv]
            rfl
          exact hostEffect_of_start hop (.inr rfl) hv h
        | false =>
          rw [noted_eq_self fun hstart => Bool.eq_false_iff.mp hv hstart.2] at h
          exact hostEffect_of_no_start hv h
      · rw [noted_of_ne_ctrl v (by omega), writeRegister_ignored v hpos hlow, Host.Outcome.next.injEq] at h
        exact h ▸ .kept
      · rw [noted_of_ne_ctrl v (by omega), writeRegister_desc v hhigh, Host.Outcome.next.injEq] at h
        exact h ▸ .descWritten _ v
  | regRead addr bytes =>
    cases hk : windowIndex m.cfg addr bytes with
    | none => simp [hostPerform, hk] at h
    | some k =>
      rw [hostPerform_regRead hk, Host.Outcome.next.injEq] at h
      obtain ⟨rfl, rfl, -⟩ := windowIndex_eq_some.mp hk
      exact h ▸ .read k m.host (.inl rfl) (.inl rfl)
  | awaitReady =>
    simp only [hostPerform] at h
    split at h <;> rw [Host.Outcome.next.injEq] at h
    · exact h ▸ .read 1 m.host (.inr ⟨rfl, .inl rfl⟩) (.inl rfl)
    · exact h ▸ .read 1 _ (.inr ⟨rfl, .inl rfl⟩) (.inr (.inl ⟨rfl, rfl⟩))
  | startCommand =>
    by_cases hs : m.status = .done
    · exact hostEffect_of_start (v := 3) rfl (.inl rfl) (by decide) (by simpa only [hostPerform, if_pos hs] using h)
    · exact hostEffect_of_start (v := 1) rfl (.inl rfl) (by decide) (by simpa only [hostPerform, if_neg hs] using h)
  | awaitEnd =>
    simp only [hostPerform] at h
    split at h <;> rw [Host.Outcome.next.injEq] at h
    · exact h ▸ .read 1 m.host (.inr ⟨rfl, .inr rfl⟩) (.inl rfl)
    · exact h ▸ .read 1 _ (.inr ⟨rfl, .inr rfl⟩) (.inr (.inr ⟨‹_›, rfl⟩))
    · exact h ▸ .read 1 _ (.inr ⟨rfl, .inr rfl⟩) (.inr (.inl ⟨rfl, rfl⟩))
  | memWrite a v =>
    simp only [hostPerform, State.hostWrite] at h
    split_ifs at h with haddr
    rw [Host.Outcome.next.injEq] at h
    exact h ▸ .memWritten a v (by simpa using haddr)
  | memRead a =>
    simp only [hostPerform, State.hostRead] at h
    split_ifs at h
    split at h <;> rw [Host.Outcome.next.injEq] at h
    · exact h ▸ .memRead _ m.draws
    · exact h ▸ .memRead _ _
  | alloc lo len =>
    simp only [hostPerform, State.hostAlloc] at h
    split_ifs at h <;> rw [Host.Outcome.next.injEq] at h
    · exact h ▸ .kept
    · exact h ▸ .allocated lo len (by omega) ‹_›
  | free lo len =>
    simp only [hostPerform, State.hostFree] at h
    split_ifs at h <;> rw [Host.Outcome.next.injEq] at h
    · exact h ▸ .kept
    · exact h ▸ .freed lo len (by omega)
  | reset =>
    simp only [hostPerform, Host.Outcome.next.injEq] at h
    exact h ▸ .reset rfl

end Sys2Proof.Machine
end

section
/-! PROOFS. What a step can do (10_state.md R20 to R22): the moves of the lanes and barriers as a list, the step by the agent
that makes it, and what follows for the sequencer and for the footprints that belong to the block. -/

namespace Sys2Proof.Machine

/-! ### The moves of lanes and barriers -/

theorem mem_zipIdx_filter {α : Type} {xs : List α} {q : α × Nat → Bool} {x : α × Nat} :
    x ∈ xs.zipIdx.filter q ↔ xs[x.2]? = some x.1 ∧ q x = true := by
  rw [List.mem_filter, List.mem_zipIdx_iff_getElem?]

theorem mem_scalarMoves {s : State} {o : ScalarOperands} {f : Nat} {ls : List ScalarLane} {r : Except Fault State} :
    r ∈ scalarMoves s o f ls ↔
      ∃ li l, ls[li]? = some l ∧ l.progress ≠ .ended ∧ scalarLaneMove s o f ls li l = r := by
  simp only [scalarMoves, List.mem_map, mem_zipIdx_filter, bne_iff_ne, Prod.exists, and_assoc]
  exact ⟨fun ⟨l, li, h⟩ => ⟨li, l, h⟩, fun ⟨li, l, h⟩ => ⟨l, li, h⟩⟩

theorem mem_lookupMoves {s : State} {o : LookupOperands} {ls : List LookupLane} {r : Except Fault State} :
    r ∈ lookupMoves s o ls ↔
      ∃ li l, ls[li]? = some l ∧ l.progress ≠ .ended ∧ lookupLaneMove s o ls li l = r := by
  simp only [lookupMoves, List.mem_map, mem_zipIdx_filter, bne_iff_ne, Prod.exists, and_assoc]
  exact ⟨fun ⟨l, li, h⟩ => ⟨li, l, h⟩, fun ⟨li, l, h⟩ => ⟨l, li, h⟩⟩

theorem mem_nttMoves {s : State} {o : NttOperands} {gs : List NttGroup} {r : Except Fault State} :
    r ∈ nttMoves s o gs ↔
      ∃ gi g, gs[gi]? = some g ∧
        ((∃ li l, g.lanes[li]? = some l ∧ nttAble l = true ∧ nttLaneMove s o gs gi g li l = r) ∨
          ∃ j, releasable g = some j ∧ .ok (nttReleaseMove s o gs gi g j) = r) := by
  simp only [nttMoves, nttGroupMoves, List.mem_flatMap, List.mem_append, List.mem_map, mem_zipIdx_filter,
    List.mem_zipIdx_iff_getElem?, Option.mem_toList, Prod.exists, and_assoc]
  constructor
  · rintro ⟨g, gi, hg, ⟨l, li, h⟩ | h⟩
    · exact ⟨gi, g, hg, .inl ⟨li, l, h⟩⟩
    · exact ⟨gi, g, hg, .inr h⟩
  · rintro ⟨gi, g, hg, ⟨li, l, h⟩ | h⟩
    · exact ⟨g, gi, hg, .inl ⟨l, li, h⟩⟩
    · exact ⟨g, gi, hg, .inr h⟩

theorem scalarLaneMove_eq_ok {s t : State} {o : ScalarOperands} {f li : Nat} {ls : List ScalarLane} {l : ScalarLane} :
    scalarLaneMove s o f ls li l = .ok t ↔ ∃ r, scalarLaneStep s o f l = .ok r ∧
      { s with gm := r.gm, launch := some (.scalar o f (ls.set li r.lane)) } = t := by
  simp only [scalarLaneMove, bind_eq_ok, pure_eq_ok]

theorem lookupLaneMove_eq_ok {s t : State} {o : LookupOperands} {li : Nat} {ls : List LookupLane} {l : LookupLane} :
    lookupLaneMove s o ls li l = .ok t ↔ ∃ r, lookupLaneStep s o l = .ok r ∧
      { s with gm := r.gm, launch := some (.lookup o (ls.set li r.lane)) } = t := by
  simp only [lookupLaneMove, bind_eq_ok, pure_eq_ok]

/-- A group after its lane number `li` has stepped. -/
def steppedGroup (g : NttGroup) (li : Nat) (r : NttEffect) : NttGroup :=
  { g with lanes := g.lanes.set li r.lane, scratch := r.scratch, arrived := arrivals g.arrived r.lane }

theorem nttLaneMove_eq_ok {s t : State} {o : NttOperands} {gs : List NttGroup} {gi li : Nat} {g : NttGroup}
    {l : NttLane} :
    nttLaneMove s o gs gi g li l = .ok t ↔ ∃ r, nttLaneStep s o g l = .ok r ∧
      { s with gm := r.gm, launch := some (.ntt o (gs.set gi (steppedGroup g li r))) } = t := by
  simp only [nttLaneMove, bind_eq_ok, pure_eq_ok, steppedGroup]

/-- A move of a lane or a barrier changes memory and the launch alone, and the launch stays that of its command. -/
theorem laneMoves_frame {s t : State} {l : Launch} (h : .ok t ∈ laneMoves s l) :
    ∃ gm l', t = { s with gm := gm, launch := some l' } ∧ l'.command = l.command := by
  cases l with
  | ntt o gs =>
    obtain ⟨gi, g, -, ⟨li, l, -, -, h⟩ | ⟨j, -, h⟩⟩ := mem_nttMoves.mp h
    · obtain ⟨r, -, rfl⟩ := nttLaneMove_eq_ok.mp h
      exact ⟨_, _, rfl, rfl⟩
    · rw [Except.ok.injEq] at h
      exact ⟨s.gm, _, h.symm, rfl⟩
  | scalar o f ls =>
    obtain ⟨li, l, -, -, h⟩ := mem_scalarMoves.mp h
    obtain ⟨r, -, rfl⟩ := scalarLaneMove_eq_ok.mp h
    exact ⟨_, _, rfl, rfl⟩
  | lookup o ls =>
    obtain ⟨li, l, -, -, h⟩ := mem_lookupMoves.mp h
    obtain ⟨r, -, rfl⟩ := lookupLaneMove_eq_ok.mp h
    exact ⟨_, _, rfl, rfl⟩

/-! ### The step by its agent -/

/-- The state a host operation is performed in: what is left of the picks and of the host's list. -/
def State.onTurn (s : State) (sched : List Nat) (rest : List HostOp) : State := { s with sched := sched, host := rest }

@[simp] theorem onTurn_status (s : State) (sched : List Nat) (rest : List HostOp) :
    (s.onTurn sched rest).status = s.status := rfl
@[simp] theorem onTurn_cause (s : State) (sched : List Nat) (rest : List HostOp) :
    (s.onTurn sched rest).cause = s.cause := rfl
@[simp] theorem onTurn_desc (s : State) (sched : List Nat) (rest : List HostOp) :
    (s.onTurn sched rest).desc = s.desc := rfl
@[simp] theorem onTurn_launch (s : State) (sched : List Nat) (rest : List HostOp) :
    (s.onTurn sched rest).launch = s.launch := rfl
@[simp] theorem onTurn_gm (s : State) (sched : List Nat) (rest : List HostOp) :
    (s.onTurn sched rest).gm = s.gm := rfl
@[simp] theorem onTurn_dom (s : State) (sched : List Nat) (rest : List HostOp) :
    (s.onTurn sched rest).dom = s.dom := rfl
@[simp] theorem onTurn_cfg (s : State) (sched : List Nat) (rest : List HostOp) :
    (s.onTurn sched rest).cfg = s.cfg := rfl
@[simp] theorem onTurn_level (s : State) (sched : List Nat) (rest : List HostOp) :
    (s.onTurn sched rest).level = s.level := rfl
@[simp] theorem onTurn_held (s : State) (sched : List Nat) (rest : List HostOp) :
    (s.onTurn sched rest).held = s.held := rfl
@[simp] theorem onTurn_run (s : State) (sched : List Nat) (rest : List HostOp) :
    (s.onTurn sched rest).run = s.run := rfl
@[simp] theorem onTurn_rdata (s : State) (sched : List Nat) (rest : List HostOp) :
    (s.onTurn sched rest).rdata = s.rdata := rfl
@[simp] theorem onTurn_edata (s : State) (sched : List Nat) (rest : List HostOp) :
    (s.onTurn sched rest).edata = s.edata := rfl
@[simp] theorem onTurn_draws (s : State) (sched : List Nat) (rest : List HostOp) :
    (s.onTurn sched rest).draws = s.draws := rfl
@[simp] theorem onTurn_host (s : State) (sched : List Nat) (rest : List HostOp) :
    (s.onTurn sched rest).host = rest := rfl

/-- The next state of a step: nothing to do, a move of a lane or a barrier, the sequencer's, or the host's. -/
inductive StepEffect (s : State) : State → Prop
  | rest (hl : s.launch = none) : StepEffect s s
  | lane (l : Launch) (t : State) (hl : s.launch = some l) (h : .ok t ∈ laneMoves s.picked l) : StepEffect s t
  | ended (l : Launch) (hl : s.launch = some l) : StepEffect s s.picked.endLaunch
  | host (op : HostOp) (rest : List HostOp) (sched : List Nat) (t : State) (hhost : s.host = op :: rest)
      (h : HostEffect (s.onTurn sched rest) op t) : StepEffect s t

theorem step_effect {s t : State} (h : step s = .next t) : StepEffect s t := by
  cases hl : s.launch with
  | none =>
    obtain ⟨-, rfl⟩ | ⟨op, rest, hhost, h⟩ := step_quiet hl h
    · exact .rest hl
    · exact .host op rest s.sched t hhost (hostPerform_effect h)
  | some l =>
    obtain h | ⟨-, rfl⟩ | ⟨op, rest, hhost, h⟩ := step_busy hl h
    · exact .lane l t hl h
    · exact .ended l hl
    · exact .host op rest s.sched.tail t hhost (hostPerform_effect h)

/-! ### The sequencer -/

/-- Settles O47: in `FAULT` the host's writes are ignored, and nobody else can step. -/
theorem faultIsLeftByResetOnly : Obligations.FaultIsLeftByResetOnly := by
  intro s t hs hlaunch h
  cases step_effect h with
  | rest => exact .inr ⟨hs, rfl, rfl, hlaunch⟩
  | lane l _ hl => simp [hlaunch] at hl
  | ended l hl => simp [hlaunch] at hl
  | host op rest sched _ hhost h =>
    cases h with
    | reset hop => exact .inl ⟨rest, hop ▸ hhost⟩
    | cleared hdone => simp [hs] at hdone
    | started _ _ hstatus => simp [hs] at hstatus
    | descWritten i v =>
      rw [writeDesc_of_not_acceptsWrites (not_acceptsWrites (.inr (by exact hs)))]
      exact .inr ⟨hs, rfl, rfl, hlaunch⟩
    | _ => exact .inr ⟨hs, rfl, rfl, hlaunch⟩

/-- `START` at the lane level ends in `BUSY` or `FAULT`. -/
theorem Started.status_of_lane {m t : State} (hlevel : m.level = .lane) (h : Started m t) :
    t.status = .busy ∨ t.status = .fault := by
  cases h with
  | refused => exact .inr rfl
  | inFlight => exact .inl rfl
  | completed _ _ hfunctional => simp [hlevel] at hfunctional

/-- Settles O55: lanes and barriers leave the state alone, and the host changes it by `CLEAR`, `START` or reset. -/
theorem sequencerTransitions : Obligations.SequencerTransitions := by
  intro s t hinv hlevel h
  cases step_effect h with
  | rest => exact .inl rfl
  | lane l _ hl h =>
    obtain ⟨gm, l', rfl, -⟩ := laneMoves_frame h
    exact .inl rfl
  | ended l hl => exact .inr (.inr (.inl ⟨hinv.busy_iff.mpr (by simp [hl]), rfl⟩))
  | host op rest sched _ hhost h =>
    cases h with
    | reset hop => exact .inr (.inr (.inr (.inr (.inr ⟨rfl, rest, hop ▸ hhost⟩))))
    | cleared hdone => exact .inr (.inr (.inr (.inl ⟨hdone, rfl⟩)))
    | started _ _ hstatus h =>
      have hafter := h.status_of_lane (by exact hlevel)
      obtain hidle | ⟨hdone, hop⟩ := hstatus
      · exact .inr (.inl ⟨hidle, hafter⟩)
      · exact .inr (.inr (.inr (.inr (.inl ⟨hdone, hafter, op, rest, hhost, hop⟩))))
    | descWritten i v => exact .inl (by simp)
    | _ => exact .inl rfl

/-! ### Footprints -/

theorem Started.mem_held {m t : State} {i : Instr} (h : Started m t) (hi : i ∈ m.held) : i ∈ t.held := by
  cases h with
  | refused => exact hi
  | inFlight => exact List.mem_cons_of_mem _ hi
  | completed => exact List.mem_cons_of_mem _ hi

theorem hostMayRead_eq_false {s : State} {i : Instr} {a : Nat} (hi : i ∈ s.held) (ha : a ∈ commandWrites i) :
    hostMayRead s a = false := by
  rw [hostMayRead, List.all_eq_false]
  exact ⟨i, hi, by simpa using ha⟩

theorem hostMayWrite_eq_false {s : State} {i : Instr} {a : Nat} (hi : i ∈ s.held)
    (ha : a ∈ commandReads i ∨ a ∈ commandWrites i) : hostMayWrite s a = false := by
  rw [hostMayWrite, List.all_eq_false]
  exact ⟨i, hi, by simpa [← or_iff_not_imp_left] using ha⟩

theorem heldMeets_of_mem {s : State} {i : Instr} {a lo len : Nat} (hi : i ∈ s.held)
    (ha : a ∈ commandReads i ∨ a ∈ commandWrites i) (hlo : lo ≤ a) (hhi : a < lo + len) : heldMeets s lo len = true := by
  rw [heldMeets, List.any_eq_true]
  exact ⟨i, hi, List.any_eq_true.mpr ⟨a, List.mem_append.mpr ha, by simp [hlo, hhi]⟩⟩

/-- Settles O60: refusals by the tests of the host's accesses; `held` shrinks in the effect of a read or a reset alone. -/
theorem hostIsKeptOffTheFootprint : Obligations.HostIsKeptOffTheFootprint := by
  refine ⟨fun s i a v hi => ?_, fun s a w haddr hfree hread => ?_, fun s t i h hi hnot => ?_⟩
  · replace hi : i ∈ s.held := by
      obtain hi | ⟨hinv, l, hl, rfl⟩ := hi
      · exact hi
      · exact hinv.held_launch l hl
    refine ⟨fun haddr ha => ?_, fun haddr ha => ?_, fun lo len hlo hhi ha => ?_⟩
    · simp [hostPerform, State.hostRead, haddr, hostMayRead_eq_false hi ha]
    · simp [hostPerform, State.hostWrite, haddr, hostMayWrite_eq_false hi ha]
    · have hlen : len ≠ 0 := by omega
      simp [hostPerform, State.hostFree, hlen, heldMeets_of_mem hi ha hlo hhi]
  · have hmay : hostMayRead s a = true := by simpa [hostMayRead] using hfree
    simp [hostPerform, State.hostRead, haddr, hmay, hread]
  · cases step_effect h with
    | rest => exact absurd hi hnot
    | lane l _ hl h =>
      obtain ⟨gm, l', rfl, -⟩ := laneMoves_frame h
      exact absurd hi hnot
    | ended l hl => exact absurd hi hnot
    | host op rest sched _ hhost h =>
      refine ⟨op, rest, hhost, ?_⟩
      cases h with
      | reset hop => exact .inl hop
      | read k rest hop =>
        have hdone : k = 1 ∧ s.status = .done := by
          by_contra hne
          rw [withHost_held, readRegister_held, onTurn_status, if_neg hne] at hnot
          exact hnot hi
        obtain ⟨rfl, hdone⟩ := hdone
        obtain hop | ⟨-, hop⟩ := hop
        · exact .inr ⟨hdone, .inl hop⟩
        · exact .inr ⟨hdone, .inr hop⟩
      | started _ _ _ h => exact absurd (h.mem_held hi) hnot
      | descWritten i v => simp [hi] at hnot
      | _ => exact absurd hi hnot

end Sys2Proof.Machine
end

section
/-! PROOFS. Every step keeps the invariant of Safety.lean: each effect of a host operation by the laws of memory and `Dom`,
each move of a lane by what its step leaves. -/

namespace Sys2Proof.Machine

/-! ### Values of the functional forms are elements of `F` -/

section
variable {p : Nat} (hp : 0 < p) {o : NttOperands} {gm : List (Nat × Nat)}
include hp

theorem cellOf_lt {u : List Nat} (hu : ∀ x ∈ u, x < p) (i : U32) : cellOf p u i < p := by
  rw [cellOf, List.getD_eq_getElem?_getD]
  cases h : u[i.toNat]? with
  | none => exact freeElement_lt hp _
  | some x => exact hu x (List.mem_of_getElem? h)

theorem twisted_lt {rnd d : Nat} {di : U32} (hd : d < p) : twisted p o gm rnd di d < p := by
  unfold twisted
  split
  · exact fmul_lt hp ..
  · exact hd

theorem butterfly_lt {rnd : Nat} {u : List Nat} {i : U32} (hu : ∀ x ∈ u, x < p) :
    ∀ x ∈ butterfly p o gm rnd u i, x < p := by
  intro x hx
  obtain hx | rfl := List.mem_or_eq_of_mem_set hx
  · obtain hx | rfl := List.mem_or_eq_of_mem_set hx
    · exact hu x hx
    · exact fadd_lt hp ..
  · exact twisted_lt hp (fsub_lt hp ..)

theorem groupResult_lt {index : U32} : ∀ x ∈ groupResult p o gm index, x < p := by
  unfold groupResult
  refine List.foldlRecOn (motive := fun u => ∀ x ∈ u, x < p) _ _ ?_ fun u hu rnd _ => ?_
  · intro x hx
    obtain ⟨i, -, rfl⟩ := List.mem_map.mp hx
    exact fmul_lt hp ..
  · exact List.foldlRecOn (motive := fun u => ∀ x ∈ u, x < p) _ _ hu fun u hu i _ => butterfly_lt hp hu

end

theorem commandStores_lt {c : Params} {i : Instr} {gm : List (Nat × Nat)} (hp : 0 < c.pMod) {st : Nat × Nat}
    (h : st ∈ commandStores c gm i) : st.2 < c.pMod := by
  cases i with
  | nttStage o =>
    obtain ⟨index, i, -, -, rfl⟩ := mem_nttStores.mp h
    exact cellOf_lt hp (groupResult_lt hp) i
  | scalarMul o =>
    obtain ⟨i, -, rfl⟩ := List.mem_map.mp h
    exact fmul_lt hp ..
  | lookupEval o =>
    obtain ⟨i, -, rfl⟩ := List.mem_map.mp h
    exact lookupValue_lt hp ..

/-- No temporary of a new launch holds a value. -/
theorem commandLaunch_elems (p : Nat) (c : Params) (i : Instr) : (commandLaunch c i).Elems p := by
  cases i with
  | nttStage o =>
    intro g hg
    obtain ⟨index, -, rfl⟩ := List.mem_map.mp hg
    refine ⟨fun x hx => ?_, fun l hl => ?_⟩
    · rw [List.eq_of_mem_replicate hx]
      exact elemOk_none p
    · obtain ⟨lid, -, rfl⟩ := List.mem_map.mp hl
      constructor <;> exact elemOk_none p
  | scalarMul o =>
    intro l hl
    obtain ⟨gid, -, rfl⟩ := List.mem_map.mp hl
    exact elemOk_none p
  | lookupEval o =>
    intro l hl
    obtain ⟨idx, -, rfl⟩ := List.mem_map.mp hl
    constructor <;> exact elemOk_none p

/-! ### `START` and the host's other operations -/

theorem State.Inv.pMod_pos {s : State} (h : s.Inv) : 0 < s.cfg.pMod := by
  obtain ⟨hp, -⟩ := h.cfg_ok
  omega

theorem State.Inv.launch_eq_none {s : State} (h : s.Inv) (hs : s.status ≠ .busy) : s.launch = none := by
  have hnot := mt h.busy_iff.mpr hs
  simpa using hnot

/-- A state without a launch and without a fault is as good in `IDLE`. -/
theorem State.Inv.cleared {m : State} (hm : m.Inv) (hs : m.status = .idle ∨ m.status = .done) :
    State.Inv { m with status := .idle } :=
  have hlaunch : m.launch = none := hm.launch_eq_none (by obtain h | h := hs <;> simp [h])
  have hnot : m.status ≠ .fault := by obtain h | h := hs <;> simp [h]
  have hcause : m.cause = .none := hm.cause_iff.mpr hnot
  { hm with
    busy_iff := by simp [hlaunch]
    cause_iff := by simp [hcause]
    run_faulted := fun h => absurd (hm.run_faulted h) hnot
    run_good := fun final h => ⟨.inl rfl, (hm.run_good final h).2⟩ }

/-- A write of `START` leaves the run not good, and faulted only if it was. -/
theorem State.Inv.restarted {m : State} (hm : m.Inv) (q : SeqState) :
    State.Inv { m with run := m.run.starting q } :=
  { hm with
    run_faulted := fun h => hm.run_faulted (starting_eq_faulted.mp h)
    run_good := fun _ h => absurd h starting_ne_good }

theorem Started.inv {m t : State} (hm : m.Inv) (hs : m.status = .idle) (hrun : ∀ final, m.run ≠ .good final)
    (h : Started m t) : t.Inv := by
  have hlaunch : m.launch = none := hm.launch_eq_none (by simp [hs])
  have hcause : m.cause = .none := hm.cause_iff.mpr (by simp [hs])
  have hfaulted : m.run ≠ .faulted := fun h => absurd (hm.run_faulted h) (by simp [hs])
  cases h with
  | refused code hcode =>
    exact { hm with
      busy_iff := by simp [hlaunch]
      cause_iff := by simp [hcode]
      run_faulted := fun _ => rfl
      run_good := fun final h => absurd h (hrun final) }
  | inFlight i hadm hlevel =>
    exact { hm with
      busy_iff := by simp
      cause_iff := by simp [hcause]
      held_launch := fun l hl => by
        cases hl
        exact List.mem_cons_self
      run_faulted := fun h => absurd h hfaulted
      run_good := fun final h => absurd h (hrun final)
      elems := fun l hl => by
        cases hl
        exact commandLaunch_elems _ _ _ }
  | completed i hadm hlevel =>
    obtain ⟨hok, hrange, -⟩ := (admission_eq_none_iff _ _).mp hadm
    exact { hm with
      gm_wf := gmStores_wf _ hm.gm_wf
      gm_cells := fun c hc => by
        obtain hc | hc := mem_gmStores hc
        · have hwrite : c.1 ∈ (commandRequest m.cfg i).reads ++ (commandRequest m.cfg i).writes := by
            rw [commandRequest_writes]
            exact List.mem_append_right _ (store_mem_commandWrites hok hc)
          exact ⟨(addrOk_iff.mp (hrange _ hwrite)).2, commandStores_lt hm.pMod_pos hc⟩
        · exact hm.gm_cells c hc
      busy_iff := by simp [hlaunch]
      cause_iff := by simp [hcause]
      held_launch := fun l hl => by simp [hlaunch] at hl
      run_faulted := fun h => absurd h hfaulted
      run_good := fun final h => absurd h (hrun final) }

theorem HostEffect.inv {m t : State} {op : HostOp} (hm : m.Inv) (h : HostEffect m op t) : t.Inv := by
  cases h with
  | kept => exact hm
  | reset =>
    exact { hm with
      gm_wf := gmErase_wf _ hm.gm_wf
      gm_cells := fun c hc => hm.gm_cells c (List.mem_of_mem_filter hc)
      busy_iff := by simp
      cause_iff := by simp
      held_launch := by simp
      run_faulted := by simp
      run_good := by simp
      elems := by simp }
  | read k rest =>
    exact { hm with
      held_launch := fun l hl => by
        have hbusy : m.status = .busy := hm.busy_iff.mpr (by simp [show m.launch = some l from hl])
        rw [withHost_held, readRegister_held, if_neg (by simp [hbusy])]
        exact hm.held_launch l hl
      run_faulted := fun h => by
        rw [withHost_run, readRegister_run] at h
        split at h
        · exact (seeing_eq_faulted.mp h).elim hm.run_faulted id
        · exact hm.run_faulted h
      run_good := fun final h => by
        rw [withHost_run, readRegister_run] at h
        split at h
        · obtain ⟨-, hdone, rfl⟩ | ⟨h, -⟩ := seeing_eq_good.mp h
          · exact ⟨.inr hdone, hm.gm_wf, fun c hc => (hm.gm_cells c hc).2⟩
          · exact hm.run_good final h
        · exact hm.run_good final h }
  | cleared hdone => exact hm.cleared (.inr hdone)
  | dropped hop hs => exact hm.restarted _
  | started t hop hs h =>
    have hready : m.status = .idle ∨ m.status = .done := hs.imp id fun h => h.1
    exact h.inv ((hm.restarted .idle).cleared hready) rfl fun _ => starting_ne_good
  | descWritten i v =>
    unfold State.writeDesc
    split
    · exact { hm with }
    · exact hm
  | memRead => exact { hm with }
  | memWritten a v haddr =>
    exact { hm with
      gm_wf := gmWrite_wf _ _ hm.gm_wf
      gm_cells := fun c hc => by
        obtain rfl | hc := mem_gmWrite hc
        · exact ⟨(addrOk_iff.mp haddr).2, Nat.mod_lt _ hm.pMod_pos⟩
        · exact hm.gm_cells c hc }
  | allocated lo len hlen hbound =>
    exact { hm with
      dom_wf := domAdd_wf (by omega) hm.dom_wf
      dom_bound := domAdd_hi hbound hm.dom_bound
      gm_cells := fun c hc => by
        obtain ⟨hdom, hlt⟩ := hm.gm_cells c hc
        exact ⟨(domHas_domAdd (by omega) hm.dom_wf.1 _).mpr (.inr hdom), hlt⟩ }
  | freed lo len hlen =>
    exact { hm with
      gm_wf := hm.gm_wf.sublist List.filter_sublist
      dom_wf := domRemove_wf (by omega) hm.dom_wf
      dom_bound := domRemove_hi hm.dom_bound
      gm_cells := fun c hc => by
        obtain ⟨hc, hout⟩ := List.mem_filter.mp hc
        obtain ⟨hdom, hlt⟩ := hm.gm_cells c hc
        exact ⟨(domHas_domRemove _ _ _ _).mpr ⟨hdom, by simpa only [Bool.not_eq_true', decide_eq_false_iff_not] using hout⟩, hlt⟩ }

end Sys2Proof.Machine
end

section
/-! PROOFS. The invariant along lane moves, and so along every step (Safety.lean); and a good end keeps its final state
(60_exceptions.md R279). -/

namespace Sys2Proof.Machine

/-! ### Moves of lanes and barriers -/

/-- An element put into a list at a place keeps a property of all its elements. -/
theorem forall_mem_set {α : Type} {P : α → Prop} {xs : List α} (hxs : ∀ x ∈ xs, P x) (k : Nat) {y : α} (hy : P y) :
    ∀ x ∈ xs.set k y, P x := fun x hx => by
  obtain hx | rfl := List.mem_or_eq_of_mem_set hx
  · exact hxs x hx
  · exact hy

/-- A move of lanes keeps memory in canonical form, its values and those of the launch elements of `F`. -/
theorem laneMoves_good {s t : State} {l : Launch} (hs : s.Inv) (hl : s.launch = some l) (h : .ok t ∈ laneMoves s l) :
    gmWf t.gm ∧ cellsOk s.cfg.pMod s.dom t.gm ∧ ∀ l', t.launch = some l' → l'.Elems s.cfg.pMod := by
  have hp := hs.pMod_pos
  have helems := hs.elems l hl
  cases l with
  | ntt o gs =>
    obtain ⟨gi, g, hg, ⟨li, l, hlane, -, h⟩ | ⟨j, -, h⟩⟩ := mem_nttMoves.mp h
    · obtain ⟨r, hr, rfl⟩ := nttLaneMove_eq_ok.mp h
      obtain ⟨hscratch, hlanes⟩ := helems g (List.mem_of_getElem? hg)
      obtain ⟨-, hlaneElems, hscratch', -, hwf, hcells⟩ :=
        nttLaneStep_good hp hs.gm_wf hs.gm_cells hscratch (hlanes l (List.mem_of_getElem? hlane)) hr
      refine ⟨hwf, hcells, fun l' hl' => ?_⟩
      cases hl'
      exact forall_mem_set helems gi ⟨hscratch', forall_mem_set hlanes li hlaneElems⟩
    · rw [Except.ok.injEq] at h
      subst h
      refine ⟨hs.gm_wf, hs.gm_cells, fun l' hl' => ?_⟩
      cases hl'
      obtain ⟨hscratch, hlanes⟩ := helems g (List.mem_of_getElem? hg)
      refine forall_mem_set helems gi ⟨hscratch, fun l hl => ?_⟩
      obtain ⟨l, hmem, rfl⟩ := List.mem_map.mp hl
      exact { hlanes l hmem with }
  | scalar o f ls =>
    obtain ⟨li, l, hlane, -, h⟩ := mem_scalarMoves.mp h
    obtain ⟨r, hr, rfl⟩ := scalarLaneMove_eq_ok.mp h
    obtain ⟨-, hv, hwf, hcells⟩ :=
      scalarLaneStep_good hp hs.gm_wf hs.gm_cells (helems l (List.mem_of_getElem? hlane)) hr
    refine ⟨hwf, hcells, fun l' hl' => ?_⟩
    cases hl'
    exact forall_mem_set helems li hv
  | lookup o ls =>
    obtain ⟨li, l, hlane, -, h⟩ := mem_lookupMoves.mp h
    obtain ⟨r, hr, rfl⟩ := lookupLaneMove_eq_ok.mp h
    obtain ⟨-, hv, hwf, hcells⟩ :=
      lookupLaneStep_good hp hs.gm_wf hs.gm_cells (helems l (List.mem_of_getElem? hlane)) hr
    refine ⟨hwf, hcells, fun l' hl' => ?_⟩
    cases hl'
    exact forall_mem_set helems li hv

/-- A move of lanes keeps the invariant. -/
theorem laneMoves_inv {s t : State} {l : Launch} (hs : s.Inv) (hl : s.launch = some l) (h : .ok t ∈ laneMoves s l) :
    t.Inv := by
  obtain ⟨hwf, hcells, helems⟩ := laneMoves_good hs hl h
  obtain ⟨gm, l', rfl, hcommand⟩ := laneMoves_frame h
  have hbusy : s.status = .busy := hs.busy_iff.mpr (by simp [hl])
  exact { hs with
    gm_wf := hwf
    gm_cells := hcells
    busy_iff := by simp [hbusy]
    held_launch := fun k hk => by
      cases hk
      exact hcommand ▸ hs.held_launch l hl
    elems := helems }

theorem State.Inv.endLaunch {s : State} (hs : s.Inv) {l : Launch} (hl : s.launch = some l) : s.endLaunch.Inv := by
  have hbusy : s.status = .busy := hs.busy_iff.mpr (by simp [hl])
  have hcause : s.cause = .none := hs.cause_iff.mpr (by simp [hbusy])
  exact { hs with
    busy_iff := by simp
    cause_iff := by simp [hcause]
    held_launch := by simp
    run_faulted := fun h => absurd (hs.run_faulted h) (by simp [hbusy])
    run_good := fun final h => absurd (hs.run_good final h).1 (by simp [hbusy])
    elems := by simp }

/-! ### Every step -/

theorem HostEffect.cfg_level {m t : State} {op : HostOp} (h : HostEffect m op t) : t.cfg = m.cfg ∧ t.level = m.level := by
  cases h with
  | started t hop hs h => cases h <;> exact ⟨rfl, rfl⟩
  | descWritten i v => simp
  | _ => exact ⟨rfl, rfl⟩

/-- Settles O59: the invariant along each effect of a step. -/
theorem stepKeepsTheInvariant : Obligations.StepKeepsTheInvariant := by
  intro s t h
  have hpicked (hs : s.Inv) : s.picked.Inv := { hs with }
  cases step_effect h with
  | rest => exact ⟨id, rfl, rfl⟩
  | lane l _ hl h =>
    refine ⟨fun hs => laneMoves_inv (hpicked hs) hl h, ?_⟩
    obtain ⟨gm, l', rfl, -⟩ := laneMoves_frame h
    exact ⟨rfl, rfl⟩
  | ended l hl => exact ⟨fun hs => (hpicked hs).endLaunch hl, rfl, rfl⟩
  | host op rest sched _ hhost h =>
    have hturn (hs : s.Inv) : (s.onTurn sched rest).Inv := { hs with }
    exact ⟨fun hs => h.inv (hturn hs), h.cfg_level⟩

/-! ### A good end -/

/-- A host operation that is neither reset nor a write of `START` keeps a good run that is not in `FAULT`, and adds no
write of `START` to what the host has still to do. -/
theorem HostEffect.good_run {m t : State} {op : HostOp} {final : List (Nat × Nat)} (h : HostEffect m op t)
    (hrun : m.run = .good final) (hfault : m.status ≠ .fault) (hop : op.starts m.cfg = false) (hreset : op ≠ .reset) :
    t.run = .good final ∧ ∀ x ∈ t.host, x ∈ m.host ∨ x = op := by
  cases h with
  | kept => exact ⟨hrun, fun x hx => .inl hx⟩
  | reset h => exact absurd h hreset
  | read k rest hread hrest =>
    constructor
    · rw [withHost_run, readRegister_run, hrun]
      split
      · exact seeing_eq_good.mpr (.inr ⟨rfl, hfault⟩)
      · rfl
    · rintro x hx
      obtain rfl | ⟨-, rfl⟩ | ⟨-, rfl⟩ := hrest
      · exact .inl hx
      · exact (List.mem_cons.mp hx).symm
      · cases hx
  | dropped h => simp [hop] at h
  | started _ h => simp [hop] at h
  | descWritten i v => exact ⟨by simp [hrun], fun x hx => .inl (by simpa using hx)⟩
  | _ => exact ⟨hrun, fun x hx => .inl hx⟩

theorem goodEnd_of_finalMemory {s : State} {final : List (Nat × Nat)} (h : s.finalMemory = some final) :
    s.GoodEnd ∧ s.finalMemory = some final :=
  ⟨Option.isSome_iff_exists.mpr ⟨final, h⟩, h⟩

/-- A good end keeps its final state until a reset. -/
theorem finalMemory_of_step {s t : State} {final : List (Nat × Nat)} (hs : s.Inv) (hfinal : s.finalMemory = some final)
    (h : step s = .next t) : t.finalMemory = some final ∨ ∃ rest, s.host = .reset :: rest := by
  obtain ⟨hrun, hstarts⟩ := finalMemory_eq_some.mp hfinal
  obtain ⟨hready, -⟩ := hs.run_good final hrun
  have hlaunch : s.launch = none := hs.launch_eq_none (by obtain h | h := hready <;> simp [h])
  cases step_effect h with
  | rest => exact .inl hfinal
  | lane l _ hl => simp [hlaunch] at hl
  | ended l hl => simp [hlaunch] at hl
  | host op rest sched _ hhost h =>
    by_cases hreset : op = .reset
    · exact .inr ⟨rest, hreset ▸ hhost⟩
    · have hop := hstarts op (by simp [hhost])
      obtain ⟨hrun', hhost'⟩ := h.good_run hrun (by obtain h | h := hready <;> simp [h]) hop hreset
      refine .inl (finalMemory_eq_some.mpr ⟨hrun', fun x hx => ?_⟩)
      rw [h.cfg_level.1]
      obtain hx | rfl := hhost' x hx
      · exact hstarts x (by simp [hhost, show x ∈ rest from hx])
      · exact hop

end Sys2Proof.Machine
end

section
/-! PROOFS. The host sequence of a command line at the functional level (30_encoding.md R112): a poll, the command's words,
`START` and a poll. What the sequence leaves of the state before it does not reach the command. -/

namespace Sys2Proof.Machine

/-! ### Steps of the host alone -/

theorem step_host {s : State} {op : HostOp} {rest : List HostOp} (hl : s.launch = none) (hh : s.host = op :: rest) :
    step s = hostPerform op (s.withHost rest) := by
  simp only [step, hl, quietStep, hostMove, hh]

/-! ### Writing the descriptor -/

theorem windowIndex_desc {c : Params} {i : Nat} (hi : i < 32) :
    windowIndex c (c.regBase + 0x80 + 4 * i) 4 = some (32 + i) :=
  windowIndex_eq_some.mpr ⟨rfl, by omega, by omega⟩

theorem step_descWrite {s : State} {i : Nat} {v : Word} {rest : List HostOp} (hl : s.launch = none) (hi : i < 32)
    (hs : s.acceptsWrites) (hh : s.host = descWrite s.cfg i v :: rest) :
    step s = .next { s with desc := s.desc.setIfInBounds i (some v), host := rest } := by
  have hs : (s.withHost rest).acceptsWrites := hs
  have hindex : windowIndex (s.withHost rest).cfg (s.cfg.regBase + 0x80 + 4 * i) 4 = some (32 + i) := windowIndex_desc hi
  rw [step_host hl hh, descWrite, hostPerform_regWrite v hindex, noted_of_ne_ctrl v (by omega),
    writeRegister_desc v (by omega), Nat.add_sub_cancel_left, writeDesc_of_acceptsWrites hs]
  rfl

/-- The writes of a list of words from descriptor word `k` on (30_encoding.md R112). -/
def descWrites (c : Params) (k : Nat) (ws : List Word) : List HostOp := (ws.zipIdx k).map fun w => descWrite c w.2 w.1

theorem descWrites_cons (c : Params) (k : Nat) (w : Word) (ws : List Word) :
    descWrites c k (w :: ws) = descWrite c k w :: descWrites c (k + 1) ws := rfl

theorem hostSequence_append (c : Params) (i : Instr) (rest : List HostOp) :
    hostSequence c i ++ rest =
      .awaitReady :: (descWrites c 0 (encode i) ++ .startCommand :: .awaitEnd :: rest) := by
  simp [hostSequence, descWrites]

/-- The descriptor with words written from word `k` on. -/
def descWritten (k : Nat) : List Word → Vector (Option Word) 32 → Vector (Option Word) 32
  | [], desc => desc
  | w :: ws, desc => descWritten (k + 1) ws (desc.setIfInBounds k (some w))

theorem toList_descWritten {ws : List Word} {k : Nat} {desc : Vector (Option Word) 32} (hlen : k + ws.length ≤ 32) :
    (descWritten k ws desc).toList =
      desc.toList.take k ++ ws.map some ++ desc.toList.drop (k + ws.length) := by
  induction ws generalizing k desc with
  | nil => simp [descWritten]
  | cons w ws ih =>
    rw [List.length_cons] at hlen
    have hk : k < desc.toList.length := by rw [Vector.length_toList]; omega
    have htake : (desc.toList.set k (some w)).take (k + 1) = desc.toList.take k ++ [some w] := by
      rw [List.take_add_one, List.take_set_of_le (Nat.le_refl k), List.getElem?_set_self hk]
      rfl
    have hdrop : (desc.toList.set k (some w)).drop (k + 1 + ws.length) = desc.toList.drop (k + 1 + ws.length) :=
      List.drop_set_of_lt (by omega)
    rw [descWritten, ih (by omega), Vector.toList_setIfInBounds, htake, hdrop, List.length_cons, Nat.add_right_comm,
      Nat.add_assoc k]
    simp

/-- The writes of a list of words change the descriptor alone. -/
theorem runSteps_descWrites {ws : List Word} {k : Nat} {s : State} {rest : List HostOp} (hl : s.launch = none)
    (hs : s.acceptsWrites) (hlen : k + ws.length ≤ 32) (hh : s.host = descWrites s.cfg k ws ++ rest) :
    runSteps ws.length s = .next { s with desc := descWritten k ws s.desc, host := rest } := by
  induction ws generalizing k s with
  | nil =>
    have hh : s.host = rest := hh
    rw [← hh]
    rfl
  | cons w ws ih =>
    rw [List.length_cons] at hlen
    rw [descWrites_cons, List.cons_append] at hh
    rw [List.length_cons, runSteps_succ, step_descWrite hl (by omega) hs hh]
    exact ih hl hs (by omega) rfl

/-! ### The whole sequence -/

theorem length_encode_le {c : Params} {i : Instr} (hc : c.Ok) (hi : i.WellFormed c) : (encode i).length ≤ 32 := by
  obtain ⟨-, -, hwords, -⟩ := hc
  cases i with
  | nttStage o =>
    have hlen : _ = 14 := (Laws.CommandWords.nttStage o c hi).1
    omega
  | scalarMul o =>
    have hlen : _ = 4 + c.fieldWords := (Laws.CommandWords.scalarMul o c hi).1
    omega
  | lookupEval o =>
    have hlen : _ = 21 := (Laws.CommandWords.lookupEval o c hi).1
    omega

/-- The host's write of `START` clears a finished command first. -/
theorem hostPerform_startCommand {m : State} (hs : m.status = .idle ∨ m.status = .done) :
    hostPerform .startCommand m = State.start { m with status := .idle, run := m.run.starting .idle } := by
  obtain hs | hs := hs
  · have hm : { m with run := m.run.starting .idle } = { m with status := .idle, run := m.run.starting .idle } := by
      rw [← hs]
    simp only [hostPerform, if_neg (show ¬ m.status = .done by simp [hs])]
    rw [writeCtrl_start_of_idle (by exact hs) (by decide), noted_start_of_idle hs (by decide), hm]
  · simp only [hostPerform, if_pos hs]
    rw [writeCtrl_clear_start_of_done (by exact hs) (by decide) (by decide),
      noted_clear_start_of_done hs (by decide) (by decide)]

/-! The three other operations of the sequence as steps. -/

section
variable {s : State} {rest : List HostOp} (hl : s.launch = none)
include hl

theorem step_awaitReady (hs : s.status = .idle ∨ s.status = .done) (hh : s.host = .awaitReady :: rest) :
    step s = .next (s.withHost rest).poll := by
  rw [step_host hl hh]
  exact if_pos hs

theorem step_startCommand (hs : s.status = .idle ∨ s.status = .done) (hh : s.host = .startCommand :: rest) :
    step s = State.start { s with status := .idle, run := s.run.starting .idle, host := rest } := by
  rw [step_host hl hh]
  exact hostPerform_startCommand (m := s.withHost rest) hs

theorem step_awaitEnd_of_done (hs : s.status = .done) (hh : s.host = .awaitEnd :: rest) :
    step s = .next (s.withHost rest).poll := by
  rw [step_host hl hh]
  simp only [hostPerform, withHost_status, hs]

theorem step_awaitEnd_of_fault (hs : s.status = .fault) (hh : s.host = .awaitEnd :: rest) :
    step s = .next ((s.withHost rest).poll.withHost []) := by
  rw [step_host hl hh]
  simp only [hostPerform, withHost_status, hs]

end

/-- The state in which the sequence of a command line starts the command. -/
def State.readyToStart (s : State) (i : Instr) (rest : List HostOp) : State :=
  { s.poll with
    status := .idle
    desc := descWritten 0 (encode i) s.desc
    run := s.poll.run.starting .idle
    host := .awaitEnd :: rest }

theorem toList_desc_readyToStart {s : State} {i : Instr} {rest : List HostOp} (hlen : (encode i).length ≤ 32) :
    (s.readyToStart i rest).desc.toList = (encode i).map some ++ s.desc.toList.drop (encode i).length := by
  rw [State.readyToStart, toList_descWritten (by rwa [Nat.zero_add]), List.take_zero, List.nil_append, Nat.zero_add]

theorem descWord_of_desc_readyToStart {s t : State} {i : Instr} {rest : List HostOp} (hlen : (encode i).length ≤ 32)
    (ht : t.desc = (s.readyToStart i rest).desc) (k : Nat) (w : Word) (hk : (encode i)[k]? = some w) :
    t.descWord k = some w := by
  obtain ⟨hlt, -⟩ := List.getElem?_eq_some_iff.mp hk
  rw [State.descWord, ht, toList_desc_readyToStart hlen, List.getElem?_append_left (by simpa using hlt),
    List.getElem?_map, hk]
  rfl

/-- All but the last step of the sequence: the command is started. -/
theorem runSteps_hostSequence {s : State} {i : Instr} {rest : List HostOp} (hc : s.cfg.Ok) (hi : i.WellFormed s.cfg)
    (hl : s.launch = none) (hs : s.status = .idle ∨ s.status = .done)
    (hh : s.host = hostSequence s.cfg i ++ rest) {u : State} (hexec : exec i (s.readyToStart i rest) = .next u) :
    runSteps ((encode i).length + 2) s = .next u := by
  have hlen := length_encode_le hc hi
  have hpoll := step_awaitReady hl hs (hh.trans (hostSequence_append _ _ _))
  have hwrites := runSteps_descWrites (ws := encode i) (k := 0) (rest := .startCommand :: .awaitEnd :: rest)
    (s := (s.withHost (descWrites s.cfg 0 (encode i) ++ .startCommand :: .awaitEnd :: rest)).poll) hl
    (acceptsWrites_iff.mpr hs) (by omega) rfl
  have hdecode : decode (s.readyToStart i rest).cfg.fieldWords (s.readyToStart i rest).desc.toList = .ok i := by
    rw [toList_desc_readyToStart hlen]
    exact decodeUndoesEncode _ _ _ hi
  rw [show (encode i).length + 2 = (encode i).length + 1 + 1 from rfl, runSteps_succ, hpoll]
  exact (runSteps_snoc hwrites).trans ((step_startCommand (by exact hl) (by exact hs) rfl).trans
    ((start_of_decode_ok (s := s.readyToStart i rest) rfl hdecode).trans hexec))

/-- Settles O54: the command is started in a state that agrees with the one before in all that `START` looks at; the last
poll sees its end; a good end stays by the effects of the host's operations. -/
theorem hostSequenceRunsTheCommand : Obligations.HostSequenceRunsTheCommand := by
  refine ⟨fun s u i rest hc hi hl hlevel hs hh hexec => ?_, fun s t final => finalMemory_of_step⟩
  have hlen := length_encode_le hc hi
  obtain ⟨hne, -⟩ | ⟨-, code, hcode, he⟩ | ⟨-, -, hlane, -⟩ | ⟨-, hadm, -, he⟩ :=
    exec_cases i { s with status := .idle }
  · exact absurd rfl hne
  · rw [he, Host.Outcome.next.injEq] at hexec
    subst hexec
    have hstart : exec i (s.readyToStart i rest) = .next ((s.readyToStart i rest).enterFault code) := by
      rw [exec_eq]
      exact startLaunch_refused rfl hcode
    have hlast := step_awaitEnd_of_fault (s := (s.readyToStart i rest).enterFault code) (rest := rest) hl rfl rfl
    have hrun : ((s.readyToStart i rest).run.seeing .fault s.gm) = .faulted := seeing_eq_faulted.mpr (.inr rfl)
    refine ⟨_, (runSteps_snoc (runSteps_hostSequence hc hi hl hs hh hstart)).trans hlast, rfl, rfl, rfl, hl, rfl, rfl,
      descWord_of_desc_readyToStart (s := s) (rest := rest) hlen rfl, nofun, fun _ => ⟨rfl, hrun, ?_⟩⟩
    exact Option.eq_none_iff_forall_ne_some.mpr fun final hfinal =>
      absurd (hrun.symm.trans (finalMemory_eq_some.mp hfinal).1) (by simp)
  · rw [show s.level = .lane from hlane] at hlevel
    cases hlevel
  · rw [he, Host.Outcome.next.injEq] at hexec
    subst hexec
    have hstart : exec i (s.readyToStart i rest) =
        .next ((s.readyToStart i rest).complete i (gmStores s.gm (commandStores s.cfg s.gm i))) := by
      exact exec_functional (s := s.readyToStart i rest) rfl hlevel hadm
    have hlast := step_awaitEnd_of_done
      (s := (s.readyToStart i rest).complete i (gmStores s.gm (commandStores s.cfg s.gm i))) (rest := rest) hl rfl rfl
    refine ⟨_, (runSteps_snoc (runSteps_hostSequence hc hi hl hs hh hstart)).trans hlast, rfl, rfl, rfl, hl, rfl, rfl,
      descWord_of_desc_readyToStart (s := s) (rest := rest) hlen rfl, fun _ => ⟨rfl, rfl, fun hrun hrest => ?_⟩, nofun⟩
    have hpoll : s.run.seeing s.status s.gm ≠ .faulted := fun h => by
      obtain h | h := seeing_eq_faulted.mp h
      · exact hrun h
      · simp [h] at hs
    have hstarted : (s.readyToStart i rest).run = .started := starting_eq_started.mpr ⟨hpoll, rfl⟩
    have hfinal : ((s.readyToStart i rest).run.seeing .done _) = .good (gmStores s.gm (commandStores s.cfg s.gm i)) :=
      seeing_eq_good.mpr (.inl ⟨hstarted, rfl, rfl⟩)
    exact goodEnd_of_finalMemory (finalMemory_eq_some.mpr ⟨hfinal, hrest⟩)

end Sys2Proof.Machine
end

section
/-! PROOFS. What a lane's step leaves alone (41_ntt_stage.md R176, 44_lookup_eval.md R232 to R234): the cells it writes, its
number, and where it is between barriers. -/

namespace Sys2Proof.Machine

/-- Every answer of a computation has a property. -/
def Answers {α : Type} (P : α → Prop) (x : Except Fault α) : Prop := ∀ a, x = .ok a → P a

theorem Answers.bind {α β : Type} {P : β → Prop} {x : Except Fault α} {f : α → Except Fault β}
    (h : ∀ a, x = .ok a → Answers P (f a)) : Answers P (x >>= f) := fun b hb => by
  obtain ⟨a, ha, hb⟩ := bind_eq_ok.mp hb
  exact h a ha b hb

theorem Answers.pure {α : Type} {P : α → Prop} {a : α} (h : P a) : Answers P (.ok a) := fun b hb => by
  cases hb
  exact h

/-! ### `LOOKUP_EVAL` -/

/-- Before its last line a lane keeps its number and memory. -/
theorem lookupLaneStep_frame {s : State} {o : LookupOperands} {l : LookupLane} (h : l.progress ≠ .store) :
    Answers (fun r => r.lane.idx = l.idx ∧ r.gm = s.gm) (lookupLaneStep s o l) := by
  unfold lookupLaneStep
  cases hprogress : l.progress
  case store => exact absurd hprogress h
  all_goals
    repeat refine .bind fun _ _ => ?_
    exact .pure ⟨rfl, rfl⟩

/-- Settles O40: the lines before the last change no memory, and the last stores the running value. -/
theorem lookupLaneWritesItsOwnCell : Obligations.LookupLaneWritesItsOwnCell := by
  intro s o l r h
  by_cases hstore : l.progress = .store
  · simp only [lookupLaneStep, hstore, bind_eq_ok, pure_eq_ok, temp_eq_ok, memStore_eq_ok] at h
    obtain ⟨v, hv, gm, ⟨-, rfl⟩, rfl⟩ := h
    exact ⟨rfl, fun hne => absurd hstore hne, fun _ => ⟨rfl, v, hv, rfl⟩⟩
  · obtain ⟨hidx, hgm⟩ := lookupLaneStep_frame hstore r h
    exact ⟨hidx, fun _ => hgm, fun heq => absurd heq hstore⟩

/-! ### `NTT_STAGE` -/

section
variable {s : State} {o : NttOperands} {g : NttGroup} {l : NttLane}

/-- A lane's step changes neither memory nor scratch. -/
def NttEffect.Quiet (s : State) (g : NttGroup) (r : NttEffect) : Prop := r.gm = s.gm ∧ r.scratch = g.scratch

theorem nttSeedStep_quiet {line : SeedLine} : Answers (NttEffect.Quiet s g) (nttSeedStep s o g l line) := by
  cases line
  all_goals
    repeat refine .bind fun _ _ => ?_
    exact .pure ⟨rfl, rfl⟩

theorem nttStageStep_quiet {i : U32} {line : StageLine} (h : line ≠ .put) :
    Answers (NttEffect.Quiet s g) (nttStageStep s o g l i line) := by
  cases line
  case put => exact absurd rfl h
  all_goals
    repeat refine .bind fun _ _ => ?_
    exact .pure ⟨rfl, rfl⟩

theorem nttBflyStep_quiet {rnd : Nat} {i : U32} {line : BflyLine} (hsum : line ≠ .sum) (hput : line ≠ .put) :
    Answers (NttEffect.Quiet s g) (nttBflyStep s o g l rnd i line) := by
  cases line
  case sum => exact absurd rfl hsum
  case put => exact absurd rfl hput
  case twist =>
    refine .bind fun di _ => .bind fun _ _ => ?_
    by_cases hdi : di = 0
    · rw [if_neg (not_not_intro hdi)]
      exact .pure ⟨rfl, rfl⟩
    · rw [if_pos hdi]
      exact .bind fun _ _ => .bind fun _ _ => .pure ⟨rfl, rfl⟩
  all_goals
    repeat refine .bind fun _ _ => ?_
    exact .pure ⟨rfl, rfl⟩

/-- Settles O26: the lines that write, each with the temporaries it has read. -/
theorem nttLaneStoresOnlyInTheScatter : Obligations.NttLaneStoresOnlyInTheScatter := by
  intro s o g l r h
  unfold nttLaneStep at h
  split at h
  case h_1 line _ =>
    obtain ⟨hgm, hscratch⟩ := nttSeedStep_quiet r h
    exact ⟨.inl hgm, .inl hscratch⟩
  case h_2 i line hprogress =>
    by_cases hput : line = .put
    · subst hput
      simp only [nttStageStep, bind_eq_ok, pure_eq_ok, scratchWrite_eq_ok] at h
      obtain ⟨_, -, _, -, u, ⟨-, rfl⟩, rfl⟩ := h
      exact ⟨.inl rfl, .inr ⟨i, _, .inl ⟨hprogress, rfl⟩⟩⟩
    · obtain ⟨hgm, hscratch⟩ := nttStageStep_quiet hput r h
      exact ⟨.inl hgm, .inl hscratch⟩
  case h_3 rnd i line hprogress =>
    by_cases hsum : line = .sum
    · subst hsum
      simp only [nttBflyStep, bind_eq_ok, pure_eq_ok, temp_eq_ok, scratchWrite_eq_ok] at h
      obtain ⟨i0, hi0, _, -, _, -, u, ⟨-, rfl⟩, rfl⟩ := h
      exact ⟨.inl rfl, .inr ⟨i0, _, .inr ⟨rnd, i, .inl ⟨hprogress, hi0⟩, rfl⟩⟩⟩
    · by_cases hput : line = .put
      · subst hput
        simp only [nttBflyStep, bind_eq_ok, pure_eq_ok, temp_eq_ok, scratchWrite_eq_ok] at h
        obtain ⟨i1, hi1, _, -, _, -, u, ⟨-, rfl⟩, rfl⟩ := h
        exact ⟨.inl rfl, .inr ⟨i1, _, .inr ⟨rnd, i, .inr ⟨hprogress, hi1⟩, rfl⟩⟩⟩
      · obtain ⟨hgm, hscratch⟩ := nttBflyStep_quiet hsum hput r h
        exact ⟨.inl hgm, .inl hscratch⟩
  case h_4 i line hprogress =>
    cases line <;>
      simp only [nttScatStep, bind_eq_ok, pure_eq_ok, temp_eq_ok, memStore_eq_ok] at h
    case base =>
      obtain ⟨_, -, rfl⟩ := h
      exact ⟨.inl rfl, .inl rfl⟩
    case low =>
      obtain ⟨base, hbase, p, hp, v, -, gm, ⟨-, rfl⟩, rfl⟩ := h
      exact ⟨.inr ⟨i, base, p, v, hbase, hp, .inl ⟨hprogress, rfl⟩⟩, .inl rfl⟩
    case high =>
      obtain ⟨base, hbase, p, hp, counth, hcounth, _, -, v, -, gm, ⟨-, rfl⟩, rfl⟩ := h
      exact ⟨.inr ⟨i, base, p, v, hbase, hp, .inr ⟨counth, hcounth, hprogress, rfl⟩⟩, .inl rfl⟩
  all_goals
    cases h
    exact ⟨.inl rfl, .inl rfl⟩

/-- A lane's step keeps its number, and leaves it between the same two barriers (10_state.md R35). -/
theorem nttLaneStep_keepsPhase {gen : Nat} (hphase : progressAt o.deg.toNat gen l.progress) :
    Answers (fun r => r.lane.lid = l.lid ∧ progressAt o.deg.toNat gen r.lane.progress) (nttLaneStep s o g l) := by
  unfold nttLaneStep
  cases hprogress : l.progress <;> rw [hprogress] at hphase
  case seed line =>
    cases line
    all_goals
      repeat refine .bind fun _ _ => ?_
      exact .pure ⟨rfl, hphase⟩
  case stage i line =>
    cases line
    case ladder =>
      refine .bind fun _ _ => .bind fun _ _ => .bind fun _ _ => .pure ⟨rfl, ?_⟩
      dsimp only
      split
      · exact hphase
      · exact ⟨hphase, Nat.zero_le _⟩
    all_goals
      repeat refine .bind fun _ _ => ?_
      exact .pure ⟨rfl, hphase⟩
  case bfly rnd i line =>
    cases line
    case twist =>
      refine .bind fun di _ => .bind fun _ _ => ?_
      by_cases hdi : di = 0
      · rw [if_neg (not_not_intro hdi)]
        exact .pure ⟨rfl, hphase⟩
      · rw [if_pos hdi]
        exact .bind fun _ _ => .bind fun _ _ => .pure ⟨rfl, hphase⟩
    case put =>
      refine .bind fun _ _ => .bind fun _ _ => .bind fun _ _ => .bind fun _ _ => .pure ⟨rfl, ?_⟩
      dsimp only
      split <;> exact hphase
    all_goals
      repeat refine .bind fun _ _ => ?_
      exact .pure ⟨rfl, hphase⟩
  case scat i line =>
    cases line
    case high =>
      refine .bind fun _ _ => .bind fun _ _ => .bind fun _ _ => .bind fun _ _ => .bind fun _ _ => .bind fun _ _ =>
        .pure ⟨rfl, ?_⟩
      dsimp only
      split <;> exact hphase
    all_goals
      repeat refine .bind fun _ _ => ?_
      exact .pure ⟨rfl, hphase⟩
  all_goals exact .pure ⟨rfl, hprogress ▸ hphase⟩

end

/-! ### No lane's step is the fault `stuck` -/

theorem bind_eq_error {α β : Type} {x : Except Fault α} {f : α → Except Fault β} {e : Fault} :
    (x >>= f) = .error e ↔ x = .error e ∨ ∃ a, x = .ok a ∧ f a = .error e := by
  cases x <;> simp [bind, Except.bind]

theorem pure_ne_error {α : Type} {a : α} {e : Fault} : (pure a : Except Fault α) ≠ .error e := nofun

theorem temp_ne_stuck {α : Type} (x : Option α) : temp x ≠ .error .stuck := by
  cases x <;> simp [temp]

theorem memLoad_ne_stuck (s : State) (base : Addr) (i : U32) : memLoad s base i ≠ .error .stuck := by
  unfold memLoad
  split
  · split <;> simp
  · simp

theorem memStore_ne_stuck (s : State) (base : Addr) (i : U32) (v : Nat) : memStore s base i v ≠ .error .stuck := by
  unfold memStore
  split <;> simp

theorem scratchRead_ne_stuck (u : List (Option Nat)) (i : U32) : scratchRead u i ≠ .error .stuck := by
  unfold scratchRead
  split <;> simp

theorem scratchWrite_ne_stuck (u : List (Option Nat)) (i : U32) (v : Nat) : scratchWrite u i v ≠ .error .stuck := by
  unfold scratchWrite
  split <;> simp

theorem loadAll_ne_stuck (s : State) (base : Addr) (js : List U32) : loadAll s base js ≠ .error .stuck := by
  induction js with
  | nil => simp [loadAll]
  | cons j js ih =>
    unfold loadAll
    split
    · rename_i f hf
      exact fun h => memLoad_ne_stuck s base j (by rw [hf, Except.error.inj h])
    · split
      · rename_i f hf
        exact fun h => ih (by rw [hf, Except.error.inj h])
      · simp

theorem lanePowLookup_ne_stuck (s : State) (base : Addr) (e : U32) : lanePowLookup s base e ≠ .error .stuck := by
  unfold lanePowLookup
  split
  · simp
  · rename_i f hf
    exact fun h => loadAll_ne_stuck s base _ (by rw [hf, Except.error.inj h])

theorem scalarLaneStep_ne_stuck (s : State) (o : ScalarOperands) (f : Nat) (l : ScalarLane) :
    scalarLaneStep s o f l ≠ .error .stuck := by
  unfold scalarLaneStep
  split <;> simp only [ne_eq, bind_eq_error, pure_ne_error, temp_ne_stuck, memLoad_ne_stuck, memStore_ne_stuck,
    reduceCtorEq, and_false, exists_false, or_false, not_false_eq_true]

theorem lookupLaneStep_ne_stuck (s : State) (o : LookupOperands) (l : LookupLane) :
    lookupLaneStep s o l ≠ .error .stuck := by
  unfold lookupLaneStep
  split <;> simp only [ne_eq, bind_eq_error, pure_ne_error, temp_ne_stuck, memLoad_ne_stuck, memStore_ne_stuck,
    reduceCtorEq, and_false, exists_false, or_false, not_false_eq_true]

theorem nttLaneStep_ne_stuck (s : State) (o : NttOperands) (g : NttGroup) (l : NttLane) :
    nttLaneStep s o g l ≠ .error .stuck := by
  unfold nttLaneStep
  split
  case h_1 line _ =>
    cases line <;> simp only [nttSeedStep, ne_eq, bind_eq_error, pure_ne_error, temp_ne_stuck, lanePowLookup_ne_stuck,
      reduceCtorEq, and_false, exists_false, or_false, not_false_eq_true]
  case h_2 i line _ =>
    cases line <;> simp only [nttStageStep, ne_eq, bind_eq_error, pure_ne_error, temp_ne_stuck, memLoad_ne_stuck,
      scratchWrite_ne_stuck, and_false, exists_false, or_false, not_false_eq_true]
  case h_3 rnd i line _ =>
    cases line
    case twist =>
      simp only [nttBflyStep, ne_eq, bind_eq_error, temp_ne_stuck, false_or, not_exists, not_and]
      intro di _ d _
      split <;> simp only [bind_eq_error, pure_ne_error, temp_ne_stuck, memLoad_ne_stuck, and_false, exists_false,
        or_false, not_false_eq_true]
    all_goals
      simp only [nttBflyStep, ne_eq, bind_eq_error, pure_ne_error, temp_ne_stuck, scratchRead_ne_stuck,
        scratchWrite_ne_stuck, and_false, exists_false, or_false, not_false_eq_true]
  case h_4 i line _ =>
    cases line <;> simp only [nttScatStep, ne_eq, bind_eq_error, pure_ne_error, temp_ne_stuck, scratchRead_ne_stuck,
      memStore_ne_stuck, and_false, exists_false, or_false, not_false_eq_true]
  all_goals simp only [ne_eq, reduceCtorEq, not_false_eq_true]

end Sys2Proof.Machine
end

section
/-! PROOFS. Barriers (20_memory.md section 4, 10_state.md R35, R37): when a group releases one, that every step keeps barriers
and lanes in step, and that so some agent can always step (93_implementation_defined.md U21). -/

namespace Sys2Proof.Machine

/-! ### Release -/

theorem releasable_eq_some {g : NttGroup} {j : Nat} :
    releasable g = some j ↔ g.lanes ≠ [] ∧ ∀ l ∈ g.lanes, l.progress = .bar j ∧ l.lid.toNat ∈ g.arrived := by
  unfold releasable
  cases hlanes : g.lanes with
  | nil => simp
  | cons l ls =>
    by_cases hbar : ∃ k, l.progress = .bar k
    · obtain ⟨k, hk⟩ := hbar
      simp only [hk]
      constructor
      · intro h
        split_ifs at h with hall
        cases h
        simpa using hall
      · rintro ⟨-, hall⟩
        have hjk : k = j := by simpa [hk] using (hall l List.mem_cons_self).1
        subst hjk
        rw [if_pos (by simpa using hall)]
    · have hnot (k : Nat) : l.progress ≠ .bar k := fun h => hbar ⟨k, h⟩
      constructor
      · intro h
        dsimp only at h
        split at h
        · exact absurd ‹_› (hnot _)
        · cases h
      · exact fun h => absurd (h.2 l List.mem_cons_self).1 (hnot j)

/-- Settles O29: the release maps one update over the lanes. -/
theorem barrierReleasesTheWholeGroup : Obligations.BarrierReleasesTheWholeGroup := by
  intro c o g j
  refine ⟨releasable_eq_some, rfl, rfl, rfl, rfl, List.length_map .., fun k l hl => ?_⟩
  refine ⟨afterBarrier c o j l, ?_, rfl, fun hj => if_pos hj, fun hj => if_neg (Nat.not_lt.mpr hj)⟩
  rw [releaseGroup, List.getElem?_map, hl, Option.map_some]

/-! ### Barriers and lanes stay in step -/

/-- An element put in the place of one with the same image. -/
theorem map_set_eq_self {α β : Type} {f : α → β} {xs : List α} {i : Nat} {x y : α} (hx : xs[i]? = some x)
    (hf : f y = f x) : (xs.set i y).map f = xs.map f := by
  obtain ⟨hi, rfl⟩ := List.getElem?_eq_some_iff.mp hx
  rw [List.map_set, hf, ← List.map_set, List.set_getElem_self]

/-- With keys that tell the elements apart, an element put in a place leaves those with other keys. -/
theorem forall_mem_set_of_nodup_map {α β : Type} {f : α → β} {P : α → Prop} {xs : List α} (hnodup : (xs.map f).Nodup)
    {i : Nat} {x y : α} (hx : xs[i]? = some x) (hy : P y) (hothers : ∀ z ∈ xs, f z ≠ f x → P z) :
    ∀ z ∈ xs.set i y, P z := fun z hz => by
  obtain ⟨k, hk⟩ := List.mem_iff_getElem?.mp hz
  by_cases hki : k = i
  · subst hki
    rw [List.getElem?_set_self (List.getElem?_eq_some_iff.mp hx).1, Option.some.injEq] at hk
    exact hk ▸ hy
  · rw [List.getElem?_set_ne (Ne.symm hki)] at hk
    refine hothers z (List.mem_of_getElem? hk) fun he => hki ?_
    have hklt := (List.getElem?_eq_some_iff.mp hk).1
    have hsame : (xs.map f)[k]? = (xs.map f)[i]? := by
      rw [List.getElem?_map, List.getElem?_map, hk, hx, Option.map_some, Option.map_some, he]
    exact (List.getElem?_inj (by rwa [List.length_map]) hnodup).mp hsame

theorem mem_insertLid {a b : Nat} {bs : List Nat} : b ∈ insertLid a bs ↔ b = a ∨ b ∈ bs := by
  induction bs with
  | nil => simp [insertLid]
  | cons c bs ih =>
    unfold insertLid
    split
    · simp
    · split
      · subst_vars
        simp
      · simp [ih, or_left_comm]

theorem mem_arrivals {l : NttLane} {b : Nat} {as : List Nat} :
    b ∈ arrivals as l ↔ (l.waiting = true ∧ b = l.lid.toNat) ∨ b ∈ as := by
  unfold arrivals NttLane.waiting
  split <;> simp [mem_insertLid, *]

theorem waiting_of_nttAble {l : NttLane} (h : nttAble l = true) : l.waiting = false := by
  unfold nttAble at h
  unfold NttLane.waiting
  split at h <;> simp_all

section
variable {o : NttOperands} {g : NttGroup}

/-- A lane's step keeps its group in step. -/
theorem NttGroup.Synced.stepped (hg : g.Synced o) {s : State} {li : Nat} {l : NttLane} {r : NttEffect}
    (hl : g.lanes[li]? = some l) (hable : nttAble l = true) (h : nttLaneStep s o g l = .ok r) :
    (steppedGroup g li r).Synced o := by
  have hmem := List.mem_of_getElem? hl
  obtain ⟨hlid, hphase⟩ := nttLaneStep_keepsPhase (hg.phase l hmem) r h
  refine ⟨?_, ?_, ?_, ?_⟩
  · exact fun h => hg.lanes_ne ((List.set_eq_nil_iff _ _).mp h)
  · exact (map_set_eq_self hl hlid).symm ▸ hg.lids
  · exact forall_mem_set hg.phase li hphase
  · have hnot : l.lid.toNat ∉ g.arrived := fun hin => by
      simpa [waiting_of_nttAble hable] using (hg.arrived_iff l hmem).mp hin
    refine forall_mem_set_of_nodup_map hg.lids hl ?_ fun x hx hne => ?_
    · simp [steppedGroup, mem_arrivals, hlid, hnot]
    · have hne : x.lid.toNat ≠ r.lane.lid.toNat := fun he => hne (hlid ▸ BitVec.eq_of_toNat_eq he)
      rw [steppedGroup, mem_arrivals, ← hg.arrived_iff x hx]
      simp [hne]

/-- So does the release of a barrier. -/
theorem NttGroup.Synced.released (hg : g.Synced o) (c : Params) {j : Nat} (hj : releasable g = some j) :
    (releaseGroup c o j g).Synced o := by
  obtain ⟨hne, hall⟩ := releasable_eq_some.mp hj
  obtain ⟨l, hl⟩ := List.exists_mem_of_ne_nil _ hne
  have hphase := hg.phase l hl
  rw [(hall l hl).1] at hphase
  obtain ⟨-, hdeg⟩ := hphase
  refine ⟨by simpa [releaseGroup] using hne, ?_, ?_, ?_⟩
  · have hlids : (releaseGroup c o j g).lanes.map (fun l => l.lid) = g.lanes.map fun l => l.lid := by
      rw [releaseGroup, List.map_map]
      rfl
    exact hlids ▸ hg.lids
  · intro x hx
    obtain ⟨y, -, rfl⟩ := List.mem_map.mp hx
    dsimp only [releaseGroup, afterBarrier]
    split_ifs with hlt
    · exact ⟨rfl, hlt⟩
    · exact congrArg (· + 1) (Nat.le_antisymm hdeg (Nat.not_lt.mp hlt))
  · intro x hx
    obtain ⟨y, -, rfl⟩ := List.mem_map.mp hx
    dsimp only [releaseGroup, afterBarrier, NttLane.waiting]
    split_ifs <;> simp

/-- A new group has lanes, all at their first statement. -/
theorem newNttGroup_synced {c : Params} {r : Nat} (hs : NttSizes o r) (index : U32) : (newNttGroup c o index).Synced o := by
  refine ⟨?_, ?_, ?_, ?_⟩
  · rw [ne_eq, ← List.length_eq_zero_iff, newNttGroup, List.length_map, length_upTo, hs.toNat_lanes]
    exact (Nat.two_pow_pos _).ne'
  · rw [newNttGroup, List.map_map]
    exact (nodup_upTo _).map fun _ _ h => h
  · intro l hl
    obtain ⟨lid, -, rfl⟩ := List.mem_map.mp hl
    exact rfl
  · intro l hl
    obtain ⟨lid, -, rfl⟩ := List.mem_map.mp hl
    simp [newNttGroup, newNttLane, NttLane.waiting]

end

/-- With no launch of `NTT_STAGE` in flight there is no barrier. -/
theorem synced_of_launch_eq_none {s : State} (h : s.launch = none) : s.Synced := fun o gs hl => by
  simp [h] at hl

theorem Started.synced {m t : State} (hm : m.Synced) (h : Started m t) : t.Synced := by
  cases h with
  | inFlight i hadm hlevel =>
    intro o gs hl g hg
    cases i with
    | nttStage o' =>
      obtain ⟨hok, -⟩ := (admission_eq_none_iff _ _).mp hadm
      obtain ⟨r, hs⟩ := nttSizes_of_nttParamsOk hok
      cases hl
      obtain ⟨index, -, rfl⟩ := List.mem_map.mp hg
      exact newNttGroup_synced hs index
    | scalarMul => cases hl
    | lookupEval => cases hl
  | _ => exact hm

theorem HostEffect.synced {m t : State} {op : HostOp} (hm : m.Synced) (h : HostEffect m op t) : t.Synced := by
  cases h with
  | reset => exact synced_of_launch_eq_none rfl
  | started _ _ _ h => exact h.synced (m := { m with status := .idle, run := m.run.starting .idle }) hm
  | descWritten i v =>
    intro o gs hl
    exact hm o gs (by simpa using hl)
  | _ => exact hm

/-- A move of a lane or a barrier keeps the barriers in step. -/
theorem laneMoves_synced {s t : State} {l : Launch} (hs : s.Synced) (hl : s.launch = some l) (h : .ok t ∈ laneMoves s l) :
    t.Synced := by
  cases l with
  | ntt o gs =>
    intro o' gs' hl'
    obtain ⟨gi, g, hg, ⟨li, l, hlane, hable, h⟩ | ⟨j, hj, h⟩⟩ := mem_nttMoves.mp h
    · obtain ⟨r, hr, rfl⟩ := nttLaneMove_eq_ok.mp h
      cases hl'
      exact forall_mem_set (hs o gs hl) gi ((hs o gs hl g (List.mem_of_getElem? hg)).stepped hlane hable hr)
    · rw [Except.ok.injEq] at h
      subst h
      cases hl'
      exact forall_mem_set (hs o gs hl) gi ((hs o gs hl g (List.mem_of_getElem? hg)).released s.cfg hj)
  | scalar o f ls =>
    obtain ⟨li, l, -, -, h⟩ := mem_scalarMoves.mp h
    obtain ⟨r, -, rfl⟩ := scalarLaneMove_eq_ok.mp h
    intro o' gs' hl'
    cases hl'
  | lookup o ls =>
    obtain ⟨li, l, -, -, h⟩ := mem_lookupMoves.mp h
    obtain ⟨r, -, rfl⟩ := lookupLaneMove_eq_ok.mp h
    intro o' gs' hl'
    cases hl'

/-- Settles O30: barriers stay in step along each effect of a step. -/
theorem stepKeepsBarriersInStep : Obligations.StepKeepsBarriersInStep := by
  intro s t hs h
  cases step_effect h with
  | rest => exact hs
  | lane l _ hl h => exact laneMoves_synced (s := s.picked) hs hl h
  | ended l hl => exact synced_of_launch_eq_none rfl
  | host op rest sched _ hhost h => exact h.synced (m := s.onTurn sched rest) hs

/-! ### Some agent can step -/

/-- A group in step in which no lane is able to step can release its barrier, or all its lanes have ended. -/
theorem NttGroup.Synced.releasable_or_ended {o : NttOperands} {g : NttGroup} (hg : g.Synced o)
    (hnone : ∀ l ∈ g.lanes, nttAble l = false) :
    (∃ j, releasable g = some j) ∨ ∀ l ∈ g.lanes, l.progress = .ended := by
  have hcases (l : NttLane) (hl : l ∈ g.lanes) : (∃ j, l.progress = .bar j ∧ g.gen = j ∧ j ≤ o.deg.toNat) ∨
      l.progress = .ended ∧ g.gen = o.deg.toNat + 1 := by
    have hphase := hg.phase l hl
    have hstill := hnone l hl
    cases hprogress : l.progress <;> rw [hprogress] at hphase <;> simp [nttAble, hprogress] at hstill
    · exact .inl ⟨_, rfl, hphase⟩
    · exact .inr ⟨rfl, hphase⟩
  by_cases hgen : g.gen = o.deg.toNat + 1
  · refine .inr fun l hl => ?_
    obtain ⟨j, -, hj, hle⟩ | ⟨hended, -⟩ := hcases l hl
    · omega
    · exact hended
  · refine .inl ⟨g.gen, releasable_eq_some.mpr ⟨hg.lanes_ne, fun l hl => ?_⟩⟩
    obtain ⟨j, hbar, rfl, -⟩ | ⟨-, hlast⟩ := hcases l hl
    · exact ⟨hbar, (hg.arrived_iff l hl).mpr (by simp [NttLane.waiting, hbar])⟩
    · exact absurd hlast hgen

/-- A launch in flight whose barriers are in step has a move. -/
theorem exists_move {s : State} {l : Launch} (hs : s.Synced) (hl : s.launch = some l) :
    laneMoves s l ++ finishMoves s l ≠ [] := by
  by_cases hended : launchEnded l = true
  · simp [finishMoves, hended]
  · refine fun h => ?_
    obtain ⟨hmoves, -⟩ := List.append_eq_nil_iff.mp h
    have hnone (r : Except Fault State) : r ∉ laneMoves s l := by simp [hmoves]
    cases l with
    | ntt o gs =>
      refine hended (List.all_eq_true.mpr fun g hg => ?_)
      obtain ⟨gi, hgi⟩ := List.mem_iff_getElem?.mp hg
      have hable : ∀ l ∈ g.lanes, nttAble l = false := fun l hl => by
        obtain ⟨li, hli⟩ := List.mem_iff_getElem?.mp hl
        exact Bool.eq_false_iff.mpr fun hable => hnone _ (mem_nttMoves.mpr ⟨gi, g, hgi, .inl ⟨li, l, hli, hable, rfl⟩⟩)
      obtain ⟨j, hj⟩ | hall := (hs o gs hl g hg).releasable_or_ended hable
      · exact absurd (mem_nttMoves.mpr ⟨gi, g, hgi, .inr ⟨j, hj, rfl⟩⟩) (hnone _)
      · simpa using hall
    | scalar o f ls =>
      refine hended (List.all_eq_true.mpr fun l hl => beq_iff_eq.mpr ?_)
      obtain ⟨li, hli⟩ := List.mem_iff_getElem?.mp hl
      by_contra hne
      exact hnone _ (mem_scalarMoves.mpr ⟨li, l, hli, hne, rfl⟩)
    | lookup o ls =>
      refine hended (List.all_eq_true.mpr fun l hl => beq_iff_eq.mpr ?_)
      obtain ⟨li, hli⟩ := List.mem_iff_getElem?.mp hl
      by_contra hne
      exact hnone _ (mem_lookupMoves.mpr ⟨li, l, hli, hne, rfl⟩)

theorem laneMove_ne_stuck {s : State} {l : Launch} {r : Except Fault State} (h : r ∈ laneMoves s l) :
    r ≠ .error .stuck := by
  cases l with
  | ntt o gs =>
    obtain ⟨gi, g, -, ⟨li, l, -, -, rfl⟩ | ⟨j, -, rfl⟩⟩ := mem_nttMoves.mp h
    · simp only [nttLaneMove, ne_eq, bind_eq_error, pure_ne_error, nttLaneStep_ne_stuck, and_false, exists_false,
      or_false, not_false_eq_true]
    · simp
  | scalar o f ls =>
    obtain ⟨li, l, -, -, rfl⟩ := mem_scalarMoves.mp h
    simp only [scalarLaneMove, ne_eq, bind_eq_error, pure_ne_error, scalarLaneStep_ne_stuck, and_false, exists_false,
      or_false, not_false_eq_true]
  | lookup o ls =>
    obtain ⟨li, l, -, -, rfl⟩ := mem_lookupMoves.mp h
    simp only [lookupLaneMove, ne_eq, bind_eq_error, pure_ne_error, lookupLaneStep_ne_stuck, and_false, exists_false,
      or_false, not_false_eq_true]

theorem start_ne_fault (s : State) (f : Fault) : s.start ≠ .fault f := by
  unfold State.start
  split
  · split
    · rename_i i _
      obtain ⟨-, h⟩ | ⟨-, _, -, h⟩ | ⟨-, -, -, h⟩ | ⟨-, -, -, h⟩ := exec_cases i s <;> simp [h]
    · simp
  · simp

theorem writeCtrl_ne_fault (s : State) (v : Word) (f : Fault) : s.writeCtrl v ≠ .fault f := by
  unfold State.writeCtrl
  dsimp only
  split
  · split
    · exact start_ne_fault _ f
    · simp
  · simp

/-- The host's operations take no fault of the machine. -/
theorem hostPerform_ne_fault (op : HostOp) (s : State) (f : Fault) : hostPerform op s ≠ .fault f := by
  cases op with
  | regWrite addr bytes v =>
    dsimp only [hostPerform]
    split
    · unfold State.writeRegister
      split_ifs
      · exact writeCtrl_ne_fault _ v f
      · simp
      · simp
    · simp
  | startCommand => exact writeCtrl_ne_fault _ _ f
  | memRead a =>
    dsimp only [hostPerform, State.hostRead]
    split_ifs
    · simp
    · simp
    · split <;> simp
  | awaitEnd | regRead =>
    dsimp only [hostPerform]
    split <;> simp
  | awaitReady =>
    dsimp only [hostPerform]
    split_ifs <;> simp
  | memWrite =>
    dsimp only [hostPerform, State.hostWrite]
    split_ifs <;> simp
  | alloc =>
    dsimp only [hostPerform, State.hostAlloc]
    split_ifs <;> simp
  | free =>
    dsimp only [hostPerform, State.hostFree]
    split_ifs <;> simp
  | reset => simp [hostPerform]

/-- Settles O31: there is a move, and no move is the fault `stuck`. -/
theorem launchInFlightIsNeverStuck : Obligations.LaunchInFlightIsNeverStuck := by
  intro s l hs hl hstuck
  have hne : busyMoves s.picked l ≠ [] := by
    have hmove := exists_move (s := s.picked) hs hl
    simp only [busyMoves, ne_eq, List.append_eq_nil_iff, List.map_eq_nil_iff] at hmove ⊢
    exact fun h => hmove h.1
  simp only [step, hl, busyStep] at hstuck
  split at hstuck
  · rename_i o ho
    subst hstuck
    obtain hmem | hmem := List.mem_append.mp (List.mem_of_getElem? ho)
    · obtain ⟨r, hr, houtcome⟩ := List.mem_map.mp hmem
      cases r with
      | ok t => cases houtcome
      | error f =>
        cases houtcome
        obtain hr | hr := List.mem_append.mp hr
        · exact laneMove_ne_stuck hr rfl
        · unfold finishMoves at hr
          split at hr <;> simp at hr
    · obtain ⟨op, rest, -, h⟩ := hostMove_eq_some (Option.mem_toList.mp hmem)
      exact hostPerform_ne_fault op _ _ h
  · rename_i hnone
    exact absurd (List.getElem?_eq_none_iff.mp hnone) (Nat.not_le.mpr (Nat.mod_lt _ (List.length_pos_iff.mpr hne)))

end Sys2Proof.Machine
end

section
/-! PROOFS. Schedule independence (60_exceptions.md section 4): moves in any order count down the steps a launch has left. And
where each lane writes a cell of its own, what a lane has seen does not depend on the others. -/

namespace Sys2Proof.Machine

/-! ### Memories that read alike -/

/-- In canonical form a memory is what its cells read as. -/
theorem gm_ext {gm gm' : List (Nat × Nat)} (h : gmWf gm) (h' : gmWf gm') (hread : ∀ a, gmRead gm a = gmRead gm' a) :
    gm = gm' := by
  have hirrefl : Std.Irrefl fun c d : Nat × Nat => c.1 < d.1 := ⟨fun _ => Nat.lt_irrefl _⟩
  have hantisymm : Std.Antisymm fun c d : Nat × Nat => c.1 < d.1 := ⟨fun _ _ hab hba => by omega⟩
  refine List.Pairwise.eq_of_mem_iff h h' fun ⟨a, v⟩ => ?_
  rw [← gmRead_eq_some_iff h, ← gmRead_eq_some_iff h', hread]

/-! ### Counting down to the end of a launch -/

/-- States of a launch that the host leaves alone: every move of a lane or a barrier takes one off the steps it has left, and at
its end memory is `final`. -/
structure CountsDown (J : State → Prop) (left : State → Nat) (final : List (Nat × Nat)) : Prop where
  host : ∀ m, J m → m.host = []
  picked : ∀ m, J m → J m.picked ∧ left m.picked = left m
  synced : ∀ m, J m → m.Synced
  launch : ∀ m, J m → m.launch ≠ none
  moves : ∀ m l r, J m → m.launch = some l → r ∈ laneMoves m l → ∃ t, r = .ok t ∧ J t ∧ left t + 1 = left m
  ended : ∀ m l, J m → m.launch = some l → launchEnded l = true → left m = 0 ∧ m.gm = final

section
variable {J : State → Prop} {left : State → Nat} {final : List (Nat × Nat)} (h : CountsDown J left final) {s : State} (hs : J s)
include h hs

/-- Whichever move is picked. -/
theorem CountsDown.step (hleft : 0 < left s) : ∃ t, Machine.step s = .next t ∧ J t ∧ left t + 1 = left s := by
  obtain ⟨l, hl⟩ := Option.ne_none_iff_exists'.mp (h.launch s hs)
  obtain ⟨hpicked, hsame⟩ := h.picked s hs
  have hnot : ¬ launchEnded l = true := fun hended => hleft.ne' (h.ended s l hs hl hended).1
  obtain ⟨r, hr, hstep⟩ := step_alone hl (h.host s hs) (exists_move (h.synced _ hpicked) hl)
  rw [finishMoves, if_neg hnot, List.append_nil] at hr
  obtain ⟨t, rfl, ht, htleft⟩ := h.moves s.picked l r hpicked hl hr
  exact ⟨t, hstep, ht, htleft.trans hsame⟩

/-- With no step left no lane and no barrier can move, so the launch can only end. -/
theorem CountsDown.last (hleft : left s = 0) :
    ∃ t, Machine.step s = .next t ∧ t.status = .done ∧ t.launch = none ∧ t.gm = final := by
  obtain ⟨l, hl⟩ := Option.ne_none_iff_exists'.mp (h.launch s hs)
  obtain ⟨hpicked, hsame⟩ := h.picked s hs
  have hmoves : laneMoves s.picked l = [] := List.eq_nil_iff_forall_not_mem.mpr fun r hr => by
    obtain ⟨t, -, -, htleft⟩ := h.moves s.picked l r hpicked hl hr
    omega
  have hended : launchEnded l = true := by
    by_contra hnot
    exact exists_move (h.synced _ hpicked) hl (by rw [hmoves, finishMoves, if_neg hnot, List.append_nil])
  exact ⟨_, step_of_ended hl (h.host s hs) hmoves hended, rfl, rfl, (h.ended s l hs hl hended).2⟩

/-- Whatever the schedule, the launch ends after the steps it has left and one more. -/
theorem CountsDown.run :
    ∃ t, runSteps (left s + 1) s = .next t ∧ t.status = .done ∧ t.launch = none ∧ t.gm = final := by
  obtain ⟨u, hrun, hu, hzero⟩ := runSteps_countdown (fun m hm hpos => h.step hm hpos) hs
  obtain ⟨t, hstep, ht⟩ := h.last hu hzero
  exact ⟨t, (runSteps_snoc hrun).trans hstep, ht⟩

end

/-! ### Launches whose lanes write a cell each -/

/-- A launch whose lanes write a cell each, and what is expected of it. -/
structure LaneProgram (L : Type) where
  /-- the state the command was started in -/
  start : State
  /-- the launch with its lanes -/
  launch : List L → Launch
  /-- the lanes of such a launch -/
  lanes : Launch → List L
  /-- the cell a lane writes -/
  cell : L → Nat
  /-- the lines a lane has left -/
  left : L → Nat
  /-- the write footprint -/
  cells : List Nat
  /-- the memory of the functional form -/
  final : List (Nat × Nat)
  /-- a lane is as it should be, given memory -/
  good : List (Nat × Nat) → L → Prop

section
variable {L : Type} (P : LaneProgram L)

/-- The lines all lanes of a launch have left. -/
def LaneProgram.total (ls : List L) : Nat := (ls.map P.left).sum

/-- The same of the launch in flight. -/
def LaneProgram.remaining (s : State) : Nat := P.total (s.launch.elim [] P.lanes)

/-- The launch is in flight and the host leaves it alone: only its own cells have changed, and each lane is as it should be. -/
structure LaneProgram.Running (s : State) (ls : List L) : Prop where
  launch : s.launch = some (P.launch ls)
  host : s.host = []
  cfg : s.cfg = P.start.cfg
  dom : s.dom = P.start.dom
  wf : gmWf s.gm
  map_cell : ls.map P.cell = P.cells
  frame : ∀ a, a ∉ P.cells → gmRead s.gm a = gmRead P.start.gm a
  good : ∀ l ∈ ls, P.good s.gm l

/-- A step of a lane: one line less, its own cell at most changed, and the lane still as it should be. -/
structure LaneProgram.Stepped (gm gm' : List (Nat × Nat)) (l l' : L) : Prop where
  cell : P.cell l' = P.cell l
  left : P.left l' + 1 = P.left l
  wf : gmWf gm'
  frame : ∀ a, a ≠ P.cell l → gmRead gm' a = gmRead gm a
  good : P.good gm' l'

/-- What makes the end of a launch independent of the schedule. -/
structure LaneProgram.Independent : Prop where
  nodup : P.cells.Nodup
  lanes_launch : ∀ ls, P.lanes (P.launch ls) = ls
  ended : ∀ ls, launchEnded (P.launch ls) = true ↔ ∀ l ∈ ls, P.left l = 0
  /-- a launch of this form has no barrier -/
  no_barrier : ∀ o gs ls, P.launch ls ≠ .ntt o gs
  /-- a lane depends on its own cell and on the cells no lane writes -/
  own : ∀ gm gm' l, (∀ a, a = P.cell l ∨ a ∉ P.cells → gmRead gm' a = gmRead gm a) → P.good gm l → P.good gm' l
  /-- a move is a step of a lane -/
  moves : ∀ s ls, P.Running s ls → ∀ r ∈ laneMoves s (P.launch ls),
    ∃ (li : Nat) (l l' : L) (gm' : List (Nat × Nat)), ls[li]? = some l ∧
      r = .ok { s with gm := gm', launch := some (P.launch (ls.set li l')) } ∧ P.Stepped s.gm gm' l l'
  final_wf : gmWf P.final
  final_frame : ∀ a, a ∉ P.cells → gmRead P.final a = gmRead P.start.gm a
  final_cell : ∀ gm l, P.cell l ∈ P.cells → P.good gm l → P.left l = 0 → gmRead gm (P.cell l) = gmRead P.final (P.cell l)

end

section
variable {L : Type} {P : LaneProgram L} {s : State} {ls : List L}

theorem LaneProgram.Running.picked (h : P.Running s ls) : P.Running s.picked ls := { h with }

theorem sum_map_set {α : Type} {f : α → Nat} {xs : List α} {i : Nat} {x y : α} (hx : xs[i]? = some x)
    (hf : f y + 1 = f x) : ((xs.set i y).map f).sum + 1 = (xs.map f).sum := by
  induction xs generalizing i with
  | nil => cases hx
  | cons z zs ih =>
    cases i with
    | zero =>
      cases hx
      simp only [List.set_cons_zero, List.map_cons, List.sum_cons]
      omega
    | succ i =>
      have hrest := ih hx
      simp only [List.set_cons_succ, List.map_cons, List.sum_cons]
      omega

/-- A step of one lane keeps the others as they should be. -/
theorem LaneProgram.Running.stepped (hP : P.Independent) (h : P.Running s ls) {li : Nat}
    {l l' : L} {gm' : List (Nat × Nat)} (hl : ls[li]? = some l) (hstep : P.Stepped s.gm gm' l l') :
    P.Running { s with gm := gm', launch := some (P.launch (ls.set li l')) } (ls.set li l') := by
  have hcells := (map_set_eq_self hl hstep.cell).trans h.map_cell
  have hcell : P.cell l ∈ P.cells := h.map_cell ▸ List.mem_map_of_mem (List.mem_of_getElem? hl)
  refine { h with launch := rfl, wf := hstep.wf, map_cell := hcells, frame := fun a ha => ?_, good := ?_ }
  · exact (hstep.frame a fun he => ha (he ▸ hcell)).trans (h.frame a ha)
  · refine forall_mem_set_of_nodup_map (h.map_cell ▸ hP.nodup) hl hstep.good fun x hx hne => ?_
    refine hP.own s.gm gm' x (fun a ha => hstep.frame a ?_) (h.good x hx)
    rintro rfl
    exact ha.elim (fun he => hne he.symm) fun hnot => hnot hcell

/-- Once all lanes have ended memory is that of the functional form. -/
theorem LaneProgram.Running.gm_eq_final (hP : P.Independent) (h : P.Running s ls) (hleft : ∀ l ∈ ls, P.left l = 0) :
    s.gm = P.final := by
  refine gm_ext h.wf hP.final_wf fun a => ?_
  by_cases ha : a ∈ P.cells
  · obtain ⟨l, hl, rfl⟩ := List.mem_map.mp (h.map_cell ▸ ha)
    exact hP.final_cell s.gm l ha (h.good l hl) (hleft l hl)
  · exact (h.frame a ha).trans (hP.final_frame a ha).symm

theorem LaneProgram.Running.remaining (hP : P.Independent) (h : P.Running s ls) : P.remaining s = P.total ls := by
  rw [LaneProgram.remaining, h.launch, Option.elim_some, hP.lanes_launch]

/-- Such launches count down their lanes' lines. -/
theorem LaneProgram.Independent.countsDown (hP : P.Independent) :
    CountsDown (fun m => ∃ ls, P.Running m ls) P.remaining P.final where
  host := fun m ⟨ls, h⟩ => h.host
  picked := fun m ⟨ls, h⟩ => ⟨⟨ls, h.picked⟩, rfl⟩
  synced := fun m ⟨ls, h⟩ o gs hl => absurd (Option.some.inj (h.launch.symm.trans hl)) (hP.no_barrier o gs ls)
  launch := fun m ⟨ls, h⟩ => by simp [h.launch]
  moves := fun m l r ⟨ls, h⟩ hl hr => by
    obtain rfl := Option.some.inj (h.launch.symm.trans hl)
    obtain ⟨li, l, l', gm', hl, rfl, hstepped⟩ := hP.moves m ls h r hr
    have hnext := h.stepped hP hl hstepped
    exact ⟨_, rfl, ⟨_, hnext⟩, by rw [hnext.remaining hP, h.remaining hP]; exact sum_map_set hl hstepped.left⟩
  ended := fun m l ⟨ls, h⟩ hl hended => by
    obtain rfl := Option.some.inj (h.launch.symm.trans hl)
    have hleft := (hP.ended ls).mp hended
    refine ⟨?_, h.gm_eq_final hP hleft⟩
    rw [h.remaining hP, LaneProgram.total, List.sum_eq_zero_iff_forall_eq_nat]
    exact List.forall_mem_map.mpr hleft

/-- Whatever the schedule, the launch ends after the lines of its lanes and one step more. -/
theorem LaneProgram.Running.run (hP : P.Independent) (h : P.Running s ls) :
    ∃ t, runSteps (P.total ls + 1) s = .next t ∧ t.status = .done ∧ t.launch = none ∧ t.gm = P.final :=
  h.remaining hP ▸ hP.countsDown.run ⟨ls, h⟩

end

theorem mem_upTo_of_elemAddr_mem {base : Addr} {n i : U32} (h : elemAddr base i ∈ cellsFrom base 0 n.toNat) :
    i ∈ upTo n := by
  obtain ⟨j, hj, he⟩ := mem_cellsFrom.mp h
  rw [mem_upTo]
  simp only [elemAddr] at he
  omega

/-! ### `SCALAR_MUL` -/

/-- The lines a lane of `SCALAR_MUL` has left (43_scalar_mul.md R213). -/
def ScalarProgress.left : ScalarProgress → Nat
  | .load => 2
  | .store => 1
  | .ended => 0

/-- A lane of `SCALAR_MUL` has its cell as it was, then in `v`, and leaves the product. -/
def scalarGood (s : State) (o : ScalarOperands) (f : Nat) (gm : List (Nat × Nat)) (l : ScalarLane) : Prop :=
  match l.progress with
  | .load => gmRead gm (elemAddr o.el l.gid) = gmRead s.gm (elemAddr o.el l.gid)
  | .store => l.v = gmRead s.gm (elemAddr o.el l.gid)
  | .ended => gmRead gm (elemAddr o.el l.gid) = some (fmul s.cfg.pMod (valueAt s.cfg.pMod s.gm (elemAddr o.el l.gid)) f)

/-- `SCALAR_MUL` started in `s`. -/
def scalarProgram (s : State) (o : ScalarOperands) (f : Nat) : LaneProgram ScalarLane where
  start := s
  launch := .scalar o f
  lanes
    | .scalar _ _ ls => ls
    | _ => []
  cell l := elemAddr o.el l.gid
  left l := l.progress.left
  cells := scalarCells o
  final := scalarMemory s.cfg.pMod o f s.gm
  good := scalarGood s o f

section
variable {s : State} {o : ScalarOperands} {f : Nat}

theorem ScalarProgress.left_eq_zero {q : ScalarProgress} : q.left = 0 ↔ q = .ended := by
  cases q <;> simp [ScalarProgress.left]

/-- The two steps of a lane (O32), on a lane as it should be. -/
theorem scalarLaneStep_stepped {m : State} {l : ScalarLane} (hcfg : m.cfg = s.cfg) (hwf : gmWf m.gm)
    (haddr : addrOk m.dom (elemAddr o.el l.gid) = true) {v : Nat} (hv : gmRead s.gm (elemAddr o.el l.gid) = some v)
    (hgood : scalarGood s o f m.gm l) (hne : l.progress ≠ .ended) :
    ∃ r, scalarLaneStep m o f l = .ok r ∧ (scalarProgram s o f).Stepped m.gm r.gm l r.lane := by
  obtain ⟨hloadStep, hstoreStep⟩ := scalarMulMultipliesEveryElement.1 m o f l.gid l.v v haddr
  obtain ⟨gid, progress, w⟩ := l
  cases progress with
  | load => exact ⟨_, hloadStep (hgood.trans hv), rfl, rfl, hwf, fun _ _ => rfl, hv.symm⟩
  | store =>
    obtain rfl : w = some v := hgood.trans hv
    refine ⟨_, hstoreStep, rfl, rfl, gmWrite_wf _ _ hwf, fun a ha => gmRead_gmWrite_other _ _ ha, ?_⟩
    exact (gmRead_gmWrite_same ..).trans (by rw [valueAt_of_gmRead hv, hcfg])
  | ended => exact absurd rfl hne

theorem scalarProgram_independent (hwf : gmWf s.gm) (hdom : ∀ a ∈ scalarCells o, addrOk s.dom a = true)
    (hfilled : ∀ a ∈ scalarCells o, ∃ v, gmRead s.gm a = some v) : (scalarProgram s o f).Independent where
  nodup := nodup_cellsFrom _ _ _
  lanes_launch _ := rfl
  ended ls := by
    simp only [scalarProgram, launchEnded, scalarEnded, List.all_eq_true, beq_iff_eq, ScalarProgress.left_eq_zero]
  no_barrier _ _ _ := nofun
  own gm gm' l hsame h := by
    have hcell : gmRead gm' (elemAddr o.el l.gid) = gmRead gm (elemAddr o.el l.gid) := hsame _ (.inl rfl)
    obtain ⟨gid, progress, v⟩ := l
    cases progress with
    | load => exact hcell.trans h
    | store => exact h
    | ended => exact hcell.trans h
  moves m ls h r hr := by
    obtain ⟨li, l, hl, hne, rfl⟩ := mem_scalarMoves.mp hr
    have hmem := List.mem_of_getElem? hl
    have hcell : elemAddr o.el l.gid ∈ scalarCells o := by
      have hcell := List.mem_map_of_mem (f := (scalarProgram s o f).cell) hmem
      rwa [h.map_cell] at hcell
    obtain ⟨v, hv⟩ := hfilled _ hcell
    have haddr : addrOk m.dom (elemAddr o.el l.gid) = true := h.dom ▸ hdom _ hcell
    obtain ⟨r, hr, hstepped⟩ := scalarLaneStep_stepped h.cfg h.wf haddr hv (h.good l hmem) hne
    exact ⟨li, l, r.lane, r.gm, hl, scalarLaneMove_eq_ok.mpr ⟨r, hr, rfl⟩, hstepped⟩
  final_wf := gmStores_wf _ hwf
  final_frame a ha := gmRead_gmStores_other _ fun st hst he => ha <| by
    have hmem := List.mem_map_of_mem (f := fun st => st.1) hst
    rwa [map_fst_scalarStores, he] at hmem
  final_cell gm l hcell h hleft := by
    obtain ⟨gid, progress, v⟩ := l
    obtain rfl := ScalarProgress.left_eq_zero.mp hleft
    refine h.trans (gmRead_gmStores_mem _ ((map_fst_scalarStores _ _ _ _).symm ▸ nodup_cellsFrom _ _ _) ?_).symm
    exact List.mem_map_of_mem (mem_upTo_of_elemAddr_mem (i := gid) hcell)

end

/-- Settles O35: two lines per lane, in any order. -/
theorem scalarLanesReachTheFunctionalForm : Obligations.ScalarLanesReachTheFunctionalForm := by
  intro s s1 o hinv hs hlevel hhost hadm hexec
  obtain ⟨-, hdom, -, -⟩ := (admission_eq_none_iff _ _).mp hadm
  rw [exec_lane (i := .scalarMul o) hs hlevel hadm, Host.Outcome.next.injEq] at hexec
  subst hexec
  have hP : (scalarProgram s o (scalarFactor s.cfg o)).Independent := scalarProgram_independent hinv.gm_wf
    (fun a ha => hdom a (List.mem_append_left _ ha)) fun a ha => exists_gmRead_of_admission hadm ha
  have hrunning : (scalarProgram s o (scalarFactor s.cfg o)).Running
      { s with status := .busy, launch := some (commandLaunch s.cfg (.scalarMul o)), held := .scalarMul o :: s.held }
      ((upTo o.n).map newScalarLane) :=
    { launch := rfl, host := hhost, cfg := rfl, dom := rfl, wf := hinv.gm_wf, frame := fun _ _ => rfl
      map_cell := by
        rw [List.map_map]
        exact map_elemAddr_upTo o.el o.n
      good := fun l hl => by
        obtain ⟨gid, -, rfl⟩ := List.mem_map.mp hl
        exact rfl }
  have htotal : (scalarProgram s o (scalarFactor s.cfg o)).total ((upTo o.n).map newScalarLane) = 2 * o.n.toNat := by
    rw [LaneProgram.total, List.map_map, show (_ ∘ newScalarLane) = fun _ => 2 from rfl, List.map_const',
      List.sum_replicate, length_upTo, smul_eq_mul, Nat.mul_comm]
  exact htotal ▸ hrunning.run hP

end Sys2Proof.Machine
end

section
/-! PROOFS. Schedule independence of `LOOKUP_EVAL` (60_exceptions.md section 4, 44_lookup_eval.md R232 to R238): what a lane
holds is fixed by the memory at `START` and the line it has come to. -/

namespace Sys2Proof.Machine

/-! ### A lane by its line -/

/-- How many lines a lane has behind it. -/
def LookupProgress.done : LookupProgress → Nat
  | .y => 0
  | .beta => 1
  | .gamma => 2
  | .rNext => 3
  | .rPrev => 4
  | .v => 5
  | .z => 6
  | .zn => 7
  | .a => 8
  | .ap => 9
  | .s => 10
  | .tb => 11
  | .q0 => 12
  | .ql => 13
  | .qa => 14
  | .term1 => 15
  | .term2 => 16
  | .term3 => 17
  | .term4 => 18
  | .term5 => 19
  | .store => 20
  | .ended => 21

/-- The line after a line. -/
def LookupProgress.next : LookupProgress → LookupProgress
  | .y => .beta
  | .beta => .gamma
  | .gamma => .rNext
  | .rNext => .rPrev
  | .rPrev => .v
  | .v => .z
  | .z => .zn
  | .zn => .a
  | .a => .ap
  | .ap => .s
  | .s => .tb
  | .tb => .q0
  | .q0 => .ql
  | .ql => .qa
  | .qa => .term1
  | .term1 => .term2
  | .term2 => .term3
  | .term3 => .term4
  | .term4 => .term5
  | .term5 => .store
  | .store => .ended
  | .ended => .ended

/-- What line `k` writes, once it has been run. -/
def LookupProgress.after {α : Type} (q : LookupProgress) (k : Nat) (x : α) : Option α := if k < q.done then some x else none

section
variable (p : Nat) (o : LookupOperands) (gm : List (Nat × Nat)) (idx : U32)

/-- The five terms of a lane (44_lookup_eval.md R227 to R231). -/
def lookupTerms : List Nat :=
  let get := fun (base : Addr) (i : U32) => valueAt p gm (elemAddr base i)
  [lookupTerm1 p (get o.l0 idx) (get o.prd idx), lookupTerm2 p (get o.ll idx) (get o.prd idx),
    lookupTerm3 p (get o.la idx) (get o.pic idx) (get o.ch 1) (get o.ptc idx) (get o.ch 2) (get o.prd (lookupNext o idx))
      (get o.prd idx) (get o.tab idx),
    lookupTerm4 p (get o.l0 idx) (get o.pic idx) (get o.ptc idx),
    lookupTerm5 p (get o.la idx) (get o.pic idx) (get o.ptc idx) (get o.pic (lookupPrev o idx))]

/-- The running value after `k` folds. -/
def lookupFolded (k : Nat) : Nat :=
  ((lookupTerms p o gm idx).take k).foldl (fun v t => foldTerm p v (valueAt p gm (elemAddr o.ch 0)) t)
    (valueAt p gm (elemAddr o.val idx))

/-- Lane `idx` at a line, started on memory `gm`. -/
def lookupLaneAt (q : LookupProgress) : LookupLane :=
  let get := fun (base : Addr) (i : U32) => valueAt p gm (elemAddr base i)
  let term := fun (k : Nat) => q.after (15 + k) ((lookupTerms p o gm idx).getD k 0)
  { idx := idx
    progress := q
    rNext := q.after 3 (lookupNext o idx)
    rPrev := q.after 4 (lookupPrev o idx)
    y := q.after 0 (get o.ch 0)
    beta := q.after 1 (get o.ch 1)
    gamma := q.after 2 (get o.ch 2)
    v := q.after 5 (lookupFolded p o gm idx (q.done - 15))
    z := q.after 6 (get o.prd idx)
    zn := q.after 7 (get o.prd (lookupNext o idx))
    a := q.after 8 (get o.pic idx)
    ap := q.after 9 (get o.pic (lookupPrev o idx))
    s := q.after 10 (get o.ptc idx)
    tb := q.after 11 (get o.tab idx)
    q0 := q.after 12 (get o.l0 idx)
    ql := q.after 13 (get o.ll idx)
    qa := q.after 14 (get o.la idx)
    t1 := term 0
    t2 := term 1
    t3 := term 2
    t4 := term 3
    t5 := term 4 }

/-- The elements a lane loads (44_lookup_eval.md R234). -/
def lookupLoads : List (Addr × U32) :=
  [(o.ch, 0), (o.ch, 1), (o.ch, 2), (o.val, idx), (o.prd, idx), (o.prd, lookupNext o idx), (o.pic, idx),
    (o.pic, lookupPrev o idx), (o.ptc, idx), (o.tab, idx), (o.l0, idx), (o.ll, idx), (o.la, idx)]

variable {p o gm idx}

/-- A lane that loads what memory held at `START` goes from line to line. -/
theorem lookupLaneStep_at {m : State} {q : LookupProgress} (hp : m.cfg.pMod = p)
    (hload : ∀ x ∈ lookupLoads o idx, memLoad m x.1 x.2 = .ok (valueAt p gm (elemAddr x.1 x.2))) (hstore : q ≠ .store)
    (hended : q ≠ .ended) :
    lookupLaneStep m o (lookupLaneAt p o gm idx q) = .ok ⟨lookupLaneAt p o gm idx q.next, m.gm⟩ := by
  subst hp
  simp only [lookupLoads, List.forall_mem_cons] at hload
  obtain ⟨hy, hbeta, hgamma, hv, hz, hzn, ha, hap, hs, htb, hq0, hql, hqa, -⟩ := hload
  cases q
  case y => exact bind_eq_ok.mpr ⟨_, hy, rfl⟩
  case beta => exact bind_eq_ok.mpr ⟨_, hbeta, rfl⟩
  case gamma => exact bind_eq_ok.mpr ⟨_, hgamma, rfl⟩
  case v => exact bind_eq_ok.mpr ⟨_, hv, rfl⟩
  case z => exact bind_eq_ok.mpr ⟨_, hz, rfl⟩
  case zn => exact bind_eq_ok.mpr ⟨_, rfl, bind_eq_ok.mpr ⟨_, hzn, rfl⟩⟩
  case a => exact bind_eq_ok.mpr ⟨_, ha, rfl⟩
  case ap => exact bind_eq_ok.mpr ⟨_, rfl, bind_eq_ok.mpr ⟨_, hap, rfl⟩⟩
  case s => exact bind_eq_ok.mpr ⟨_, hs, rfl⟩
  case tb => exact bind_eq_ok.mpr ⟨_, htb, rfl⟩
  case q0 => exact bind_eq_ok.mpr ⟨_, hq0, rfl⟩
  case ql => exact bind_eq_ok.mpr ⟨_, hql, rfl⟩
  case qa => exact bind_eq_ok.mpr ⟨_, hqa, rfl⟩
  case store => exact absurd rfl hstore
  case ended => exact absurd rfl hended
  all_goals rfl

/-- Its last line stores the value of the functional form. -/
theorem lookupLaneStep_store {m : State} (haddr : addrOk m.dom (elemAddr o.val idx) = true) :
    lookupLaneStep m o (lookupLaneAt p o gm idx .store) =
      .ok ⟨lookupLaneAt p o gm idx .ended, gmWrite m.gm (elemAddr o.val idx) (lookupValue p o gm idx)⟩ :=
  bind_eq_ok.mpr ⟨_, rfl, bind_eq_ok.mpr ⟨_, memStore_eq_ok.mpr ⟨haddr, rfl⟩, rfl⟩⟩

/-- Of the cells a lane loads only its own is one that some lane writes. -/
theorem lookupLoads_cells (hok : lookupParamsOk o = true) (hidx : idx.toNat < o.size.toNat) :
    ∀ x ∈ lookupLoads o idx, elemAddr x.1 x.2 = elemAddr o.val idx ∨ elemAddr x.1 x.2 ∈ lookupOthers o := by
  have hsize : 0 < o.size.toNat := by omega
  have hnext : (lookupNext o idx).toNat < o.size.toNat := toNat_lookupNext hok hidx ▸ Nat.mod_lt _ hsize
  have hprev : (lookupPrev o idx).toNat < o.size.toNat := toNat_lookupPrev hok hidx ▸ Nat.mod_lt _ hsize
  have harray {base : Addr} {i : U32} (hbase : base ∈ [o.tab, o.pic, o.ptc, o.prd, o.l0, o.ll, o.la])
      (hi : i.toNat < o.size.toNat) : elemAddr base i ∈ lookupOthers o :=
    List.mem_append_left _ (List.mem_flatMap.mpr ⟨base, hbase, elemAddr_mem_cellsFrom hi⟩)
  have hchallenge {i : U32} (hi : i.toNat < 3) : elemAddr o.ch i ∈ lookupOthers o :=
    List.mem_append_right _ (elemAddr_mem_cellsFrom hi)
  simp only [lookupLoads, List.forall_mem_cons]
  refine ⟨.inr (hchallenge (by decide)), .inr (hchallenge (by decide)), .inr (hchallenge (by decide)), .inl trivial,
    .inr (harray ?_ hidx), .inr (harray ?_ hnext), .inr (harray ?_ hidx), .inr (harray ?_ hprev),
    .inr (harray ?_ hidx), .inr (harray ?_ hidx), .inr (harray ?_ hidx), .inr (harray ?_ hidx), .inr (harray ?_ hidx),
    nofun⟩ <;> simp

end

/-! ### The launch -/

section
variable {s : State} {o : LookupOperands}

/-- A lane of `LOOKUP_EVAL` holds what it has loaded, and its cell changes at its end alone. -/
def lookupGood (s : State) (o : LookupOperands) (gm : List (Nat × Nat)) (l : LookupLane) : Prop :=
  l = lookupLaneAt s.cfg.pMod o s.gm l.idx l.progress ∧
    gmRead gm (elemAddr o.val l.idx) =
      if l.progress = .ended then some (lookupValue s.cfg.pMod o s.gm l.idx) else gmRead s.gm (elemAddr o.val l.idx)

/-- `LOOKUP_EVAL` started in `s`. -/
def lookupProgram (s : State) (o : LookupOperands) : LaneProgram LookupLane where
  start := s
  launch := .lookup o
  lanes
    | .lookup _ ls => ls
    | _ => []
  cell l := elemAddr o.val l.idx
  left l := 21 - l.progress.done
  cells := lookupWrites o
  final := lookupMemory s.cfg.pMod o s.gm
  good := lookupGood s o

theorem LookupProgress.left_eq_zero {q : LookupProgress} : 21 - q.done = 0 ↔ q = .ended := by
  cases q <;> simp [LookupProgress.done]

theorem LookupProgress.left_next {q : LookupProgress} (h : q ≠ .ended) : 21 - q.next.done + 1 = 21 - q.done := by
  cases q
  case ended => exact absurd rfl h
  all_goals rfl

theorem LookupProgress.next_ne_ended {q : LookupProgress} (hstore : q ≠ .store) (hended : q ≠ .ended) :
    q.next ≠ .ended := by
  cases q
  case store => exact absurd rfl hstore
  case ended => exact absurd rfl hended
  all_goals nofun

theorem gmRead_eq_valueAt {p a v : Nat} {gm : List (Nat × Nat)} (h : gmRead gm a = some v) :
    gmRead gm a = some (valueAt p gm a) := by
  rw [valueAt_of_gmRead h, h]

/-- A step of a lane as it should be, while the arrays it only reads are as they were. -/
theorem lookupLaneStep_stepped {m : State} {ls : List LookupLane} {l : LookupLane}
    (hadm : admission s (lookupRequest o) = none) (hm : (lookupProgram s o).Running m ls)
    (hcell : elemAddr o.val l.idx ∈ lookupWrites o) (hgood : lookupGood s o m.gm l) (hne : l.progress ≠ .ended) :
    ∃ r, lookupLaneStep m o l = .ok r ∧ (lookupProgram s o).Stepped m.gm r.gm l r.lane := by
  obtain ⟨hok, hdom, hapart, -⟩ := (admission_eq_none_iff _ _).mp hadm
  obtain ⟨idx, q, rfl⟩ : ∃ idx q, l = lookupLaneAt s.cfg.pMod o s.gm idx q := ⟨_, _, hgood.1⟩
  replace hcell : elemAddr o.val idx ∈ lookupWrites o := hcell
  have hown : gmRead m.gm (elemAddr o.val idx) = gmRead s.gm (elemAddr o.val idx) := hgood.2.trans (if_neg hne)
  have haddr {a : Nat} (ha : a ∈ lookupWrites o ++ lookupOthers o) : addrOk m.dom a = true :=
    hm.dom ▸ hdom a (List.mem_append_left _ ha)
  by_cases hstore : q = .store
  · subst hstore
    exact ⟨_, lookupLaneStep_store (haddr (List.mem_append_left _ hcell)), rfl, rfl, gmWrite_wf _ _ hm.wf,
      fun a ha => gmRead_gmWrite_other _ _ ha, rfl, gmRead_gmWrite_same ..⟩
  · have hidx := mem_upTo.mp (mem_upTo_of_elemAddr_mem hcell)
    have hload : ∀ x ∈ lookupLoads o idx,
        memLoad m x.1 x.2 = .ok (valueAt s.cfg.pMod s.gm (elemAddr x.1 x.2)) := fun x hx => by
      have hcases := lookupLoads_cells hok hidx x hx
      have hread : elemAddr x.1 x.2 ∈ lookupWrites o ++ lookupOthers o :=
        List.mem_append.mpr (hcases.imp (fun he => by rwa [he]) id)
      obtain ⟨v, hv⟩ := exists_gmRead_of_admission hadm hread
      have hsame : gmRead m.gm (elemAddr x.1 x.2) = gmRead s.gm (elemAddr x.1 x.2) := by
        obtain he | hother := hcases
        · rw [he, hown]
        · exact hm.frame _ fun hwrite => hapart _ hwrite hother
      exact memLoad_eq_ok.mpr ⟨haddr hread, hsame.trans (gmRead_eq_valueAt hv)⟩
    exact ⟨_, lookupLaneStep_at (congrArg Params.pMod hm.cfg) hload hstore hne, rfl, LookupProgress.left_next hne, hm.wf,
      fun _ _ => rfl, rfl, hown.trans (if_neg (LookupProgress.next_ne_ended hstore hne)).symm⟩

theorem lookupProgram_independent (hwf : gmWf s.gm) (hadm : admission s (lookupRequest o) = none) :
    (lookupProgram s o).Independent where
  nodup := nodup_cellsFrom _ _ _
  lanes_launch _ := rfl
  ended ls := by
    simp only [lookupProgram, launchEnded, lookupEnded, List.all_eq_true, beq_iff_eq, LookupProgress.left_eq_zero]
  no_barrier _ _ _ := nofun
  own gm gm' l hsame h := ⟨h.1, (hsame _ (.inl rfl)).trans h.2⟩
  moves m ls h r hr := by
    obtain ⟨li, l, hl, hne, rfl⟩ := mem_lookupMoves.mp hr
    have hmem := List.mem_of_getElem? hl
    have hcell := List.mem_map_of_mem (f := (lookupProgram s o).cell) hmem
    rw [h.map_cell] at hcell
    obtain ⟨r, hr, hstepped⟩ := lookupLaneStep_stepped hadm h hcell (h.good l hmem) hne
    exact ⟨li, l, r.lane, r.gm, hl, lookupLaneMove_eq_ok.mpr ⟨r, hr, rfl⟩, hstepped⟩
  final_wf := gmStores_wf _ hwf
  final_frame a ha := gmRead_gmStores_other _ fun st hst he => ha <| by
    have hmem := List.mem_map_of_mem (f := fun st => st.1) hst
    rwa [map_fst_lookupStores, he] at hmem
  final_cell gm l hcell h hleft := by
    refine h.2.trans ((if_pos (LookupProgress.left_eq_zero.mp hleft)).trans (gmRead_gmStores_mem _
      ((map_fst_lookupStores _ _ _).symm ▸ nodup_cellsFrom _ _ _) ?_).symm)
    exact List.mem_map_of_mem (f := fun idx => (elemAddr o.val idx, lookupValue s.cfg.pMod o s.gm idx))
      (mem_upTo_of_elemAddr_mem hcell)

end

/-- Settles O41: twenty-one lines per lane, in any order. -/
theorem lookupLanesReachTheFunctionalForm : Obligations.LookupLanesReachTheFunctionalForm := by
  intro s s1 o hinv hs hlevel hhost hadm hexec
  rw [exec_lane (i := .lookupEval o) hs hlevel hadm, Host.Outcome.next.injEq] at hexec
  subst hexec
  have hrunning : (lookupProgram s o).Running
      { s with status := .busy, launch := some (commandLaunch s.cfg (.lookupEval o)), held := .lookupEval o :: s.held }
      ((upTo o.size).map newLookupLane) :=
    { launch := rfl, host := hhost, cfg := rfl, dom := rfl, wf := hinv.gm_wf, frame := fun _ _ => rfl
      map_cell := by
        rw [List.map_map]
        exact map_elemAddr_upTo o.val o.size
      good := fun l hl => by
        obtain ⟨idx, -, rfl⟩ := List.mem_map.mp hl
        exact ⟨rfl, rfl⟩ }
  have htotal : (lookupProgram s o).total ((upTo o.size).map newLookupLane) = 21 * o.size.toNat := by
    rw [LaneProgram.total, List.map_map, show (_ ∘ newLookupLane) = fun _ => 21 from rfl, List.map_const',
      List.sum_replicate, length_upTo, smul_eq_mul, Nat.mul_comm]
  exact htotal ▸ hrunning.run (lookupProgram_independent hinv.gm_wf hadm)

end Sys2Proof.Machine
end

section
/-! PROOFS. The rounds of a group (41_ntt_stage.md R170 to R172): the pairs of a round share no cell, so a round is one butterfly
on each pair of the buffer before it. -/

namespace Sys2Proof.Machine

variable {p : Nat} {o : NttOperands} {gm : List (Nat × Nat)} {rnd : Nat}

theorem cellOf_of_getElem? {u : List Nat} {i : U32} {v : Nat} (h : u[i.toNat]? = some v) : cellOf p u i = v := by
  rw [cellOf, List.getD_eq_getElem?_getD, h, Option.getD_some]

theorem getElem?_eq_cellOf {u : List Nat} {i : U32} (h : i.toNat < u.length) : u[i.toNat]? = some (cellOf p u i) := by
  rw [cellOf, List.getD_eq_getElem?_getD, List.getElem?_eq_getElem h, Option.getD_some]

theorem length_butterfly (u : List Nat) (i : U32) : (butterfly p o gm rnd u i).length = u.length := by
  rw [butterfly, List.length_set, List.length_set]

theorem length_foldl_butterfly (is : List U32) (u : List Nat) : (is.foldl (butterfly p o gm rnd) u).length = u.length := by
  induction is generalizing u with
  | nil => rfl
  | cons i is ih => rw [List.foldl_cons, ih, length_butterfly]

theorem cellOf_butterfly_other {u : List Nat} {i x : U32} (hlow : x.toNat ≠ (pairLow (nttBit o rnd) i).toNat)
    (hhigh : x.toNat ≠ (pairHigh (nttBit o rnd) i).toNat) : cellOf p (butterfly p o gm rnd u i) x = cellOf p u x := by
  rw [cellOf, cellOf, List.getD_eq_getElem?_getD, List.getD_eq_getElem?_getD, butterfly_other hlow hhigh]

/-- A cell of none of the pairs listed. -/
theorem cellOf_foldl_butterfly_other {is : List U32} {u : List Nat} {x : U32}
    (h : ∀ i ∈ is, x.toNat ≠ (pairLow (nttBit o rnd) i).toNat ∧ x.toNat ≠ (pairHigh (nttBit o rnd) i).toNat) :
    cellOf p (is.foldl (butterfly p o gm rnd) u) x = cellOf p u x := by
  induction is generalizing u with
  | nil => rfl
  | cons i is ih =>
    obtain ⟨hlow, hhigh⟩ := h i List.mem_cons_self
    rw [List.foldl_cons, ih fun j hj => h j (List.mem_cons_of_mem _ hj), cellOf_butterfly_other hlow hhigh]

section
variable {r : Nat} (hs : NttSizes o r) (hrnd : rnd < o.deg.toNat)
include hs hrnd

/-- The blocks of `bit` cells a pair's two cells are in, and its place in them. -/
theorem NttSizes.pairHigh_div_mod {i : U32} (hi : i.toNat < (nttCounth o).toNat) :
    (pairHigh (nttBit o rnd) i).toNat / 2 ^ (o.deg.toNat - 1 - rnd) = 2 * (i.toNat / 2 ^ (o.deg.toNat - 1 - rnd)) + 1 ∧
      (pairHigh (nttBit o rnd) i).toNat % 2 ^ (o.deg.toNat - 1 - rnd) = i.toNat % 2 ^ (o.deg.toNat - 1 - rnd) := by
  obtain ⟨hdiv, hmod⟩ := hs.pairLow_div_mod hrnd hi
  rw [hs.toNat_pairHigh hrnd hi, Nat.add_div_right _ (Nat.two_pow_pos _), hdiv, Nat.add_mod_right, hmod]
  exact ⟨rfl, rfl⟩

/-- Different pairs of a round share no cell. -/
theorem NttSizes.pairs_apart {i j : U32} (hi : i.toNat < (nttCounth o).toNat) (hj : j.toNat < (nttCounth o).toNat)
    (hne : i ≠ j) :
    ((pairLow (nttBit o rnd) i).toNat ≠ (pairLow (nttBit o rnd) j).toNat ∧
        (pairLow (nttBit o rnd) i).toNat ≠ (pairHigh (nttBit o rnd) j).toNat) ∧
      (pairHigh (nttBit o rnd) i).toNat ≠ (pairLow (nttBit o rnd) j).toNat ∧
        (pairHigh (nttBit o rnd) i).toNat ≠ (pairHigh (nttBit o rnd) j).toNat := by
  obtain ⟨hlowDivI, hlowModI⟩ := hs.pairLow_div_mod hrnd hi
  obtain ⟨hlowDivJ, hlowModJ⟩ := hs.pairLow_div_mod hrnd hj
  obtain ⟨hhighDivI, hhighModI⟩ := hs.pairHigh_div_mod hrnd hi
  obtain ⟨hhighDivJ, hhighModJ⟩ := hs.pairHigh_div_mod hrnd hj
  have hsame (hdiv : i.toNat / 2 ^ (o.deg.toNat - 1 - rnd) = j.toNat / 2 ^ (o.deg.toNat - 1 - rnd))
      (hmod : i.toNat % 2 ^ (o.deg.toNat - 1 - rnd) = j.toNat % 2 ^ (o.deg.toNat - 1 - rnd)) : False := by
    refine hne (BitVec.eq_of_toNat_eq ?_)
    rw [← Nat.div_add_mod i.toNat (2 ^ (o.deg.toNat - 1 - rnd)), hdiv, hmod, Nat.div_add_mod]
  refine ⟨⟨fun h => ?_, fun h => ?_⟩, fun h => ?_, fun h => ?_⟩
  · rw [h] at hlowDivI hlowModI
    exact hsame (by omega) (by omega)
  · rw [h] at hlowDivI
    omega
  · rw [h] at hhighDivI
    omega
  · rw [h] at hhighDivI hhighModI
    exact hsame (by omega) (by omega)

/-- The two cells of a listed pair, in terms of the buffer before all of the pairs. -/
theorem NttSizes.cellOf_foldl_butterfly {is : List U32} (hnodup : is.Nodup)
    (hbound : ∀ i ∈ is, i.toNat < (nttCounth o).toNat) {u : List Nat} (hu : u.length = (nttCount o).toNat) {i : U32}
    (hi : i ∈ is) :
    cellOf p (is.foldl (butterfly p o gm rnd) u) (pairLow (nttBit o rnd) i) =
        fadd p (cellOf p u (pairLow (nttBit o rnd) i)) (cellOf p u (pairHigh (nttBit o rnd) i)) ∧
      cellOf p (is.foldl (butterfly p o gm rnd) u) (pairHigh (nttBit o rnd) i) =
        twisted p o gm rnd (pairDi (nttBit o rnd) i)
          (fsub p (cellOf p u (pairLow (nttBit o rnd) i)) (cellOf p u (pairHigh (nttBit o rnd) i))) := by
  have hi' := hbound i hi
  induction is generalizing u with
  | nil => cases hi
  | cons j js ih =>
    obtain ⟨hnot, hnodup⟩ := List.nodup_cons.mp hnodup
    have hjs : ∀ k ∈ js, k.toNat < (nttCounth o).toNat := fun k hk => hbound k (List.mem_cons_of_mem _ hk)
    rw [List.foldl_cons]
    by_cases hij : i = j
    · subst hij
      have hothers (k : U32) (hk : k ∈ js) := hs.pairs_apart hrnd hi' (hjs k hk) fun he => hnot (he ▸ hk)
      obtain ⟨hlt, hhigh⟩ := pairLow_lt_pairHigh_lt_count (by have := hs.le; omega) hrnd hi'
      rw [← hu] at hhigh
      rw [cellOf_foldl_butterfly_other fun k hk => (hothers k hk).1,
        cellOf_foldl_butterfly_other fun k hk => (hothers k hk).2]
      exact ⟨cellOf_of_getElem? (butterfly_low hlt.ne (hlt.trans hhigh)), cellOf_of_getElem? (butterfly_high hhigh)⟩
    · obtain ⟨hlow, hhigh⟩ := hs.pairs_apart hrnd hi' (hbound j List.mem_cons_self) hij
      have hmem : i ∈ js := (List.mem_cons.mp hi).resolve_left hij
      have hrest := ih (u := butterfly p o gm rnd u j) hnodup hjs ((length_butterfly u j).trans hu) hmem
      rwa [cellOf_butterfly_other hlow.1 hlow.2, cellOf_butterfly_other hhigh.1 hhigh.2] at hrest

end

/-! ### The buffer after some of the rounds -/

/-- The buffer of a group after the first `k` rounds. -/
def groupBuffer (p : Nat) (o : NttOperands) (gm : List (Nat × Nat)) (index : U32) (k : Nat) : List Nat :=
  (List.range k).foldl (groupRound p o gm) (groupStaged p o gm index)

variable {index : U32}

theorem groupBuffer_zero : groupBuffer p o gm index 0 = groupStaged p o gm index := rfl

theorem groupBuffer_deg : groupBuffer p o gm index o.deg.toNat = groupResult p o gm index := rfl

theorem groupBuffer_succ (k : Nat) :
    groupBuffer p o gm index (k + 1) = groupRound p o gm (groupBuffer p o gm index k) k := by
  rw [groupBuffer, List.range_succ, List.foldl_append]
  rfl

theorem length_groupBuffer (k : Nat) : (groupBuffer p o gm index k).length = (nttCount o).toNat := by
  induction k with
  | zero => rw [groupBuffer_zero, groupStaged, List.length_map, length_upTo]
  | succ k ih => rw [groupBuffer_succ, groupRound, length_foldl_butterfly, ih]

theorem getElem?_groupStaged {i : U32} (hi : i.toNat < (nttCount o).toNat) :
    (groupStaged p o gm index)[i.toNat]? =
      some (fmul p (fpow p (groupTwiddle p o gm index) i.toNat) (valueAt p gm (elemAddr o.x (nttSource o index i)))) := by
  rw [groupStaged, List.getElem?_map, upTo, List.getElem?_map, List.getElem?_range hi]
  simp

theorem cellOf_groupStaged {i : U32} (hi : i.toNat < (nttCount o).toNat) :
    cellOf p (groupStaged p o gm index) i =
      fmul p (fpow p (groupTwiddle p o gm index) i.toNat) (valueAt p gm (elemAddr o.x (nttSource o index i))) :=
  cellOf_of_getElem? (getElem?_groupStaged hi)

section
variable {r : Nat} (hs : NttSizes o r) (hrnd : rnd < o.deg.toNat) {i : U32} (hi : i.toNat < (nttCounth o).toNat)
include hs hrnd hi

/-- The lower cell of a pair after its round. -/
theorem NttSizes.cellOf_groupBuffer_low :
    cellOf p (groupBuffer p o gm index (rnd + 1)) (pairLow (nttBit o rnd) i) =
      fadd p (cellOf p (groupBuffer p o gm index rnd) (pairLow (nttBit o rnd) i))
        (cellOf p (groupBuffer p o gm index rnd) (pairHigh (nttBit o rnd) i)) := by
  rw [groupBuffer_succ]
  exact (hs.cellOf_foldl_butterfly hrnd (nodup_upTo _) (fun _ => mem_upTo.mp) (length_groupBuffer rnd) (mem_upTo.mpr hi)).1

/-- The upper cell of a pair after its round. -/
theorem NttSizes.cellOf_groupBuffer_high :
    cellOf p (groupBuffer p o gm index (rnd + 1)) (pairHigh (nttBit o rnd) i) =
      twisted p o gm rnd (pairDi (nttBit o rnd) i)
        (fsub p (cellOf p (groupBuffer p o gm index rnd) (pairLow (nttBit o rnd) i))
          (cellOf p (groupBuffer p o gm index rnd) (pairHigh (nttBit o rnd) i))) := by
  rw [groupBuffer_succ]
  exact (hs.cellOf_foldl_butterfly hrnd (nodup_upTo _) (fun _ => mem_upTo.mp) (length_groupBuffer rnd) (mem_upTo.mpr hi)).2

end

/-! ### Corner cases (41_ntt_stage.md section 7) -/

/-- Settles O24: one round of one pair, with digit index 0. -/
theorem singleDigitStage : Obligations.SingleDigitStage := by
  intro c o p gm index hok hdeg
  have hcount : nttCount o = 2 := by rw [nttCount, hdeg]; rfl
  have hcounth : nttCounth o = 1 := by rw [nttCounth, hcount]; rfl
  have hbit : nttBit o 0 = 1 := by rw [nttBit, hcounth]; rfl
  have hlow : pairLow 1 0 = 0 := rfl
  have hhigh : pairHigh 1 0 = 1 := rfl
  have hdi : pairDi 1 0 = 0 := rfl
  have hupTo : upTo 1 = [0] ∧ upTo 2 = [0, 1] := ⟨rfl, rfl⟩
  constructor
  · have hstaged : groupStaged p o gm index =
        [fmul p (fpow p (groupTwiddle p o gm index) 0) (valueAt p gm (elemAddr o.x index)),
          fmul p (fpow p (groupTwiddle p o gm index) 1) (valueAt p gm (elemAddr o.x (index + nttT o)))] := by
      rw [groupStaged, hcount, hupTo.2]
      simp [nttSource]
    have hresult : groupResult p o gm index = butterfly p o gm 0 (groupStaged p o gm index) 0 := by
      rw [groupResult, hdeg]
      change groupRound p o gm (groupStaged p o gm index) 0 = _
      rw [groupRound, hcounth, hupTo.1]
      rfl
    rw [hresult, hstaged]
    simp only [butterfly, hbit, hlow, hhigh, hdi, twisted_zero]
    rfl
  · rw [nttPqCells, hcounth]
    rfl

/-- Settles O25: the exponent is 0, whose powers are 1. -/
theorem firstStageHasTwiddleOne : Obligations.FirstStageHasTwiddleOne := by
  intro c o p gm index hp hok hlgp
  have hk : nttK o index = 0 := by
    rw [nttK, nttP, hlgp]
    exact BitVec.and_zero
  have htwiddle : groupTwiddle p o gm index = fone p := by
    rw [groupTwiddle, hk, nttExponent, mul_zero]
    rfl
  refine ⟨htwiddle, ?_, fun hx => ?_⟩
  · rw [nttOmegaCells, hlgp]
    rfl
  · rw [groupStaged, htwiddle]
    refine List.map_congr_left fun i _ => ?_
    refine element_eq_of_natCast_eq (fmul_lt hp ..) (hx _) ?_
    rw [natCast_fmul, natCast_fpow, natCast_fone, one_pow, one_mul]
    rfl

end Sys2Proof.Machine
end

section
/-! PROOFS. The cells a group reads are in the launch's read footprint (41_ntt_stage.md R178), so what is stored depends on
that footprint alone. -/

namespace Sys2Proof.Machine

section
variable {o : NttOperands} {r : Nat} (hs : NttSizes o r)
include hs

theorem NttSizes.source_mem_reads {index i : U32} (hindex : index.toNat < (nttT o).toNat)
    (hi : i.toNat < (nttCount o).toNat) : elemAddr o.x (nttSource o index i) ∈ nttReads o :=
  List.mem_append_left _ (List.mem_append_left _ (elemAddr_mem_cellsFrom (hs.source_lt hindex hi)))

/-- The exponent of a group is a multiple of `2^r` below `2^(r + lgp)`, so its set digits are at `r` to `r + lgp - 1`. -/
theorem NttSizes.omega_mem_reads {index : U32} {j : Nat} (hj : (nttExponent o (nttK o index)).getLsbD j = true) :
    o.om.toNat + j ∈ nttReads o := by
  have hk : (nttK o index).toNat < 2 ^ o.lgp.toNat := hs.toNat_k ▸ Nat.mod_lt _ (Nat.two_pow_pos _)
  rw [BitVec.getLsbD, hs.toNat_exponent, Nat.testBit_two_pow_mul, Bool.and_eq_true, decide_eq_true_eq] at hj
  obtain ⟨hr, hdigit⟩ := hj
  have hlt : j - r < o.lgp.toNat := by
    by_contra hge
    rw [Nat.testBit_lt_two_pow (hk.trans_le (Nat.pow_le_pow_right Nat.two_pos (Nat.not_lt.mp hge)))] at hdigit
    cases hdigit
  have hlog : log2 o.n = r + o.lgp.toNat + o.deg.toNat :=
    log2_of_toNat_eq_two_pow (by rw [hs.n_eq, Nat.pow_add, Nat.pow_add])
  refine List.mem_append_right _ (mem_cellsFrom.mpr ⟨j - r, hlt, ?_⟩)
  omega

theorem NttSizes.pq_mem_reads {rnd : Nat} {di : U32} (hrnd : rnd < o.deg.toNat) (hdi : di.toNat < (nttBit o rnd).toNat)
    (hne : di ≠ 0) : elemAddr o.pq (pqIndex di rnd (nttPqshift o)) ∈ nttReads o := by
  have hpos : 0 < di.toNat * 2 ^ rnd :=
    Nat.mul_pos (Nat.pos_of_ne_zero fun h => hne (BitVec.eq_of_toNat_eq h)) (Nat.two_pow_pos _)
  have hlt := hs.di_shift_lt hrnd hdi
  rw [← hs.counth_eq] at hlt
  refine List.mem_append_left _ (List.mem_append_right _ (List.mem_map.mpr ⟨di.toNat * 2 ^ rnd - 1, ?_, ?_⟩))
  · exact List.mem_range.mpr (by omega)
  · rw [elemAddr, hs.toNat_pqIndex hrnd hdi, Nat.sub_add_cancel hpos]

variable {p : Nat} {gm gm' : List (Nat × Nat)} (hsame : ∀ a ∈ nttReads o, gmRead gm a = gmRead gm' a)
include hsame

omit hs in
theorem valueAt_congr_of_mem_reads {a : Nat} (ha : a ∈ nttReads o) : valueAt p gm a = valueAt p gm' a := by
  rw [valueAt, valueAt, hsame a ha]

theorem NttSizes.groupTwiddle_congr {index : U32} : groupTwiddle p o gm index = groupTwiddle p o gm' index :=
  powLookup_congr fun _ hj => hsame _ (hs.omega_mem_reads hj)

theorem NttSizes.groupStaged_congr {index : U32} (hindex : index.toNat < (nttT o).toNat) :
    groupStaged p o gm index = groupStaged p o gm' index :=
  List.map_congr_left fun i hi => by
    rw [hs.groupTwiddle_congr hsame, valueAt_congr_of_mem_reads hsame (hs.source_mem_reads hindex (mem_upTo.mp hi))]

theorem NttSizes.butterfly_congr {rnd : Nat} (hrnd : rnd < o.deg.toNat) (u : List Nat) (i : U32) :
    butterfly p o gm rnd u i = butterfly p o gm' rnd u i := by
  have htwisted (d : Nat) : twisted p o gm rnd (pairDi (nttBit o rnd) i) d = twisted p o gm' rnd (pairDi (nttBit o rnd) i) d := by
    by_cases hdi : pairDi (nttBit o rnd) i = 0
    · rw [hdi, twisted_zero, twisted_zero]
    · rw [twisted_of_ne_zero hdi, twisted_of_ne_zero hdi,
        valueAt_congr_of_mem_reads hsame (hs.pq_mem_reads hrnd (hs.pairDi_lt hrnd) hdi)]
  rw [butterfly, butterfly, htwisted]

theorem NttSizes.groupResult_congr {index : U32} (hindex : index.toNat < (nttT o).toNat) :
    groupResult p o gm index = groupResult p o gm' index := by
  rw [groupResult, groupResult, hs.groupStaged_congr hsame hindex]
  refine List.foldl_ext _ _ _ fun u rnd hrnd => List.foldl_ext _ _ _ fun u i _ => ?_
  exact hs.butterfly_congr hsame (List.mem_range.mp hrnd) u i

end

/-- Settles O21: each store's value is a cell of a group's result. -/
theorem nttStageReadsItsFootprintOnly : Obligations.NttStageReadsItsFootprintOnly := by
  intro c o p gm gm' hok hsame
  obtain ⟨r, hs⟩ := nttSizes_of_nttParamsOk hok
  refine List.flatMap_congr fun index hindex => ?_
  rw [groupStores, groupStores, hs.groupResult_congr hsame (mem_upTo.mp hindex)]

end Sys2Proof.Machine
end

section
/-! PROOFS. The closed form of a group's result (41_ntt_stage.md R183): each round halves the sums left in every output
frequency, and keeps their value. -/

namespace Sys2Proof.Machine

/-! ### Digits reversed -/

/-- One digit more to reverse is put in below. -/
theorem bitreverse_succ_low (i w : Nat) : bitreverse i (w + 1) = 2 * bitreverse i w + i / 2 ^ w % 2 := by
  induction w generalizing i with
  | zero => simp [bitreverse]
  | succ w ih =>
    rw [bitreverse, ih, bitreverse, Nat.div_div_eq_div_mul, ← Nat.pow_succ', Nat.pow_succ]
    ring

/-! ### The root of unity of a group -/

section
variable {p : Nat} [Fact p.Prime] {W : ZMod p} {d : Nat}

/-- A power of two of half the order is -1. -/
theorem pow_half_order_eq_neg_one (h : orderOf W = 2 ^ (d + 1)) : W ^ 2 ^ d = -1 := by
  have hsq : W ^ 2 ^ d * W ^ 2 ^ d = 1 := by
    rw [← pow_add, ← Nat.two_mul, ← Nat.pow_succ', ← h, pow_orderOf_eq_one]
  obtain hone | hneg := mul_self_eq_one_iff.mp hsq
  · have hdvd := orderOf_dvd_of_pow_eq_one hone
    rw [h] at hdvd
    exact absurd (Nat.le_of_dvd (Nat.two_pow_pos d) hdvd) (Nat.not_le.mpr (Nat.pow_lt_pow_right Nat.one_lt_two (Nat.lt_succ_self d)))
  · exact hneg

end

/-! ### Sums along the rounds -/

section
variable {R : Type} [CommRing R] (W : R)

/-- What is left of output frequency `j` after `r` rounds of a buffer of `2^(r + m)` cells: a sum over the block of `2^m`
cells that the low `r` digits of `j` select. -/
def partialSpectrum (r m : Nat) (V : Nat → R) (j : Nat) : R :=
  ∑ y ∈ Finset.range (2 ^ m), V (bitreverse j r * 2 ^ m + y) * W ^ (y * 2 ^ r * (j / 2 ^ r))

theorem partialSpectrum_zero (d : Nat) (V : Nat → R) (j : Nat) :
    partialSpectrum W 0 d V j = ∑ y ∈ Finset.range (2 ^ d), V y * W ^ (y * j) := by
  simp [partialSpectrum, bitreverse]

theorem partialSpectrum_all (d : Nat) (V : Nat → R) (j : Nat) : partialSpectrum W d 0 V j = V (bitreverse j d) := by
  simp [partialSpectrum]

variable {W}

/-- A round of butterflies keeps the spectrum: it takes in the next digit of `j`. -/
theorem partialSpectrum_succ {r m : Nat} {V V' : Nat → R} (hW : W ^ 2 ^ (r + m) = -1)
    (hlow : ∀ a y, a < 2 ^ r → y < 2 ^ m → V' (2 * a * 2 ^ m + y) = V (2 * a * 2 ^ m + y) + V ((2 * a + 1) * 2 ^ m + y))
    (hhigh : ∀ a y, a < 2 ^ r → y < 2 ^ m →
      V' ((2 * a + 1) * 2 ^ m + y) = W ^ (y * 2 ^ r) * (V (2 * a * 2 ^ m + y) - V ((2 * a + 1) * 2 ^ m + y))) (j : Nat) :
    partialSpectrum W (r + 1) m V' j = partialSpectrum W r (m + 1) V j := by
  have hhalves : 2 ^ (m + 1) = 2 ^ m + 2 ^ m := by ring
  have ha : bitreverse j r < 2 ^ r := bitreverse_lt _ _
  rw [partialSpectrum, partialSpectrum, bitreverse_succ_low, hhalves, Finset.sum_range_add, ← Finset.sum_add_distrib]
  refine Finset.sum_congr rfl fun y hy => ?_
  have hy := Finset.mem_range.mp hy
  have hquotient : j / 2 ^ (r + 1) = j / 2 ^ r / 2 := by rw [Nat.div_div_eq_div_mul, Nat.pow_succ]
  have hsign : W ^ ((2 ^ m + y) * 2 ^ r * (j / 2 ^ r)) = (-1) ^ (j / 2 ^ r) * W ^ (y * 2 ^ r * (j / 2 ^ r)) := by
    rw [← hW, ← pow_mul, ← pow_add]
    congr 1
    ring
  have hcells : bitreverse j r * (2 ^ m + 2 ^ m) + y = 2 * bitreverse j r * 2 ^ m + y ∧
      bitreverse j r * (2 ^ m + 2 ^ m) + (2 ^ m + y) = (2 * bitreverse j r + 1) * 2 ^ m + y := by
    constructor <;> ring
  rw [hcells.1, hcells.2, hsign, hquotient]
  obtain ⟨k, hk | hk⟩ := Nat.even_or_odd' (j / 2 ^ r)
  · have hexponent : y * 2 ^ (r + 1) * k = y * 2 ^ r * (2 * k) := by ring
    rw [hk, Nat.mul_mod_right, Nat.mul_div_cancel_left _ Nat.two_pos, Nat.add_zero, hlow _ _ ha hy, hexponent,
      pow_mul (-1 : R), neg_one_sq, one_pow]
    ring
  · have hexponent : y * 2 ^ r * (2 * k + 1) = y * 2 ^ r + y * 2 ^ (r + 1) * k := by ring
    rw [hk, show (2 * k + 1) % 2 = 1 by omega, show (2 * k + 1) / 2 = k by omega, hhigh _ _ ha hy, hexponent, pow_add W,
      pow_succ (-1 : R), pow_mul (-1 : R), neg_one_sq, one_pow]
    ring

end

/-! ### The rounds of a group -/

section
variable {p root : Nat} {o : NttOperands} {gm : List (Nat × Nat)} {index : U32} {r rnd m : Nat}

/-- A cell of the buffer as an element of the field. -/
def bufferCell (p : Nat) (o : NttOperands) (gm : List (Nat × Nat)) (index : U32) (k x : Nat) : ZMod p :=
  (cellOf p (groupBuffer p o gm index k) (BitVec.ofNat 32 x) : Nat)

theorem eq_ofNat_of_toNat_eq {v : U32} {x : Nat} (h : v.toNat = x) : v = BitVec.ofNat 32 x := by
  rw [← h, BitVec.ofNat_toNat, BitVec.setWidth_eq]

/-- The pair of block `a` and place `y`. -/
theorem NttSizes.exists_pair_of_block (hs : NttSizes o r) (hdeg : o.deg.toNat = rnd + m + 1) {a y : Nat} (ha : a < 2 ^ rnd)
    (hy : y < 2 ^ m) :
    ∃ i : U32, i.toNat < (nttCounth o).toNat ∧ pairLow (nttBit o rnd) i = BitVec.ofNat 32 (2 * a * 2 ^ m + y) ∧
      pairHigh (nttBit o rnd) i = BitVec.ofNat 32 ((2 * a + 1) * 2 ^ m + y) ∧ (pairDi (nttBit o rnd) i).toNat = y := by
  have hrnd : rnd < o.deg.toNat := by omega
  have hm : o.deg.toNat - 1 - rnd = m := by omega
  have hlt : a * 2 ^ m + y < 2 ^ (o.deg.toNat - 1) := by
    calc a * 2 ^ m + y < (a + 1) * 2 ^ m := by rw [Nat.add_mul]; omega
      _ ≤ 2 ^ rnd * 2 ^ m := Nat.mul_le_mul_right _ ha
      _ = 2 ^ (o.deg.toNat - 1) := by rw [← Nat.pow_add]; congr 1; omega
  have htoNat : (BitVec.ofNat 32 (a * 2 ^ m + y)).toNat = a * 2 ^ m + y :=
    toNat_ofNat_of_lt (hlt.trans (Nat.pow_lt_pow_right Nat.one_lt_two (by have := hs.le; omega)))
  have hi : (BitVec.ofNat 32 (a * 2 ^ m + y)).toNat < (nttCounth o).toNat := by rwa [htoNat, hs.counth_eq]
  have hdiv : (a * 2 ^ m + y) / 2 ^ m = a := by
    rw [Nat.mul_comm, Nat.mul_add_div (Nat.two_pow_pos m), Nat.div_eq_of_lt hy, Nat.add_zero]
  have hmod : (a * 2 ^ m + y) % 2 ^ m = y := by rw [Nat.mul_comm, Nat.mul_add_mod, Nat.mod_eq_of_lt hy]
  have hlow := hs.toNat_pairLow hrnd hi
  have hhigh := hs.toNat_pairHigh hrnd hi
  rw [hlow] at hhigh
  rw [htoNat, hm, hdiv, hmod] at hlow hhigh
  refine ⟨_, hi, eq_ofNat_of_toNat_eq (hlow.trans (by ring)), eq_ofNat_of_toNat_eq (hhigh.trans (by ring)), ?_⟩
  · rw [hs.toNat_pairDi hrnd, htoNat, hm, hmod]

/-- With the table of R182 the twist of a pair is a power of the group's root (41_ntt_stage.md R173). -/
theorem NttSizes.natCast_twisted (hs : NttSizes o r) (hmax : o.maxDeg.toNat ≤ log2 o.n)
    (htable : ∀ q, 1 ≤ q → q < (nttCounth o).toNat →
      gmRead gm (o.pq.toNat + q * 2 ^ (o.maxDeg.toNat - o.deg.toNat)) =
        some (root ^ (q * 2 ^ (o.maxDeg.toNat - o.deg.toNat) * (o.n.toNat / 2 ^ o.maxDeg.toNat)) % p))
    (hrnd : rnd < o.deg.toNat) {di : U32} (hdi : di.toNat < (nttBit o rnd).toNat) (d : Nat) :
    ((twisted p o gm rnd di d : Nat) : ZMod p) = ((root : ZMod p) ^ (nttT o).toNat) ^ (di.toNat * 2 ^ rnd) * d := by
  by_cases hzero : di = 0
  · subst hzero
    rw [twisted_zero]
    simp
  · have hpos : 0 < di.toNat * 2 ^ rnd :=
      Nat.mul_pos (Nat.pos_of_ne_zero fun h => hzero (BitVec.eq_of_toNat_eq h)) (Nat.two_pow_pos _)
    have hlt := hs.di_shift_lt hrnd hdi
    rw [← hs.counth_eq] at hlt
    have hn : o.n.toNat = 2 ^ (r + o.lgp.toNat + o.deg.toNat) := by rw [hs.n_eq, Nat.pow_add, Nat.pow_add]
    have hstride : 2 ^ (o.maxDeg.toNat - o.deg.toNat) * (o.n.toNat / 2 ^ o.maxDeg.toNat) = (nttT o).toNat := by
      have hle := hs.deg_le
      rw [log2_of_toNat_eq_two_pow hn] at hmax
      rw [toNat_nttT, hn, Nat.pow_div hmax Nat.two_pos, Nat.pow_div (by omega) Nat.two_pos, ← Nat.pow_add]
      congr 1
      omega
    have hentry := htable _ hpos hlt
    rw [Nat.mul_assoc _ (2 ^ (o.maxDeg.toNat - o.deg.toNat)) (o.n.toNat / _), hstride, ← hs.toNat_pqIndex hrnd hdi] at hentry
    rw [twisted_of_ne_zero hzero, natCast_fmul, elemAddr, valueAt_of_gmRead hentry, ZMod.natCast_mod, Nat.cast_pow, ← pow_mul,
      Nat.mul_comm (nttT o).toNat]

variable (hs : NttSizes o r) (hp : p.Prime) (hmax : o.maxDeg.toNat ≤ log2 o.n) (horder : orderOf (root : ZMod p) = o.n.toNat)
  (htable : ∀ q, 1 ≤ q → q < (nttCounth o).toNat →
    gmRead gm (o.pq.toNat + q * 2 ^ (o.maxDeg.toNat - o.deg.toNat)) =
      some (root ^ (q * 2 ^ (o.maxDeg.toNat - o.deg.toNat) * (o.n.toNat / 2 ^ o.maxDeg.toNat)) % p))
include hs hp hmax horder htable

/-- A round of a group keeps the spectrum of its buffer. -/
theorem NttSizes.partialSpectrum_round (hdeg : o.deg.toNat = rnd + m + 1) (j : Nat) :
    partialSpectrum ((root : ZMod p) ^ (nttT o).toNat) (rnd + 1) m (bufferCell p o gm index (rnd + 1)) j =
      partialSpectrum ((root : ZMod p) ^ (nttT o).toNat) rnd (m + 1) (bufferCell p o gm index rnd) j := by
  have hrnd : rnd < o.deg.toNat := by omega
  have hprime : Fact p.Prime := ⟨hp⟩
  have hhalf : ((root : ZMod p) ^ (nttT o).toNat) ^ 2 ^ (rnd + m) = -1 := by
    refine pow_half_order_eq_neg_one ?_
    have hdvd : (nttT o).toNat ∣ orderOf (root : ZMod p) := horder ▸ ⟨_, hs.t_mul_count.symm⟩
    rw [orderOf_pow_of_dvd hs.t_pos.ne' hdvd, horder, ← hs.t_mul_count, Nat.mul_div_cancel_left _ hs.t_pos, hdeg]
  refine partialSpectrum_succ hhalf (fun a y ha hy => ?_) (fun a y ha hy => ?_) j
  · obtain ⟨i, hi, hlow, hhigh, -⟩ := hs.exists_pair_of_block hdeg ha hy
    have hcell := hs.cellOf_groupBuffer_low (p := p) (gm := gm) (index := index) hrnd hi
    rw [hlow, hhigh] at hcell
    rw [bufferCell, hcell, natCast_fadd, bufferCell, bufferCell]
  · obtain ⟨i, hi, hlow, hhigh, hdi⟩ := hs.exists_pair_of_block hdeg ha hy
    have hcell := hs.cellOf_groupBuffer_high (p := p) (gm := gm) (index := index) hrnd hi
    rw [hlow, hhigh] at hcell
    rw [bufferCell, hcell, hs.natCast_twisted hmax htable hrnd (hs.pairDi_lt hrnd), hdi, natCast_fsub hp.pos, bufferCell,
      bufferCell]

/-- So after all rounds output frequency `j` stands in the cell its digits reversed name. -/
theorem NttSizes.bufferCell_deg (j : Nat) :
    bufferCell p o gm index o.deg.toNat (bitreverse j o.deg.toNat) =
      ∑ y ∈ Finset.range (2 ^ o.deg.toNat), bufferCell p o gm index 0 y * ((root : ZMod p) ^ (nttT o).toNat) ^ (y * j) := by
  have hrounds (k : Nat) (hk : k ≤ o.deg.toNat) :
      partialSpectrum ((root : ZMod p) ^ (nttT o).toNat) k (o.deg.toNat - k) (bufferCell p o gm index k) j =
        partialSpectrum ((root : ZMod p) ^ (nttT o).toNat) 0 o.deg.toNat (bufferCell p o gm index 0) j := by
    induction k with
    | zero => rfl
    | succ k ih =>
      obtain ⟨m, hm⟩ : ∃ m, o.deg.toNat = k + m + 1 := ⟨o.deg.toNat - k - 1, by omega⟩
      rw [← ih (by omega), show o.deg.toNat - (k + 1) = m by omega, show o.deg.toNat - k = m + 1 by omega]
      exact hs.partialSpectrum_round hp hmax horder htable hm j
  have hall := hrounds o.deg.toNat (Nat.le_refl _)
  rwa [Nat.sub_self, partialSpectrum_all, partialSpectrum_zero] at hall

end

/-- Settles O27: the output frequency of local index `i` is `i` with its digits reversed, whose reverse is `i`. -/
theorem groupIsADiscreteFourierTransform : Obligations.GroupIsADiscreteFourierTransform := by
  intro c o p root gm index hp hok hmax horder hindex htable i hi
  obtain ⟨r, hs⟩ := nttSizes_of_nttParamsOk hok
  have hresult := hs.bufferCell_deg (index := index) hp hmax horder htable (nttReverse o i).toNat
  rw [← hs.toNat_reverse, hs.reverse_reverse hi, bufferCell, groupBuffer_deg, ← eq_ofNat_of_toNat_eq rfl,
    ← hs.count_eq] at hresult
  refine hresult.trans (Finset.sum_congr rfl fun l hl => ?_)
  have hl := Finset.mem_range.mp hl
  have htoNat : (BitVec.ofNat 32 l).toNat = l := toNat_ofNat_of_lt (hl.trans (nttCount o).isLt)
  rw [bufferCell, groupBuffer_zero, cellOf_groupStaged (by rwa [htoNat]), natCast_fmul, natCast_fpow, htoNat]

end Sys2Proof.Machine
end

section
/-! PROOFS. Whose cell a scratch cell is (41_ntt_stage.md section 4, freedom from races): while a group stages, a cell belongs to
the lane whose share it is in, and in a round to the lane whose share its pair is in. -/

namespace Sys2Proof.Machine

/-! ### Pair numbers -/

section
variable {o : NttOperands} {r rnd : Nat} (hs : NttSizes o r) (hrnd : rnd < o.deg.toNat)
include hs hrnd

/-- The pair a cell of the group is in, in round `rnd`. -/
theorem NttSizes.pairNumberOf_pair {i : U32} (hi : i.toNat < (nttCounth o).toNat) :
    pairNumberOf (o.deg.toNat - 1 - rnd) (pairLow (nttBit o rnd) i).toNat = i.toNat ∧
      pairNumberOf (o.deg.toNat - 1 - rnd) (pairHigh (nttBit o rnd) i).toNat = i.toNat := by
  have hnumber {x : Nat} (hdiv : x / 2 ^ (o.deg.toNat - 1 - rnd) / 2 = i.toNat / 2 ^ (o.deg.toNat - 1 - rnd))
      (hmod : x % 2 ^ (o.deg.toNat - 1 - rnd) = i.toNat % 2 ^ (o.deg.toNat - 1 - rnd)) :
      pairNumberOf (o.deg.toNat - 1 - rnd) x = i.toNat := by
    rw [pairNumberOf, Nat.mul_comm 2, ← Nat.div_div_eq_div_mul, hdiv, hmod, Nat.div_add_mod']
  obtain ⟨hlowDiv, hlowMod⟩ := hs.pairLow_div_mod hrnd hi
  obtain ⟨hhighDiv, hhighMod⟩ := hs.pairHigh_div_mod hrnd hi
  exact ⟨hnumber (by omega) hlowMod, hnumber (by omega) hhighMod⟩

theorem NttSizes.eq_pair_of_pairNumberOf {x i : U32} (hx : x.toNat < (nttCount o).toNat)
    (h : pairNumberOf (o.deg.toNat - 1 - rnd) x.toNat = i.toNat) :
    x = pairLow (nttBit o rnd) i ∨ x = pairHigh (nttBit o rnd) i := by
  obtain ⟨j, hj, hcell⟩ := hs.exists_pair hrnd hx
  obtain ⟨hlow, hhigh⟩ := hs.pairNumberOf_pair hrnd hj
  split_ifs at hcell
  · rw [← hs.toNat_pairHigh hrnd hj] at hcell
    rw [hcell, hhigh] at h
    obtain rfl := BitVec.eq_of_toNat_eq h
    exact .inr (BitVec.eq_of_toNat_eq hcell)
  · rw [Nat.add_zero] at hcell
    rw [hcell, hlow] at h
    obtain rfl := BitVec.eq_of_toNat_eq h
    exact .inl (BitVec.eq_of_toNat_eq hcell)

end

/-! ### Owners -/

/-- How many pairs a lane has in a round. -/
def nttPairs (c : Params) (o : NttOperands) : Nat := (nttShare c o).toNat / 2

/-- The lane a scratch cell belongs to between barriers `gen - 1` and `gen`. -/
def nttOwner (c : Params) (o : NttOperands) : Nat → U32 → Nat
  | 0, x => x.toNat / (nttShare c o).toNat
  | rnd + 1, x => pairNumberOf (o.deg.toNat - 1 - rnd) x.toNat / nttPairs c o

section
variable {o : NttOperands} {r : Nat} (hs : NttSizes o r) (c : Params)
include hs

theorem NttSizes.share_eq_pairs : (nttShare c o).toNat = 2 * nttPairs c o ∧ 0 < nttPairs c o := by
  have heven := hs.share_even c
  have hpos := Nat.two_pow_pos (o.deg.toNat - nttLgl c o - 1)
  rw [nttPairs]
  omega

theorem NttSizes.lanes_mul_pairs : 2 ^ nttLgl c o * nttPairs c o = (nttCounth o).toNat := by
  have hcount := hs.lanes_mul_share c
  rw [(hs.share_eq_pairs c).1, hs.count_eq_counth, Nat.mul_left_comm] at hcount
  exact Nat.eq_of_mul_eq_mul_left Nat.two_pos hcount

/-- Every cell belongs to a lane. -/
theorem NttSizes.owner_lt (gen : Nat) {x : U32} (hx : x.toNat < (nttCount o).toNat) : nttOwner c o gen x < 2 ^ nttLgl c o := by
  cases gen with
  | zero =>
    rw [← hs.lanes_mul_share c, Nat.mul_comm] at hx
    exact Nat.div_lt_of_lt_mul hx
  | succ rnd =>
    have hpos := hs.deg_pos
    rw [hs.count_eq, show o.deg.toNat = o.deg.toNat - 1 + 1 by omega] at hx
    have hnumber := pairNumberOf_lt (b := o.deg.toNat - 1 - rnd) (Nat.sub_le _ _) hx
    rw [← hs.counth_eq, ← hs.lanes_mul_pairs c, Nat.mul_comm] at hnumber
    exact Nat.div_lt_of_lt_mul hnumber

variable {lid : U32} (hlid : lid.toNat < 2 ^ nttLgl c o)
include hlid

theorem NttSizes.toNat_half_counts : (half (nttCounts c o lid)).toNat = nttPairs c o * lid.toNat := by
  rw [toNat_half, hs.toNat_counts c hlid, (hs.share_eq_pairs c).1, Nat.mul_assoc, Nat.mul_div_cancel_left _ Nat.two_pos]

theorem NttSizes.toNat_half_counte : (half (nttCounte c o lid)).toNat = nttPairs c o * (lid.toNat + 1) := by
  rw [toNat_half, hs.toNat_counte c hlid, (hs.share_eq_pairs c).1, Nat.mul_assoc, Nat.mul_div_cancel_left _ Nat.two_pos]

theorem NttSizes.half_counte_le : (half (nttCounte c o lid)).toNat ≤ (nttCounth o).toNat := by
  rw [hs.toNat_half_counte c hlid, ← hs.lanes_mul_pairs c, Nat.mul_comm]
  exact Nat.mul_le_mul_right _ hlid

theorem NttSizes.counte_le : (nttCounte c o lid).toNat ≤ (nttCount o).toNat :=
  hs.toNat_counte c hlid ▸ hs.share_le c hlid

/-- While staging a lane owns its share of the cells. -/
theorem NttSizes.owner_zero {x : U32} :
    nttOwner c o 0 x = lid.toNat ↔ (nttCounts c o lid).toNat ≤ x.toNat ∧ x.toNat < (nttCounte c o lid).toNat := by
  have hpos : 0 < (nttShare c o).toNat := hs.share_eq c ▸ Nat.two_pow_pos _
  rw [nttOwner, hs.toNat_counts c hlid, hs.toNat_counte c hlid, Nat.div_eq_iff hpos, Nat.mul_comm lid.toNat, Nat.mul_add_one]
  omega

/-- In a round a lane owns the cells of its share of the pairs. -/
theorem NttSizes.owner_succ {rnd : Nat} {x : U32} :
    nttOwner c o (rnd + 1) x = lid.toNat ↔
      (half (nttCounts c o lid)).toNat ≤ pairNumberOf (o.deg.toNat - 1 - rnd) x.toNat ∧
        pairNumberOf (o.deg.toNat - 1 - rnd) x.toNat < (half (nttCounte c o lid)).toNat := by
  have hpos := (hs.share_eq_pairs c).2
  rw [nttOwner, hs.toNat_half_counts c hlid, hs.toNat_half_counte c hlid, Nat.div_eq_iff hpos, Nat.mul_comm lid.toNat,
    Nat.mul_add_one]
  omega

end

end Sys2Proof.Machine
end

section
/-! PROOFS. A lane of `NTT_STAGE` by its line (41_ntt_stage.md R176): what its temporaries and its own scratch cells hold, which
cells it has stored, and how many lines it has left; and that each line leads from one such state to the next. -/

namespace Sys2Proof.Machine

/-! ### What a lane holds -/

/-- The value of scratch cell `x` after `k` rounds, on the memory at `START`. -/
def nttValue (s : State) (o : NttOperands) (index : U32) (k : Nat) (x : U32) : Nat :=
  cellOf s.cfg.pMod (groupBuffer s.cfg.pMod o s.gm index k) x

/-- Scratch cell `x` holds its value after `k` rounds. -/
def HoldsRound (s : State) (o : NttOperands) (index : U32) (u : List (Option Nat)) (k : Nat) (x : U32) : Prop :=
  u[x.toNat]? = some (some (nttValue s o index k x))

/-- The element address of local position `j` of a group's destination. -/
def nttPosition (o : NttOperands) (index j : U32) : Nat := elemAddr o.y (nttDest o (nttBase o index (nttK o index)) j)

/-- The cell of local position `j` holds what the functional form leaves there. -/
def Stored (s : State) (o : NttOperands) (index : U32) (gm : List (Nat × Nat)) (j : U32) : Prop :=
  gmRead gm (nttPosition o index j) = gmRead (nttMemory s.cfg.pMod o s.gm) (nttPosition o index j)

/-- The temporaries that the line `geometry` writes. -/
structure NttLane.Geometry (c : Params) (o : NttOperands) (l : NttLane) : Prop where
  t : l.t = some (nttT o)
  p : l.p = some (nttP o)
  counth : l.counth = some (nttCounth o)
  counts : l.counts = some (nttCounts c o l.lid)
  counte : l.counte = some (nttCounte c o l.lid)
  pqshift : l.pqshift = some (nttPqshift o)

/-- And `k`. -/
structure NttLane.Seeded (c : Params) (o : NttOperands) (index : U32) (l : NttLane) : Prop extends l.Geometry c o where
  k : l.k = some (nttK o index)

/-- The temporaries of a pair. -/
structure NttLane.AtPair (o : NttOperands) (rnd : Nat) (i : U32) (l : NttLane) : Prop where
  di : l.di = some (pairDi (nttBit o rnd) i)
  i0 : l.i0 = some (pairLow (nttBit o rnd) i)
  i1 : l.i1 = some (pairHigh (nttBit o rnd) i)

section
variable (s : State) (o : NttOperands) (index : U32) (l : NttLane)

def NttLane.SeedTemps : SeedLine → Prop
  | .geometry => True
  | .k => l.Geometry s.cfg o
  | .exponent => l.Seeded s.cfg o index
  | .lookup => l.Seeded s.cfg o index ∧ l.e = some (nttExponent o (nttK o index))
  | .ladder => l.Seeded s.cfg o index ∧ l.twiddle = some (groupTwiddle s.cfg.pMod o s.gm index)

/-- While staging `tmp` is the power of the twiddle that element `i` needs. -/
structure NttLane.StageTemps (i : U32) (line : StageLine) : Prop where
  seeded : l.Seeded s.cfg o index
  twiddle : l.twiddle = some (groupTwiddle s.cfg.pMod o s.gm index)
  le : (nttCounts s.cfg o l.lid).toNat ≤ i.toNat
  lt : i.toNat < (nttCounte s.cfg o l.lid).toNat
  tmp : l.tmp = some (fpow s.cfg.pMod (groupTwiddle s.cfg.pMod o s.gm index) i.toNat)
  a : line = .put → l.a = some (valueAt s.cfg.pMod s.gm (elemAddr o.x (nttSource o index i)))

def NttLane.PairTemps (rnd : Nat) (i : U32) : BflyLine → Prop
  | .span => True
  | .pair => l.bit = some (nttBit o rnd)
  | .read => l.AtPair o rnd i
  | .sum | .diff => l.AtPair o rnd i ∧ l.a = some (nttValue s o index rnd (pairLow (nttBit o rnd) i)) ∧
      l.b = some (nttValue s o index rnd (pairHigh (nttBit o rnd) i))
  | .twist => l.AtPair o rnd i ∧ l.d = some (fsub s.cfg.pMod (nttValue s o index rnd (pairLow (nttBit o rnd) i))
      (nttValue s o index rnd (pairHigh (nttBit o rnd) i)))
  | .put => l.AtPair o rnd i ∧ l.d = some (nttValue s o index (rnd + 1) (pairHigh (nttBit o rnd) i))

structure NttLane.BflyTemps (rnd : Nat) (i : U32) (line : BflyLine) : Prop where
  seeded : l.Seeded s.cfg o index
  le : (half (nttCounts s.cfg o l.lid)).toNat ≤ i.toNat
  lt : i.toNat < (half (nttCounte s.cfg o l.lid)).toNat
  pair : l.PairTemps s o index rnd i line

structure NttLane.ScatTemps (i : U32) (line : ScatLine) : Prop where
  seeded : l.Seeded s.cfg o index
  le : (half (nttCounts s.cfg o l.lid)).toNat ≤ i.toNat
  lt : i.toNat < (half (nttCounte s.cfg o l.lid)).toNat
  base : line ≠ .base → l.base = some (nttBase o index (nttK o index))

/-- What the temporaries hold that the lines from here on use. -/
def NttLane.Temps : NttProgress → Prop
  | .seed line => l.SeedTemps s o index line
  | .stage i line => l.StageTemps s o index i line
  | .bar _ => l.Seeded s.cfg o index
  | .bfly rnd i line => l.BflyTemps s o index rnd i line
  | .scat i line => l.ScatTemps s o index i line
  | .ended => True

end

/-- Whether the lower cell of the pair already holds the sum. -/
def BflyLine.summed : BflyLine → Bool
  | .diff | .twist | .put => true
  | _ => false

/-- How many rounds the value in a lane's own cell `x` has been through; none before it is staged. -/
def NttProgress.rounds (o : NttOperands) (x : U32) : NttProgress → Option Nat
  | .seed _ => none
  | .stage i line => if x.toNat < i.toNat ∨ x = i ∧ line = .ladder then some 0 else none
  | .bar j => some j
  | .bfly rnd i line =>
    if pairNumberOf (o.deg.toNat - 1 - rnd) x.toNat < i.toNat ∨ line.summed = true ∧ x = pairLow (nttBit o rnd) i then
      some (rnd + 1)
    else some rnd
  | .scat _ _ => some o.deg.toNat
  | .ended => some o.deg.toNat

/-- A lane's own scratch cells hold what its progress says. -/
def CellsHold (s : State) (o : NttOperands) (index : U32) (gen : Nat) (u : List (Option Nat)) (lid : U32)
    (q : NttProgress) : Prop :=
  ∀ x : U32, x.toNat < (nttCount o).toNat → nttOwner s.cfg o gen x = lid.toNat →
    ∀ k, q.rounds o x = some k → HoldsRound s o index u k x

/-- The positions a lane has stored: of its pair numbers so far, and of each plus `counth`. -/
def NttProgress.hasStored (c : Params) (o : NttOperands) (lid j : U32) : NttProgress → Prop
  | .scat i line => (half (nttCounts c o lid)).toNat ≤ j.toNat ∧ (j.toNat < i.toNat ∨ j = i ∧ line = .high) ∨
      ∃ h : U32, (half (nttCounts c o lid)).toNat ≤ h.toNat ∧ h.toNat < i.toNat ∧ j = h + nttCounth o
  | .ended => ∃ h : U32, (half (nttCounts c o lid)).toNat ≤ h.toNat ∧ h.toNat < (half (nttCounte c o lid)).toNat ∧
      (j = h ∨ j = h + nttCounth o)
  | _ => False

/-- A lane as it should be, in a group's scratch and memory as they are. -/
structure NttLane.Good (s : State) (o : NttOperands) (index : U32) (gen : Nat) (u : List (Option Nat))
    (gm : List (Nat × Nat)) (l : NttLane) : Prop where
  temps : l.Temps s o index l.progress
  cells : CellsHold s o index gen u l.lid l.progress
  stored : ∀ j, l.progress.hasStored s.cfg o l.lid j → Stored s o index gm j

/-! ### How many lines a lane has left -/

def SeedLine.left : SeedLine → Nat
  | .geometry => 5
  | .k => 4
  | .exponent => 3
  | .lookup => 2
  | .ladder => 1

def StageLine.left : StageLine → Nat
  | .load => 3
  | .put => 2
  | .ladder => 1

def BflyLine.left : BflyLine → Nat
  | .span => 7
  | .pair => 6
  | .read => 5
  | .sum => 4
  | .diff => 3
  | .twist => 2
  | .put => 1

def ScatLine.left : ScatLine → Nat
  | .base => 3
  | .low => 2
  | .high => 1

/-- The lines of a lane after barrier instance `j`. -/
def nttLeftAfter (c : Params) (o : NttOperands) (j : Nat) : Nat := 7 * nttPairs c o * (o.deg.toNat - j) + 3 * nttPairs c o

def NttProgress.left (c : Params) (o : NttOperands) (lid : U32) : NttProgress → Nat
  | .seed line => 3 * (nttShare c o).toNat + nttLeftAfter c o 0 + line.left
  | .stage i line => 3 * ((nttCounte c o lid).toNat - i.toNat - 1) + nttLeftAfter c o 0 + line.left
  | .bar j => nttLeftAfter c o j
  | .bfly rnd i line => 7 * ((half (nttCounte c o lid)).toNat - i.toNat - 1) + nttLeftAfter c o (rnd + 1) + line.left
  | .scat i line => 3 * ((half (nttCounte c o lid)).toNat - i.toNat - 1) + line.left
  | .ended => 0

/-! ### Scratch and memory along a step -/

section
variable {s : State} {o : NttOperands} {index lid : U32} {gen : Nat} {u : List (Option Nat)} {q q' : NttProgress}

/-- A step that writes no scratch must not claim more than before. -/
theorem CellsHold.keep (h : CellsHold s o index gen u lid q)
    (hq : ∀ x : U32, x.toNat < (nttCount o).toNat → nttOwner s.cfg o gen x = lid.toNat →
      ∀ k, q'.rounds o x = some k → q.rounds o x = some k) : CellsHold s o index gen u lid q' :=
  fun x hx howner k hk => h x hx howner k (hq x hx howner k hk)

/-- A step that writes own cell `y` may claim its value besides. -/
theorem CellsHold.write (h : CellsHold s o index gen u lid q) {y : U32} {v : Nat} (hy : y.toNat < u.length)
    (hv : ∀ k, q'.rounds o y = some k → v = nttValue s o index k y)
    (hq : ∀ x : U32, x.toNat < (nttCount o).toNat → nttOwner s.cfg o gen x = lid.toNat → x ≠ y →
      ∀ k, q'.rounds o x = some k → q.rounds o x = some k) :
    CellsHold s o index gen (u.set y.toNat (some v)) lid q' := by
  intro x hx howner k hk
  by_cases hxy : x = y
  · subst hxy
    rw [HoldsRound, List.getElem?_set_self hy, hv k hk]
  · have hne : y.toNat ≠ x.toNat := fun he => hxy (BitVec.eq_of_toNat_eq he.symm)
    rw [HoldsRound, List.getElem?_set_ne hne]
    exact h x hx howner k (hq x hx howner hxy k hk)

/-- A write to another lane's cell. -/
theorem CellsHold.write_other (h : CellsHold s o index gen u lid q) {y : U32} (v : Nat)
    (hy : nttOwner s.cfg o gen y ≠ lid.toNat) : CellsHold s o index gen (u.set y.toNat (some v)) lid q := by
  intro x hx howner k hk
  have hne : y.toNat ≠ x.toNat := fun he => hy (BitVec.eq_of_toNat_eq he ▸ howner)
  rw [HoldsRound, List.getElem?_set_ne hne]
  exact h x hx howner k hk

/-- Memory on its way to that of the functional form: at most one cell changes, to its value there. -/
def Towards (s : State) (o : NttOperands) (gm gm' : List (Nat × Nat)) : Prop :=
  gm' = gm ∨ ∃ a v, a ∈ nttWrites o ∧ gmRead (nttMemory s.cfg.pMod o s.gm) a = some v ∧ gm' = gmWrite gm a v

variable {gm gm' : List (Nat × Nat)}

theorem Towards.stored (h : Towards s o gm gm') {j : U32} (hj : Stored s o index gm j) : Stored s o index gm' j := by
  obtain rfl | ⟨a, v, -, hv, rfl⟩ := h
  · exact hj
  · rw [Stored, gmRead_gmWrite]
    split_ifs with ha
    · rw [ha, hv]
    · exact hj

theorem Towards.wf (h : Towards s o gm gm') (hwf : gmWf gm) : gmWf gm' := by
  obtain rfl | ⟨a, v, -, -, rfl⟩ := h
  · exact hwf
  · exact gmWrite_wf _ _ hwf

theorem Towards.frame (h : Towards s o gm gm') {a : Nat} (ha : a ∉ nttWrites o) : gmRead gm' a = gmRead gm a := by
  obtain rfl | ⟨b, v, hb, -, rfl⟩ := h
  · rfl
  · exact gmRead_gmWrite_other _ _ fun he => ha (he ▸ hb)

end

/-- What the functional form leaves at a position: the result cell with the digits reversed. -/
theorem NttSizes.gmRead_final {s : State} {o : NttOperands} {r : Nat} (hs : NttSizes o r) {index j : U32}
    (hindex : index.toNat < (nttT o).toNat) (hj : j.toNat < (nttCount o).toNat) :
    gmRead (nttMemory s.cfg.pMod o s.gm) (nttPosition o index j) =
      some (nttValue s o index o.deg.toNat (nttReverse o j)) := by
  refine gmRead_gmStores_mem _ hs.nodup_stores (mem_nttStores.mpr ⟨index, nttReverse o j, hindex, hs.reverse_lt j, ?_⟩)
  rw [nttStoreAddr, hs.reverse_reverse hj]
  rfl

theorem NttSizes.position_mem_writes {o : NttOperands} {r : Nat} (hs : NttSizes o r) {index j : U32}
    (hindex : index.toNat < (nttT o).toNat) (hj : j.toNat < (nttCount o).toNat) : nttPosition o index j ∈ nttWrites o :=
  elemAddr_mem_cellsFrom (hs.dest_lt hindex hj)

end Sys2Proof.Machine
end

section
/-! PROOFS. The steps of a lane of `NTT_STAGE` (41_ntt_stage.md R176): in its turn a lane as it should be takes a step, one line
less is left to it, and it is as it should be again. -/

namespace Sys2Proof.Machine

/-- A lane's turn, in a launch started in `s` and now in machine state `m`. -/
structure NttTurn (s m : State) (o : NttOperands) (r : Nat) (g : NttGroup) (l : NttLane) : Prop where
  sizes : NttSizes o r
  index_lt : g.index.toNat < (nttT o).toNat
  lid_lt : l.lid.toNat < 2 ^ nttLgl s.cfg o
  cfg : m.cfg = s.cfg
  /-- what the launch reads is as it was -/
  load : ∀ (base : Addr) (i : U32), elemAddr base i ∈ nttReads o →
    memLoad m base i = .ok (valueAt s.cfg.pMod s.gm (elemAddr base i))
  addr : ∀ a ∈ nttWrites o, addrOk m.dom a = true
  length : g.scratch.length = (nttCount o).toNat
  phase : progressAt o.deg.toNat g.gen l.progress
  good : l.Good s o g.index g.gen g.scratch m.gm
  /-- after the last barrier all cells hold results, whoever's they are -/
  all : g.gen = o.deg.toNat + 1 → ∀ x : U32, x.toNat < (nttCount o).toNat → HoldsRound s o g.index g.scratch o.deg.toNat x

/-- What a step of a lane as it should be leaves. -/
structure NttAdvance (s m : State) (o : NttOperands) (g : NttGroup) (l : NttLane) (r : NttEffect) : Prop where
  lid : r.lane.lid = l.lid
  left : r.lane.progress.left s.cfg o l.lid + 1 = l.progress.left s.cfg o l.lid
  towards : Towards s o m.gm r.gm
  /-- at most an own cell of scratch is written -/
  scratch : r.scratch = g.scratch ∨
    ∃ (y : U32) (v : Nat), nttOwner s.cfg o g.gen y = l.lid.toNat ∧ r.scratch = g.scratch.set y.toNat (some v)
  good : r.lane.Good s o g.index g.gen r.scratch r.gm

section
variable {s m : State} {o : NttOperands} {r : Nat} {g : NttGroup} {l l' : NttLane} {q : NttProgress}

/-- A line that writes neither scratch nor memory. -/
theorem NttTurn.quiet (h : NttTurn s m o r g l) (hq : l.progress = q) (hlid : l'.lid = l.lid)
    (hleft : l'.progress.left s.cfg o l.lid + 1 = q.left s.cfg o l.lid) (htemps : l'.Temps s o g.index l'.progress)
    (hrounds : ∀ x : U32, x.toNat < (nttCount o).toNat → nttOwner s.cfg o g.gen x = l.lid.toNat →
      ∀ k, l'.progress.rounds o x = some k → q.rounds o x = some k)
    (hstored : ∀ j, l'.progress.hasStored s.cfg o l.lid j → q.hasStored s.cfg o l.lid j) :
    NttAdvance s m o g l ⟨l', g.scratch, m.gm⟩ := by
  subst hq
  refine ⟨hlid, hleft, .inl rfl, .inl rfl, htemps, ?_, ?_⟩
  · rw [hlid]
    exact h.good.cells.keep hrounds
  · rw [hlid]
    exact fun j hj => h.good.stored j (hstored j hj)

/-- A line that writes an own scratch cell. -/
theorem NttTurn.write (h : NttTurn s m o r g l) (hq : l.progress = q) (hlid : l'.lid = l.lid)
    (hleft : l'.progress.left s.cfg o l.lid + 1 = q.left s.cfg o l.lid) (htemps : l'.Temps s o g.index l'.progress)
    {y : U32} {v : Nat} (hy : y.toNat < (nttCount o).toNat) (howner : nttOwner s.cfg o g.gen y = l.lid.toNat)
    (hv : ∀ k, l'.progress.rounds o y = some k → v = nttValue s o g.index k y)
    (hrounds : ∀ x : U32, x.toNat < (nttCount o).toNat → nttOwner s.cfg o g.gen x = l.lid.toNat → x ≠ y →
      ∀ k, l'.progress.rounds o x = some k → q.rounds o x = some k)
    (hstored : ∀ j, l'.progress.hasStored s.cfg o l.lid j → q.hasStored s.cfg o l.lid j) :
    NttAdvance s m o g l ⟨l', g.scratch.set y.toNat (some v), m.gm⟩ := by
  subst hq
  refine ⟨hlid, hleft, .inl rfl, .inr ⟨y, v, howner, rfl⟩, htemps, ?_, ?_⟩
  · rw [hlid]
    exact h.good.cells.write (h.length ▸ hy) hv hrounds
  · rw [hlid]
    exact fun j hj => h.good.stored j (hstored j hj)

/-- A line that stores the value of a position. -/
theorem NttTurn.store (h : NttTurn s m o r g l) (hq : l.progress = q) (hlid : l'.lid = l.lid)
    (hleft : l'.progress.left s.cfg o l.lid + 1 = q.left s.cfg o l.lid) (htemps : l'.Temps s o g.index l'.progress)
    (hrounds : ∀ x k, l'.progress.rounds o x = some k → q.rounds o x = some k)
    {j : U32} (hj : j.toNat < (nttCount o).toNat)
    (hstored : ∀ i, l'.progress.hasStored s.cfg o l.lid i → q.hasStored s.cfg o l.lid i ∨ i = j) :
    NttAdvance s m o g l ⟨l', g.scratch,
      gmWrite m.gm (nttPosition o g.index j) (nttValue s o g.index o.deg.toNat (nttReverse o j))⟩ := by
  subst hq
  have hfinal := h.sizes.gmRead_final (s := s) h.index_lt hj
  have htowards : Towards s o m.gm
      (gmWrite m.gm (nttPosition o g.index j) (nttValue s o g.index o.deg.toNat (nttReverse o j))) :=
    .inr ⟨_, _, h.sizes.position_mem_writes h.index_lt hj, hfinal, rfl⟩
  refine ⟨hlid, hleft, htowards, .inl rfl, htemps, ?_, ?_⟩
  · rw [hlid]
    exact h.good.cells.keep fun x _ _ k hk => hrounds x k hk
  · rw [hlid]
    intro i hi
    obtain hbefore | rfl := hstored i hi
    · exact htowards.stored (h.good.stored i hbefore)
    · exact (gmRead_gmWrite_same ..).trans hfinal.symm

theorem rounds_stage {x i : U32} {line : StageLine} {k : Nat} :
    (NttProgress.stage i line).rounds o x = some k ↔ (x.toNat < i.toNat ∨ x = i ∧ line = .ladder) ∧ k = 0 := by
  rw [NttProgress.rounds]
  split <;> simp_all [eq_comm]

theorem rounds_bfly_passed {x i : U32} {rnd : Nat} {line : BflyLine}
    (h : pairNumberOf (o.deg.toNat - 1 - rnd) x.toNat < i.toNat ∨ line.summed = true ∧ x = pairLow (nttBit o rnd) i) :
    (NttProgress.bfly rnd i line).rounds o x = some (rnd + 1) := if_pos h

theorem rounds_bfly_pending {x i : U32} {rnd : Nat} {line : BflyLine}
    (h : ¬(pairNumberOf (o.deg.toNat - 1 - rnd) x.toNat < i.toNat ∨ line.summed = true ∧ x = pairLow (nttBit o rnd) i)) :
    (NttProgress.bfly rnd i line).rounds o x = some rnd := if_neg h

/-! ### `SEED` -/

theorem loadAll_eq_ok {base : Addr} {js : List U32} {f : U32 → Nat} (h : ∀ j ∈ js, memLoad m base j = .ok (f j)) :
    loadAll m base js = .ok (js.map f) := by
  induction js with
  | nil => rfl
  | cons j js ih =>
    rw [loadAll, h j List.mem_cons_self, ih fun k hk => h k (List.mem_cons_of_mem _ hk)]
    rfl

theorem NttTurn.lanePowLookup_eq (h : NttTurn s m o r g l) :
    lanePowLookup m o.om (nttExponent o (nttK o g.index)) = .ok (groupTwiddle s.cfg.pMod o s.gm g.index) := by
  rw [lanePowLookup, loadAll_eq_ok fun j hj => h.load o.om j (h.sizes.omega_mem_reads (getLsbD_of_mem_powReads hj))]
  dsimp only
  rw [h.cfg]
  rfl

theorem NttTurn.seed (h : NttTurn s m o r g l) {line : SeedLine} (hq : l.progress = .seed line) :
    ∃ e, nttLaneStep m o g l = .ok e ∧ NttAdvance s m o g l e := by
  have htemps := h.good.temps
  rw [hq] at htemps
  have hstep : nttLaneStep m o g l = nttSeedStep m o g l line := by simp only [nttLaneStep, hq]
  rw [hstep]
  cases line with
  | geometry =>
    refine ⟨_, rfl, h.quiet hq rfl rfl ?_ nofun nofun⟩
    exact ⟨rfl, rfl, rfl, h.cfg ▸ rfl, h.cfg ▸ rfl, rfl⟩
  | k =>
    have hgeometry : l.Geometry s.cfg o := htemps
    exact ⟨_, bind_eq_ok.mpr ⟨_, temp_eq_ok.mpr hgeometry.p, rfl⟩,
      h.quiet hq rfl rfl ⟨{ hgeometry with }, rfl⟩ nofun nofun⟩
  | exponent =>
    have hseeded : l.Seeded s.cfg o g.index := htemps
    exact ⟨_, bind_eq_ok.mpr ⟨_, temp_eq_ok.mpr hseeded.k, rfl⟩,
      h.quiet hq rfl rfl ⟨{ hseeded with }, rfl⟩ nofun nofun⟩
  | lookup =>
    obtain ⟨hseeded, he⟩ : l.SeedTemps s o g.index .lookup := htemps
    exact ⟨_, bind_eq_ok.mpr ⟨_, temp_eq_ok.mpr he, bind_eq_ok.mpr ⟨_, h.lanePowLookup_eq, rfl⟩⟩,
      h.quiet hq rfl rfl ⟨{ hseeded with }, rfl⟩ nofun nofun⟩
  | ladder =>
    obtain ⟨hseeded, htwiddle⟩ : l.SeedTemps s o g.index .ladder := htemps
    have hcounts := h.sizes.toNat_counts s.cfg h.lid_lt
    have hcounte := h.sizes.toNat_counte s.cfg h.lid_lt
    have hshare := h.sizes.share_eq_pairs s.cfg
    rw [Nat.mul_add_one] at hcounte
    refine ⟨_, bind_eq_ok.mpr ⟨_, temp_eq_ok.mpr htwiddle, bind_eq_ok.mpr ⟨_, temp_eq_ok.mpr hseeded.counts, rfl⟩⟩,
      h.quiet hq rfl ?_ ⟨{ hseeded with }, htwiddle, Nat.le_refl _, ?_, ?_, nofun⟩ ?_ nofun⟩
    · simp only [NttProgress.left, StageLine.left, SeedLine.left]
      omega
    · change (nttCounts s.cfg o l.lid).toNat < (nttCounte s.cfg o l.lid).toNat
      omega
    · rw [h.cfg]
    · intro x hx howner k hk
      have hgen : g.gen = 0 := by
        have hphase := h.phase
        rwa [hq] at hphase
      rw [hgen, h.sizes.owner_zero s.cfg h.lid_lt] at howner
      obtain ⟨hbefore | ⟨-, hline⟩, -⟩ := rounds_stage.mp hk
      · omega
      · cases hline

/-! ### `STAGE` -/

theorem fmul_fpow (p a e : Nat) : fmul p (fpow p a e) a = fpow p a (e + 1) := by
  rw [fmul, fpow, fpow, Nat.mod_mul_mod, pow_succ]

theorem toNat_succ_of_lt {i b : U32} (h : i.toNat < b.toNat) : (i + 1).toNat = i.toNat + 1 :=
  BitVec.toNat_add_of_lt (by have := b.isLt; simpa using by omega)

theorem lt_or_eq_of_lt_succ {x i b : U32} (hi : i.toNat < b.toNat) (h : x.toNat < (i + 1).toNat) :
    x.toNat < i.toNat ∨ x = i := by
  rw [toNat_succ_of_lt hi, Nat.lt_succ_iff_lt_or_eq] at h
  exact h.imp id BitVec.eq_of_toNat_eq

theorem NttTurn.scratchWrite_eq (h : NttTurn s m o r g l) {y : U32} (hy : y.toNat < (nttCount o).toNat) (v : Nat) :
    scratchWrite g.scratch y v = .ok (g.scratch.set y.toNat (some v)) :=
  scratchWrite_eq_ok.mpr ⟨h.length.symm ▸ hy, rfl⟩

theorem NttTurn.stage (h : NttTurn s m o r g l) {i : U32} {line : StageLine} (hq : l.progress = .stage i line) :
    ∃ e, nttLaneStep m o g l = .ok e ∧ NttAdvance s m o g l e := by
  have htemps := h.good.temps
  rw [hq] at htemps
  obtain ⟨hseeded, htwiddle, hle, hlt, htmp, ha⟩ : l.StageTemps s o g.index i line := htemps
  have hgen : g.gen = 0 := by
    have hphase := h.phase
    rwa [hq] at hphase
  have hi : i.toNat < (nttCount o).toNat := hlt.trans_le (h.sizes.counte_le s.cfg h.lid_lt)
  have hstep : nttLaneStep m o g l = nttStageStep m o g l i line := by simp only [nttLaneStep, hq]
  rw [hstep]
  cases line with
  | load =>
    have hload := h.load o.x _ (h.sizes.source_mem_reads h.index_lt hi)
    exact ⟨_, bind_eq_ok.mpr ⟨_, temp_eq_ok.mpr hseeded.t, bind_eq_ok.mpr ⟨_, hload, rfl⟩⟩,
      h.quiet hq rfl rfl ⟨{ hseeded with }, htwiddle, hle, hlt, htmp, fun _ => rfl⟩
        (fun x _ _ k hk => rounds_stage.mpr (by simpa using rounds_stage.mp hk)) nofun⟩
  | put =>
    refine ⟨_, bind_eq_ok.mpr ⟨_, temp_eq_ok.mpr htmp, bind_eq_ok.mpr ⟨_, temp_eq_ok.mpr (ha rfl),
      bind_eq_ok.mpr ⟨_, h.scratchWrite_eq hi _, rfl⟩⟩⟩, h.write (l' := { l with progress := .stage i .ladder }) hq rfl rfl
        ⟨{ hseeded with }, htwiddle, hle, hlt, htmp, nofun⟩ hi ?_ ?_ ?_ nofun⟩
    · rw [hgen]
      exact (h.sizes.owner_zero s.cfg h.lid_lt).mpr ⟨hle, hlt⟩
    · intro k hk
      obtain ⟨-, rfl⟩ := rounds_stage.mp hk
      rw [nttValue, groupBuffer_zero, cellOf_groupStaged hi, h.cfg]
    · intro x _ _ hne k hk
      obtain ⟨hbefore | ⟨he, -⟩, hzero⟩ := rounds_stage.mp hk
      · exact rounds_stage.mpr ⟨.inl hbefore, hzero⟩
      · exact absurd he hne
  | ladder =>
    have hsucc := toNat_succ_of_lt hlt
    refine ⟨_, bind_eq_ok.mpr ⟨_, temp_eq_ok.mpr htmp, bind_eq_ok.mpr ⟨_, temp_eq_ok.mpr htwiddle,
      bind_eq_ok.mpr ⟨_, temp_eq_ok.mpr hseeded.counte, rfl⟩⟩⟩, ?_⟩
    by_cases hmore : i + 1 < nttCounte s.cfg o l.lid
    · have hmoreNat : (i + 1).toNat < (nttCounte s.cfg o l.lid).toNat := hmore
      simp only [if_pos hmore]
      refine h.quiet hq rfl ?_ ⟨{ hseeded with }, htwiddle, ?_, hmoreNat, ?_, nofun⟩ ?_ nofun
      · simp only [NttProgress.left, StageLine.left]
        omega
      · change (nttCounts s.cfg o l.lid).toNat ≤ (i + 1).toNat
        omega
      · change some _ = some _
        rw [h.cfg, fmul_fpow, hsucc]
      · intro x _ _ k hk
        obtain ⟨hbefore | ⟨-, hline⟩, hzero⟩ := rounds_stage.mp hk
        · exact rounds_stage.mpr ⟨(lt_or_eq_of_lt_succ hlt hbefore).imp id fun he => ⟨he, rfl⟩, hzero⟩
        · cases hline
    · have hlast : (nttCounte s.cfg o l.lid).toNat ≤ (i + 1).toNat := Nat.not_lt.mp hmore
      simp only [if_neg hmore]
      refine h.quiet hq rfl ?_ { hseeded with } ?_ nofun
      · simp only [NttProgress.left, StageLine.left]
        omega
      · intro x _ howner k hk
        cases hk
        rw [hgen, h.sizes.owner_zero s.cfg h.lid_lt] at howner
        exact rounds_stage.mpr ⟨(lt_or_eq_of_lt_succ hlt (howner.2.trans_le hlast)).imp id fun he => ⟨he, rfl⟩, rfl⟩

end

end Sys2Proof.Machine
end

section
/-! PROOFS. The butterflies and the scatter of a lane (41_ntt_stage.md R176). -/

namespace Sys2Proof.Machine

variable {s m : State} {o : NttOperands} {r rnd : Nat} {g : NttGroup} {l : NttLane} {i : U32}

/-! ### `BFLY` -/

section
variable {line : BflyLine} (h : NttTurn s m o r g l) (hq : l.progress = .bfly rnd i line)
include h hq

theorem NttTurn.at_bfly : g.gen = rnd + 1 ∧ rnd < o.deg.toNat ∧ i.toNat < (nttCounth o).toNat ∧
    l.BflyTemps s o g.index rnd i line := by
  have hphase := h.phase
  have htemps := h.good.temps
  rw [hq] at hphase htemps
  obtain ⟨hgen, hrnd⟩ := hphase
  have hpair : l.BflyTemps s o g.index rnd i line := htemps
  exact ⟨hgen, hrnd, hpair.lt.trans_le (h.sizes.half_counte_le s.cfg h.lid_lt), hpair⟩

/-- The cells of its pair are the lane's own, and different. -/
theorem NttTurn.own_pair :
    ((pairLow (nttBit o rnd) i).toNat < (nttCount o).toNat ∧
        nttOwner s.cfg o g.gen (pairLow (nttBit o rnd) i) = l.lid.toNat) ∧
      ((pairHigh (nttBit o rnd) i).toNat < (nttCount o).toNat ∧
        nttOwner s.cfg o g.gen (pairHigh (nttBit o rnd) i) = l.lid.toNat) ∧
      pairLow (nttBit o rnd) i ≠ pairHigh (nttBit o rnd) i := by
  obtain ⟨hgen, hrnd, hi, hpair⟩ := h.at_bfly hq
  obtain ⟨hlow, hhigh⟩ := h.sizes.pairNumberOf_pair hrnd hi
  obtain ⟨hlt, hcount⟩ := pairLow_lt_pairHigh_lt_count (by have := h.sizes.le; omega) hrnd hi
  rw [hgen, h.sizes.owner_succ s.cfg h.lid_lt, h.sizes.owner_succ s.cfg h.lid_lt, hlow, hhigh]
  exact ⟨⟨hlt.trans hcount, hpair.le, hpair.lt⟩, ⟨hcount, hpair.le, hpair.lt⟩, fun he => hlt.ne (congrArg _ he)⟩

/-- Before the lower cell is written both hold their values before the round. -/
theorem NttTurn.pair_pending (hline : line.summed = false) :
    HoldsRound s o g.index g.scratch rnd (pairLow (nttBit o rnd) i) ∧
      HoldsRound s o g.index g.scratch rnd (pairHigh (nttBit o rnd) i) := by
  obtain ⟨hgen, hrnd, hi, hpair⟩ := h.at_bfly hq
  obtain ⟨hlow, hhigh⟩ := h.sizes.pairNumberOf_pair hrnd hi
  obtain ⟨⟨hlowLt, hlowOwner⟩, ⟨hhighLt, hhighOwner⟩, -⟩ := h.own_pair hq
  have hcells := h.good.cells
  rw [hq] at hcells
  exact ⟨hcells _ hlowLt hlowOwner _ (rounds_bfly_pending (by simp [hlow, hline])),
    hcells _ hhighLt hhighOwner _ (rounds_bfly_pending (by simp [hhigh, hline]))⟩

end

theorem NttTurn.bflySum (h : NttTurn s m o r g l) (hq : l.progress = .bfly rnd i .sum) :
    ∃ e, nttBflyStep m o g l rnd i .sum = .ok e ∧ NttAdvance s m o g l e := by
  obtain ⟨hgen, hrnd, hi, hseeded, hle, hlt, hpair, ha, hb⟩ := h.at_bfly hq
  obtain ⟨⟨hlowLt, hlowOwner⟩, -, -⟩ := h.own_pair hq
  refine ⟨_, bind_eq_ok.mpr ⟨_, temp_eq_ok.mpr hpair.i0, bind_eq_ok.mpr ⟨_, temp_eq_ok.mpr ha,
    bind_eq_ok.mpr ⟨_, temp_eq_ok.mpr hb, bind_eq_ok.mpr ⟨_, h.scratchWrite_eq hlowLt _, rfl⟩⟩⟩⟩,
    h.write (l' := { l with progress := .bfly rnd i .diff }) hq rfl rfl
      ⟨{ hseeded with }, hle, hlt, { hpair with }, ha, hb⟩ hlowLt hlowOwner (fun k hk => ?_) (fun x _ _ hne k hk => ?_) nofun⟩
  · rw [rounds_bfly_passed (.inr ⟨rfl, rfl⟩), Option.some.injEq] at hk
    rw [← hk, h.cfg]
    exact (h.sizes.cellOf_groupBuffer_low hrnd hi).symm
  · simpa [NttProgress.rounds, BflyLine.summed, hne] using hk

theorem NttTurn.bflyTwist (h : NttTurn s m o r g l) (hq : l.progress = .bfly rnd i .twist) :
    ∃ e, nttBflyStep m o g l rnd i .twist = .ok e ∧ NttAdvance s m o g l e := by
  obtain ⟨hgen, hrnd, hi, hseeded, hle, hlt, hpair, hd⟩ := h.at_bfly hq
  have hvalue := h.sizes.cellOf_groupBuffer_high (p := s.cfg.pMod) (gm := s.gm) (index := g.index) hrnd hi
  by_cases hdi : pairDi (nttBit o rnd) i = 0
  · rw [hdi, twisted_zero] at hvalue
    exact ⟨_, bind_eq_ok.mpr ⟨_, temp_eq_ok.mpr hpair.di, bind_eq_ok.mpr ⟨_, temp_eq_ok.mpr hd, if_neg (not_not.mpr hdi)⟩⟩,
      h.quiet hq rfl rfl ⟨{ hseeded with }, hle, hlt, { hpair with }, hd.trans (congrArg some hvalue.symm)⟩
        (fun _ _ _ _ hk => hk) nofun⟩
  · rw [twisted_of_ne_zero hdi] at hvalue
    have hload := h.load o.pq _ (h.sizes.pq_mem_reads hrnd (h.sizes.pairDi_lt hrnd) hdi)
    exact ⟨_, bind_eq_ok.mpr ⟨_, temp_eq_ok.mpr hpair.di, bind_eq_ok.mpr ⟨_, temp_eq_ok.mpr hd, (if_pos hdi).trans
        (bind_eq_ok.mpr ⟨_, temp_eq_ok.mpr hseeded.pqshift, bind_eq_ok.mpr ⟨_, hload, rfl⟩⟩)⟩⟩,
      h.quiet hq rfl rfl ⟨{ hseeded with }, hle, hlt, { hpair with }, congrArg some (by rw [h.cfg]; exact hvalue.symm)⟩
        (fun _ _ _ _ hk => hk) nofun⟩

/-- Once both cells of pair `i` are written, a cell of the pairs up to it has been through the round. -/
theorem NttTurn.passed_of_le (h : NttTurn s m o r g l) (hrnd : rnd < o.deg.toNat) {x : U32} (hx : x.toNat < (nttCount o).toNat)
    (hne : x ≠ pairHigh (nttBit o rnd) i) (hle : pairNumberOf (o.deg.toNat - 1 - rnd) x.toNat ≤ i.toNat) :
    (NttProgress.bfly rnd i .put).rounds o x = some (rnd + 1) := by
  refine rounds_bfly_passed ((Nat.lt_or_eq_of_le hle).imp id fun he => ⟨rfl, ?_⟩)
  exact (h.sizes.eq_pair_of_pairNumberOf hrnd hx he).resolve_right hne

theorem NttTurn.bflyPut (h : NttTurn s m o r g l) (hq : l.progress = .bfly rnd i .put) :
    ∃ e, nttBflyStep m o g l rnd i .put = .ok e ∧ NttAdvance s m o g l e := by
  obtain ⟨hgen, hrnd, hi, hseeded, hle, hlt, hpair, hd⟩ := h.at_bfly hq
  obtain ⟨hlow, hhigh⟩ := h.sizes.pairNumberOf_pair hrnd hi
  obtain ⟨-, ⟨hhighLt, hhighOwner⟩, -⟩ := h.own_pair hq
  have hsucc := toNat_succ_of_lt hlt
  refine ⟨_, bind_eq_ok.mpr ⟨_, temp_eq_ok.mpr hpair.i1, bind_eq_ok.mpr ⟨_, temp_eq_ok.mpr hd,
    bind_eq_ok.mpr ⟨_, temp_eq_ok.mpr hseeded.counte, bind_eq_ok.mpr ⟨_, h.scratchWrite_eq hhighLt _, rfl⟩⟩⟩⟩, ?_⟩
  by_cases hmore : i + 1 < half (nttCounte s.cfg o l.lid)
  · have hmoreNat : (i + 1).toNat < (half (nttCounte s.cfg o l.lid)).toNat := hmore
    simp only [if_pos hmore]
    refine h.write (l' := { l with progress := .bfly rnd (i + 1) .span }) hq rfl ?_ ⟨{ hseeded with }, ?_, hmoreNat, trivial⟩
      hhighLt hhighOwner (fun k hk => ?_) (fun x hx _ hne k hk => ?_) nofun
    · simp only [NttProgress.left, BflyLine.left]
      omega
    · change (half (nttCounts s.cfg o l.lid)).toNat ≤ (i + 1).toNat
      omega
    · rw [rounds_bfly_passed (.inl (by omega)), Option.some.injEq] at hk
      rw [hk]
    · by_cases hpassed : pairNumberOf (o.deg.toNat - 1 - rnd) x.toNat < (i + 1).toNat
      · rw [rounds_bfly_passed (.inl hpassed)] at hk
        exact (h.passed_of_le hrnd hx hne (by omega)).trans hk
      · rw [rounds_bfly_pending (by simpa [BflyLine.summed] using hpassed)] at hk
        refine (rounds_bfly_pending fun hnot => ?_).trans hk
        obtain hbefore | ⟨-, rfl⟩ := hnot <;> omega
  · have hlast : (half (nttCounte s.cfg o l.lid)).toNat ≤ (i + 1).toNat := Nat.not_lt.mp hmore
    simp only [if_neg hmore]
    refine h.write (l' := { l with progress := .bar (rnd + 1) }) hq rfl ?_ { hseeded with } hhighLt hhighOwner (fun k hk => ?_)
      (fun x hx howner hne k hk => ?_) nofun
    · simp only [NttProgress.left, BflyLine.left]
      omega
    · cases hk
      rfl
    · rw [hgen, h.sizes.owner_succ s.cfg h.lid_lt] at howner
      exact (h.passed_of_le hrnd hx hne (by omega)).trans hk

theorem NttTurn.bfly (h : NttTurn s m o r g l) {line : BflyLine} (hq : l.progress = .bfly rnd i line) :
    ∃ e, nttLaneStep m o g l = .ok e ∧ NttAdvance s m o g l e := by
  have hstep : nttLaneStep m o g l = nttBflyStep m o g l rnd i line := by simp only [nttLaneStep, hq]
  rw [hstep]
  obtain ⟨-, -, -, hseeded, hle, hlt, hpair⟩ := h.at_bfly hq
  cases line with
  | span =>
    exact ⟨_, bind_eq_ok.mpr ⟨_, temp_eq_ok.mpr hseeded.counth, rfl⟩,
      h.quiet hq rfl rfl ⟨{ hseeded with }, hle, hlt, rfl⟩ (fun _ _ _ _ hk => hk) nofun⟩
  | pair =>
    exact ⟨_, bind_eq_ok.mpr ⟨_, temp_eq_ok.mpr hpair, rfl⟩,
      h.quiet hq rfl rfl ⟨{ hseeded with }, hle, hlt, rfl, rfl, rfl⟩ (fun _ _ _ _ hk => hk) nofun⟩
  | read =>
    have hpair : l.AtPair o rnd i := hpair
    obtain ⟨hlow, hhigh⟩ := h.pair_pending hq rfl
    exact ⟨_, bind_eq_ok.mpr ⟨_, temp_eq_ok.mpr hpair.i0, bind_eq_ok.mpr ⟨_, temp_eq_ok.mpr hpair.i1,
      bind_eq_ok.mpr ⟨_, scratchRead_eq_ok.mpr hlow, bind_eq_ok.mpr ⟨_, scratchRead_eq_ok.mpr hhigh, rfl⟩⟩⟩⟩,
      h.quiet hq rfl rfl ⟨{ hseeded with }, hle, hlt, { hpair with }, rfl, rfl⟩ (fun _ _ _ _ hk => hk) nofun⟩
  | sum => exact h.bflySum hq
  | diff =>
    obtain ⟨hpair, ha, hb⟩ := hpair
    exact ⟨_, bind_eq_ok.mpr ⟨_, temp_eq_ok.mpr ha, bind_eq_ok.mpr ⟨_, temp_eq_ok.mpr hb, rfl⟩⟩,
      h.quiet hq rfl rfl ⟨{ hseeded with }, hle, hlt, { hpair with }, congrArg some (by rw [h.cfg])⟩
        (fun _ _ _ _ hk => hk) nofun⟩
  | twist => exact h.bflyTwist hq
  | put => exact h.bflyPut hq

/-! ### `SCAT` -/

/-- After the stores of pair number `i` those of the pair numbers up to it have been done. -/
theorem hasStored_of_lt_succ {c : Params} {lid b h : U32} (hi : i.toNat < b.toNat)
    (hle : (half (nttCounts c o lid)).toNat ≤ h.toNat) (hlt : h.toNat < (i + 1).toNat) :
    (NttProgress.scat i .high).hasStored c o lid h ∧
      ((NttProgress.scat i .high).hasStored c o lid (h + nttCounth o) ∨ h + nttCounth o = i + nttCounth o) := by
  have hcases := lt_or_eq_of_lt_succ hi hlt
  exact ⟨.inl ⟨hle, hcases.imp id fun he => ⟨he, rfl⟩⟩,
    hcases.imp (fun hbefore => .inr ⟨h, hle, hbefore, rfl⟩) (congrArg (· + nttCounth o))⟩

/-- The store of a position in the scatter. -/
theorem NttTurn.memStore_eq (h : NttTurn s m o r g l) {j : U32} (hj : j.toNat < (nttCount o).toNat) (v : Nat) :
    memStore m o.y (nttDest o (nttBase o g.index (nttK o g.index)) j) v = .ok (gmWrite m.gm (nttPosition o g.index j) v) :=
  memStore_eq_ok.mpr ⟨h.addr _ (h.sizes.position_mem_writes h.index_lt hj), rfl⟩

theorem NttTurn.scat (h : NttTurn s m o r g l) {line : ScatLine} (hq : l.progress = .scat i line) :
    ∃ e, nttLaneStep m o g l = .ok e ∧ NttAdvance s m o g l e := by
  have hphase := h.phase
  have htemps := h.good.temps
  rw [hq] at hphase htemps
  obtain ⟨hseeded, hle, hlt, hbase⟩ : l.ScatTemps s o g.index i line := htemps
  have hread (j : U32) := h.all hphase _ (h.sizes.reverse_lt j)
  have hi := hlt.trans_le (h.sizes.half_counte_le s.cfg h.lid_lt)
  have hcount := h.sizes.count_eq_counth
  have hstep : nttLaneStep m o g l = nttScatStep m o g l i line := by simp only [nttLaneStep, hq]
  rw [hstep]
  cases line with
  | base =>
    refine ⟨_, bind_eq_ok.mpr ⟨_, temp_eq_ok.mpr hseeded.k, rfl⟩,
      h.quiet hq rfl rfl ⟨{ hseeded with }, hle, hlt, fun _ => rfl⟩ (fun _ _ _ _ hk => hk) fun j hj => ?_⟩
    exact hj.imp_left fun ⟨hge, hj⟩ => ⟨hge, hj.imp_right fun ⟨_, hline⟩ => nomatch hline⟩
  | low =>
    refine ⟨_, bind_eq_ok.mpr ⟨_, temp_eq_ok.mpr (hbase nofun), bind_eq_ok.mpr ⟨_, temp_eq_ok.mpr hseeded.p,
      bind_eq_ok.mpr ⟨_, scratchRead_eq_ok.mpr (hread i),
        bind_eq_ok.mpr ⟨_, h.memStore_eq (j := i) (by omega) _, rfl⟩⟩⟩⟩,
      h.store (l' := { l with progress := .scat i .high }) hq rfl rfl ⟨{ hseeded with }, hle, hlt, fun _ => hbase nofun⟩
        (fun _ _ hk => hk) (by omega) fun j hj => ?_⟩
    obtain ⟨hge, hbefore | ⟨he, -⟩⟩ | hupper := hj
    · exact .inl (.inl ⟨hge, .inl hbefore⟩)
    · exact .inr he
    · exact .inl (.inr hupper)
  | high =>
    have hsucc := toNat_succ_of_lt hlt
    have hupper : (i + nttCounth o).toNat < (nttCount o).toNat := by
      have hsum := BitVec.toNat_add_of_lt (x := i) (y := nttCounth o) (by have := (nttCount o).isLt; omega)
      omega
    refine ⟨_, bind_eq_ok.mpr ⟨_, temp_eq_ok.mpr (hbase nofun), bind_eq_ok.mpr ⟨_, temp_eq_ok.mpr hseeded.p,
      bind_eq_ok.mpr ⟨_, temp_eq_ok.mpr hseeded.counth, bind_eq_ok.mpr ⟨_, temp_eq_ok.mpr hseeded.counte,
        bind_eq_ok.mpr ⟨_, scratchRead_eq_ok.mpr (hread (i + nttCounth o)),
          bind_eq_ok.mpr ⟨_, h.memStore_eq hupper _, rfl⟩⟩⟩⟩⟩⟩, ?_⟩
    by_cases hmore : i + 1 < half (nttCounte s.cfg o l.lid)
    · have hmoreNat : (i + 1).toNat < (half (nttCounte s.cfg o l.lid)).toNat := hmore
      simp only [if_pos hmore]
      refine h.store (l' := { l with progress := .scat (i + 1) .base }) hq rfl ?_ ⟨{ hseeded with }, ?_, hmoreNat, nofun⟩
        (fun _ _ hk => hk) hupper fun j hj => ?_
      · simp only [NttProgress.left, ScatLine.left]
        omega
      · change (half (nttCounts s.cfg o l.lid)).toNat ≤ (i + 1).toNat
        omega
      · obtain ⟨hge, hbefore | ⟨-, hline⟩⟩ | ⟨k, hge, hbefore, rfl⟩ := hj
        · exact .inl (hasStored_of_lt_succ hlt hge hbefore).1
        · cases hline
        · exact (hasStored_of_lt_succ hlt hge hbefore).2
    · have hlast : (half (nttCounte s.cfg o l.lid)).toNat ≤ (i + 1).toNat := Nat.not_lt.mp hmore
      simp only [if_neg hmore]
      refine h.store (l' := { l with progress := .ended }) hq rfl ?_ trivial (fun _ _ hk => hk) hupper fun j hj => ?_
      · simp only [NttProgress.left, ScatLine.left]
        omega
      · obtain ⟨k, hge, hbefore, rfl | rfl⟩ := hj
        · exact .inl (hasStored_of_lt_succ hlt hge (hbefore.trans_le hlast)).1
        · exact (hasStored_of_lt_succ hlt hge (hbefore.trans_le hlast)).2

/-- A lane able to step does, to one line less and as it should be. -/
theorem NttTurn.step (h : NttTurn s m o r g l) (hable : nttAble l = true) :
    ∃ e, nttLaneStep m o g l = .ok e ∧ NttAdvance s m o g l e := by
  cases hq : l.progress with
  | seed line => exact h.seed hq
  | stage i line => exact h.stage hq
  | bfly rnd i line => exact h.bfly hq
  | scat i line => exact h.scat hq
  | bar j => simp [nttAble, hq] at hable
  | ended => simp [nttAble, hq] at hable

end Sys2Proof.Machine
end

section
/-! PROOFS. The groups of `NTT_STAGE` (41_ntt_stage.md section 4; 20_memory.md R76): a lane's step and the release of a barrier
each lead from a group as it should be to such a group, with one step less left. -/

namespace Sys2Proof.Machine

/-- A group as it should be, in memory as it is. -/
structure NttGroup.Good (s : State) (o : NttOperands) (gm : List (Nat × Nat)) (g : NttGroup) : Prop where
  synced : g.Synced o
  index_lt : g.index.toNat < (nttT o).toNat
  lids : (g.lanes.map fun l => l.lid) = upTo (1#32 <<< nttLgl s.cfg o)
  length : g.scratch.length = (nttCount o).toNat
  lane : ∀ l ∈ g.lanes, l.Good s o g.index g.gen g.scratch gm

/-- The lines the lanes of a group have left, and the barriers. -/
def NttGroup.left (c : Params) (o : NttOperands) (g : NttGroup) : Nat :=
  (g.lanes.map fun l => l.progress.left c o l.lid).sum + (o.deg.toNat + 1 - g.gen)

section
variable {s : State} {o : NttOperands} {r : Nat} {gm gm' : List (Nat × Nat)} {g : NttGroup}

/-- Memory may move on in other groups. -/
theorem NttGroup.Good.towards (hg : g.Good s o gm) (h : Towards s o gm gm') : g.Good s o gm' :=
  { hg with lane := fun l hl => { hg.lane l hl with stored := fun j hj => h.stored ((hg.lane l hl).stored j hj) } }

variable (hs : NttSizes o r)
include hs

theorem NttGroup.Good.lid_lt (hg : g.Good s o gm) {l : NttLane} (hl : l ∈ g.lanes) : l.lid.toNat < 2 ^ nttLgl s.cfg o := by
  have hlid := List.mem_map_of_mem (f := fun l : NttLane => l.lid) hl
  rwa [hg.lids, mem_upTo, hs.toNat_lanes] at hlid

/-- Every lane number below the group's is a lane's. -/
theorem NttGroup.Good.exists_lane (hg : g.Good s o gm) {k : Nat} (hk : k < 2 ^ nttLgl s.cfg o) :
    ∃ l ∈ g.lanes, l.lid.toNat = k := by
  rw [← hs.toNat_lanes s.cfg] at hk
  have htoNat := toNat_ofNat_of_lt (hk.trans (BitVec.isLt _))
  have hmem : BitVec.ofNat 32 k ∈ upTo (1#32 <<< nttLgl s.cfg o) := mem_upTo.mpr (htoNat.symm ▸ hk)
  rw [← hg.lids] at hmem
  obtain ⟨l, hl, hlid⟩ := List.mem_map.mp hmem
  exact ⟨l, hl, by rw [hlid, htoNat]⟩

/-- When the progress of every lane says so, all cells of the group have been through `k` rounds. -/
theorem NttGroup.Good.holdsRound (hg : g.Good s o gm) {k : Nat} {x : U32} (hx : x.toNat < (nttCount o).toNat)
    (hrounds : ∀ l ∈ g.lanes, l.progress.rounds o x = some k) : HoldsRound s o g.index g.scratch k x := by
  obtain ⟨l, hl, howner⟩ := hg.exists_lane hs (hs.owner_lt s.cfg g.gen hx)
  exact (hg.lane l hl).cells x hx howner.symm k (hrounds l hl)

/-- After the last barrier all cells hold results. -/
theorem NttGroup.Good.holdsResult (hg : g.Good s o gm) (hgen : g.gen = o.deg.toNat + 1) {x : U32}
    (hx : x.toNat < (nttCount o).toNat) : HoldsRound s o g.index g.scratch o.deg.toNat x := by
  refine hg.holdsRound hs hx fun l hl => ?_
  have hphase := hg.synced.phase l hl
  rw [hgen] at hphase
  cases hq : l.progress with
  | scat => rfl
  | ended => rfl
  | seed | stage =>
    rw [hq] at hphase
    cases hphase
  | bar | bfly =>
    rw [hq] at hphase
    obtain ⟨he, hle⟩ := hphase
    omega

/-! ### A lane's step -/

variable {m : State}

theorem NttGroup.Good.turn (hg : g.Good s o m.gm) (hcfg : m.cfg = s.cfg)
    (hload : ∀ (base : Addr) (i : U32), elemAddr base i ∈ nttReads o →
      memLoad m base i = .ok (valueAt s.cfg.pMod s.gm (elemAddr base i)))
    (haddr : ∀ a ∈ nttWrites o, addrOk m.dom a = true) {l : NttLane} (hl : l ∈ g.lanes) : NttTurn s m o r g l where
  sizes := hs
  index_lt := hg.index_lt
  lid_lt := hg.lid_lt hs hl
  cfg := hcfg
  load := hload
  addr := haddr
  length := hg.length
  phase := hg.synced.phase l hl
  good := hg.lane l hl
  all hgen _ hx := hg.holdsResult hs hgen hx

omit hs in
/-- The step of a lane keeps the other lanes of its group as they should be. -/
theorem NttLane.Good.of_advance {l z : NttLane} {e : NttEffect} (hz : z.Good s o g.index g.gen g.scratch m.gm)
    (h : NttAdvance s m o g l e) (hne : z.lid ≠ l.lid) : z.Good s o g.index g.gen e.scratch e.gm := by
  refine ⟨hz.temps, ?_, fun j hj => h.towards.stored (hz.stored j hj)⟩
  obtain he | ⟨y, v, howner, he⟩ := h.scratch
  · exact he ▸ hz.cells
  · rw [he]
    exact hz.cells.write_other v (howner ▸ fun hlid => hne (BitVec.eq_of_toNat_eq hlid.symm))

omit hs in
theorem NttGroup.Good.stepped (hg : g.Good s o m.gm) {li : Nat} {l : NttLane} {e : NttEffect} (hl : g.lanes[li]? = some l)
    (hable : nttAble l = true) (hstep : nttLaneStep m o g l = .ok e) (h : NttAdvance s m o g l e) :
    (steppedGroup g li e).Good s o e.gm ∧ (steppedGroup g li e).left s.cfg o + 1 = g.left s.cfg o := by
  refine ⟨⟨hg.synced.stepped hl hable hstep, hg.index_lt, (map_set_eq_self hl h.lid).trans hg.lids, ?_, ?_⟩, ?_⟩
  · obtain he | ⟨y, v, -, he⟩ := h.scratch
    · exact (congrArg List.length he).trans hg.length
    · rw [steppedGroup, he, List.length_set, hg.length]
  · exact forall_mem_set_of_nodup_map hg.synced.lids hl h.good fun z hz hne => (hg.lane z hz).of_advance h hne
  · have hsum := sum_map_set (f := fun l : NttLane => l.progress.left s.cfg o l.lid) (y := e.lane) hl (by
      rw [h.lid]
      exact h.left)
    rw [NttGroup.left, NttGroup.left, ← hsum, Nat.add_right_comm]
    rfl

/-! ### The release of a barrier -/

theorem NttSizes.half_counts_lt (c : Params) {lid : U32} (hlid : lid.toNat < 2 ^ nttLgl c o) :
    (half (nttCounte c o lid)).toNat = (half (nttCounts c o lid)).toNat + nttPairs c o ∧ 0 < nttPairs c o := by
  rw [hs.toNat_half_counte c hlid, hs.toNat_half_counts c hlid]
  exact ⟨rfl, (hs.share_eq_pairs c).2⟩

/-- No line is lost between a barrier and the statement after it. -/
theorem left_afterBarrier {c : Params} {j : Nat} {l : NttLane} (hlid : l.lid.toNat < 2 ^ nttLgl c o)
    (hbar : l.progress = .bar j) :
    (afterBarrier c o j l).progress.left c o l.lid = l.progress.left c o l.lid := by
  obtain ⟨hcounte, hpos⟩ := hs.half_counts_lt c hlid
  rw [hbar, afterBarrier]
  dsimp only
  split_ifs with hlt
  · have hmul : nttPairs c o * (o.deg.toNat - j) = nttPairs c o * (o.deg.toNat - (j + 1)) + nttPairs c o := by
      rw [← Nat.mul_add_one]
      congr 1
      omega
    simp only [NttProgress.left, nttLeftAfter, BflyLine.left, Nat.mul_assoc, hmul]
    omega
  · simp only [NttProgress.left, nttLeftAfter, ScatLine.left, Nat.sub_eq_zero_of_le (Nat.not_lt.mp hlt)]
    omega

/-- A lane after a barrier at which all cells of the group have been through `j` rounds. -/
theorem NttLane.Good.afterBarrier {c : Params} {index : U32} {u : List (Option Nat)} {j : Nat} {l : NttLane}
    (hl : l.Good s o index j u gm) (hc : c = s.cfg) (hlid : l.lid.toNat < 2 ^ nttLgl s.cfg o) (hj : j ≤ o.deg.toNat)
    (hbar : l.progress = .bar j) (hall : ∀ x : U32, x.toNat < (nttCount o).toNat → HoldsRound s o index u j x) :
    (Machine.afterBarrier c o j l).Good s o index (j + 1) u gm := by
  subst hc
  obtain ⟨hcounte, hpos⟩ := hs.half_counts_lt s.cfg hlid
  have hseeded : l.Seeded s.cfg o index := by
    have htemps := hl.temps
    rwa [hbar] at htemps
  rw [Machine.afterBarrier]
  split_ifs with hlt
  · refine ⟨⟨{ hseeded with }, Nat.le_refl _, hcounte ▸ Nat.lt_add_of_pos_right hpos, trivial⟩,
      fun x hx howner k hk => ?_, nofun⟩
    obtain ⟨hfrom, -⟩ := (hs.owner_succ s.cfg hlid).mp howner
    rw [rounds_bfly_pending (by simpa [BflyLine.summed] using hfrom), Option.some.injEq] at hk
    exact hk ▸ hall x hx
  · obtain rfl : j = o.deg.toNat := Nat.le_antisymm hj (Nat.not_lt.mp hlt)
    refine ⟨⟨{ hseeded with }, Nat.le_refl _, hcounte ▸ Nat.lt_add_of_pos_right hpos, nofun⟩,
      fun x hx _ k hk => ?_, fun y hy => ?_⟩
    · cases hk
      exact hall x hx
    · obtain ⟨hfrom, hbefore | ⟨-, hline⟩⟩ | ⟨k, hfrom, hbefore, -⟩ := hy
      · exact absurd hfrom (Nat.not_le.mpr hbefore)
      · cases hline
      · exact absurd hfrom (Nat.not_le.mpr hbefore)

theorem NttGroup.Good.released (hg : g.Good s o gm) {j : Nat} (hj : releasable g = some j) :
    (releaseGroup s.cfg o j g).Good s o gm ∧ (releaseGroup s.cfg o j g).left s.cfg o + 1 = g.left s.cfg o := by
  obtain ⟨hne, hall⟩ := releasable_eq_some.mp hj
  obtain ⟨l, hl⟩ := List.exists_mem_of_ne_nil _ hne
  have hphase := hg.synced.phase l hl
  rw [(hall l hl).1] at hphase
  obtain ⟨hgen, hdeg⟩ := hphase
  have hcells (x : U32) (hx : x.toNat < (nttCount o).toNat) : HoldsRound s o g.index g.scratch j x :=
    hg.holdsRound hs hx fun l hl => (hall l hl).1.symm ▸ rfl
  refine ⟨⟨hg.synced.released s.cfg hj, hg.index_lt, ?_, hg.length, fun z hz => ?_⟩, ?_⟩
  · rw [← hg.lids, releaseGroup, List.map_map]
    rfl
  · obtain ⟨y, hy, rfl⟩ := List.mem_map.mp hz
    exact NttLane.Good.afterBarrier hs (hgen ▸ hg.lane y hy) rfl (hg.lid_lt hs hy) hdeg (hall y hy).1 hcells
  · have hsum : ((releaseGroup s.cfg o j g).lanes.map fun l => l.progress.left s.cfg o l.lid) =
        g.lanes.map fun l => l.progress.left s.cfg o l.lid := by
      rw [releaseGroup, List.map_map]
      exact List.map_congr_left fun y hy => left_afterBarrier hs (hg.lid_lt hs hy) (hall y hy).1
    have hgen' : (releaseGroup s.cfg o j g).gen = j + 1 := rfl
    rw [NttGroup.left, NttGroup.left, hsum, hgen', hgen]
    omega

/-! ### The beginning and the end of a group -/

theorem newNttGroup_good {index : U32} (hindex : index.toNat < (nttT o).toNat) : (newNttGroup s.cfg o index).Good s o gm := by
  refine ⟨newNttGroup_synced hs index, hindex, ?_, List.length_replicate .., fun l hl => ?_⟩
  · rw [newNttGroup, List.map_map]
    exact List.map_id _
  · obtain ⟨lid, -, rfl⟩ := List.mem_map.mp hl
    exact ⟨trivial, nofun, nofun⟩

/-- Every position is one some lane stores. -/
theorem NttGroup.Good.stored_of_ended (hg : g.Good s o gm) (hended : ∀ l ∈ g.lanes, l.progress = .ended) {j : U32}
    (hj : j.toNat < (nttCount o).toNat) : Stored s o g.index gm j := by
  have hcount := hs.count_eq_counth
  obtain ⟨h, hlt, hcases⟩ : ∃ h : U32, h.toNat < (nttCounth o).toNat ∧ (j = h ∨ j = h + nttCounth o) := by
    by_cases hlow : j.toNat < (nttCounth o).toNat
    · exact ⟨j, hlow, .inl rfl⟩
    · refine ⟨j - nttCounth o, ?_, .inr (by rw [BitVec.sub_add_cancel])⟩
      rw [BitVec.toNat_sub_of_le (Nat.not_lt.mp hlow)]
      omega
  have hpos := (hs.share_eq_pairs s.cfg).2
  obtain ⟨l, hl, hlid⟩ := hg.exists_lane hs (k := h.toNat / nttPairs s.cfg o)
    (Nat.div_lt_of_lt_mul (by rwa [Nat.mul_comm, hs.lanes_mul_pairs]))
  refine (hg.lane l hl).stored j ?_
  rw [hended l hl]
  refine ⟨h, ?_, ?_, hcases⟩
  · rw [hs.toNat_half_counts s.cfg (hg.lid_lt hs hl), hlid]
    exact Nat.mul_div_le _ _
  · rw [hs.toNat_half_counte s.cfg (hg.lid_lt hs hl), hlid]
    exact Nat.lt_mul_div_succ _ hpos

omit hs in
theorem NttGroup.Good.left_of_ended (hg : g.Good s o gm) (hended : ∀ l ∈ g.lanes, l.progress = .ended) :
    g.left s.cfg o = 0 := by
  obtain ⟨l, hl⟩ := List.exists_mem_of_ne_nil _ hg.synced.lanes_ne
  have hphase := hg.synced.phase l hl
  rw [hended l hl] at hphase
  have hgen : g.gen = o.deg.toNat + 1 := hphase
  rw [NttGroup.left, hgen, Nat.sub_self, Nat.add_zero, List.sum_eq_zero_iff_forall_eq_nat]
  exact List.forall_mem_map.mpr fun l hl => by rw [hended l hl]; rfl

end

end Sys2Proof.Machine
end

section
/-! PROOFS. The launch of `NTT_STAGE` (60_exceptions.md section 4): whatever the schedule, its lanes and barriers count down to the
memory of the functional form. -/

namespace Sys2Proof.Machine

/-- The launch of `o` started in `s` is in flight with groups `gs`, and the host leaves it alone. -/
structure NttRunning (s : State) (o : NttOperands) (m : State) (gs : List NttGroup) : Prop where
  launch : m.launch = some (.ntt o gs)
  host : m.host = []
  cfg : m.cfg = s.cfg
  dom : m.dom = s.dom
  wf : gmWf m.gm
  indices : (gs.map fun g => g.index) = upTo (nttT o)
  frame : ∀ a, a ∉ nttWrites o → gmRead m.gm a = gmRead s.gm a
  good : ∀ g ∈ gs, g.Good s o m.gm

/-- The steps the groups of a launch have left. -/
def nttLeft (c : Params) (o : NttOperands) : Option Launch → Nat
  | some (.ntt _ gs) => (gs.map (NttGroup.left c o)).sum
  | _ => 0

section
variable {s m : State} {o : NttOperands} {r : Nat} {gs : List NttGroup}

theorem NttRunning.left_eq (h : NttRunning s o m gs) : nttLeft s.cfg o m.launch = (gs.map (NttGroup.left s.cfg o)).sum :=
  congrArg (nttLeft s.cfg o) h.launch

/-- A group takes its step, and memory at most one cell. -/
theorem NttRunning.move (h : NttRunning s o m gs) {gi : Nat} {g g' : NttGroup} {gm' : List (Nat × Nat)} (hg : gs[gi]? = some g)
    (hindex : g'.index = g.index) (htowards : Towards s o m.gm gm') (hgood : g'.Good s o gm')
    (hleft : g'.left s.cfg o + 1 = g.left s.cfg o) :
    NttRunning s o { m with gm := gm', launch := some (.ntt o (gs.set gi g')) } (gs.set gi g') ∧
      nttLeft s.cfg o (some (.ntt o (gs.set gi g'))) + 1 = nttLeft s.cfg o m.launch := by
  refine ⟨{ h with launch := rfl, wf := htowards.wf h.wf, indices := ?_, frame := fun a ha => ?_, good := ?_ }, ?_⟩
  · exact (map_set_eq_self hg hindex).trans h.indices
  · exact (htowards.frame ha).trans (h.frame a ha)
  · exact forall_mem_set (fun z hz => (h.good z hz).towards htowards) gi hgood
  · rw [h.left_eq]
    exact sum_map_set hg hleft

/-- What the launch reads it never writes, so it is as it was at `START`. -/
theorem NttRunning.memLoad_eq (h : NttRunning s o m gs) (hadm : admission s (nttRequest s.cfg o) = none) {base : Addr} {i : U32}
    (hread : elemAddr base i ∈ nttReads o) : memLoad m base i = .ok (valueAt s.cfg.pMod s.gm (elemAddr base i)) := by
  obtain ⟨-, hdom, hapart, -⟩ := (admission_eq_none_iff _ _).mp hadm
  obtain ⟨v, hv⟩ := exists_gmRead_of_admission hadm hread
  exact memLoad_eq_ok.mpr ⟨h.dom ▸ hdom _ (List.mem_append_left _ hread),
    (h.frame _ fun hwrite => hapart _ hwrite hread).trans (gmRead_eq_valueAt hv)⟩

/-- Every move succeeds and takes one step off. -/
theorem NttRunning.moves (hs : NttSizes o r) (hadm : admission s (nttRequest s.cfg o) = none) (h : NttRunning s o m gs)
    {x : Except Fault State} (hx : x ∈ nttMoves m o gs) :
    ∃ t, x = .ok t ∧ (∃ gs', NttRunning s o t gs') ∧ nttLeft s.cfg o t.launch + 1 = nttLeft s.cfg o m.launch := by
  obtain ⟨-, hdom, -, -⟩ := (admission_eq_none_iff _ _).mp hadm
  obtain ⟨gi, g, hg, ⟨li, l, hl, hable, rfl⟩ | ⟨j, hj, rfl⟩⟩ := mem_nttMoves.mp hx
  · have hgood := h.good g (List.mem_of_getElem? hg)
    have hturn := hgood.turn hs h.cfg (fun _ _ hread => h.memLoad_eq hadm hread)
      (fun a ha => h.dom ▸ hdom a (List.mem_append_right _ ha)) (List.mem_of_getElem? hl)
    obtain ⟨e, hstep, hadvance⟩ := hturn.step hable
    obtain ⟨hgood', hleft⟩ := hgood.stepped hl hable hstep hadvance
    obtain ⟨hrunning, hless⟩ := h.move (g' := steppedGroup g li e) hg rfl hadvance.towards hgood' hleft
    exact ⟨_, nttLaneMove_eq_ok.mpr ⟨e, hstep, rfl⟩, ⟨_, hrunning⟩, hless⟩
  · obtain ⟨hgood', hleft⟩ := (h.good g (List.mem_of_getElem? hg)).released hs hj
    obtain ⟨hrunning, hless⟩ := h.move (g' := releaseGroup s.cfg o j g) hg rfl (.inl rfl) hgood' hleft
    exact ⟨_, congrArg Except.ok (by rw [nttReleaseMove, h.cfg]), ⟨_, hrunning⟩, hless⟩

/-- Once all lanes have ended, every cell of the destination holds its result and no other cell has changed. -/
theorem NttRunning.gm_eq (hs : NttSizes o r) (hadm : admission s (nttRequest s.cfg o) = none) (hwf : gmWf s.gm)
    (h : NttRunning s o m gs) (hended : ∀ g ∈ gs, ∀ l ∈ g.lanes, l.progress = .ended) :
    m.gm = nttMemory s.cfg.pMod o s.gm := by
  obtain ⟨hok, -⟩ := (admission_eq_none_iff _ _).mp hadm
  refine gm_ext h.wf (gmStores_wf _ hwf) fun a => ?_
  by_cases ha : a ∈ nttWrites o
  · rw [← (nttScatterCoversTheDestinationOnce s.cfg o s.cfg.pMod s.gm hok).mem_iff] at ha
    obtain ⟨st, hst, rfl⟩ := List.mem_map.mp ha
    obtain ⟨index, i, hindex, -, rfl⟩ := mem_nttStores.mp hst
    have hmem := mem_upTo.mpr hindex
    rw [← h.indices] at hmem
    obtain ⟨g, hg, rfl⟩ := List.mem_map.mp hmem
    exact (h.good g hg).stored_of_ended hs (hended g hg) (hs.reverse_lt i)
  · exact (h.frame a ha).trans (gmRead_commandStores_frame (c := s.cfg) (i := .nttStage o) hok ha).symm

/-- So the launch counts down. -/
theorem nttCountsDown (hs : NttSizes o r) (hadm : admission s (nttRequest s.cfg o) = none) (hwf : gmWf s.gm) :
    CountsDown (fun m => ∃ gs, NttRunning s o m gs) (fun m => nttLeft s.cfg o m.launch) (nttMemory s.cfg.pMod o s.gm) where
  host := fun m ⟨gs, h⟩ => h.host
  picked := fun m ⟨gs, h⟩ => ⟨⟨gs, { h with }⟩, rfl⟩
  synced := fun m ⟨gs, h⟩ o' gs' hl g hg => by
    obtain ⟨rfl, rfl⟩ := Launch.ntt.inj (Option.some.inj (h.launch.symm.trans hl))
    exact (h.good g hg).synced
  launch := fun m ⟨gs, h⟩ => by simp [h.launch]
  moves := fun m l x ⟨gs, h⟩ hl hx => by
    obtain rfl := Option.some.inj (h.launch.symm.trans hl)
    exact h.moves hs hadm hx
  ended := fun m l ⟨gs, h⟩ hl hended => by
    obtain rfl := Option.some.inj (h.launch.symm.trans hl)
    have hall : ∀ g ∈ gs, ∀ l ∈ g.lanes, l.progress = .ended := by
      simpa only [launchEnded, nttEnded, List.all_eq_true, beq_iff_eq] using hended
    refine ⟨?_, h.gm_eq hs hadm hwf hall⟩
    rw [h.left_eq, List.sum_eq_zero_iff_forall_eq_nat]
    exact List.forall_mem_map.mpr fun g hg => (h.good g hg).left_of_ended (hall g hg)

end

/-- Settles O28: whatever is picked, each lane's line and each barrier's release is one of the steps left, and whose cell a
scratch cell is keeps the lanes out of each other's way. -/
theorem nttLanesReachTheFunctionalForm : Obligations.NttLanesReachTheFunctionalForm := by
  intro s s1 o hinv hs hlevel hhost hadm hexec
  obtain ⟨hok, -⟩ := (admission_eq_none_iff _ _).mp hadm
  obtain ⟨r, hsizes⟩ := nttSizes_of_nttParamsOk hok
  rw [exec_lane (i := .nttStage o) hs hlevel hadm, Host.Outcome.next.injEq] at hexec
  subst hexec
  have hrunning : NttRunning s o
      { s with status := .busy, launch := some (commandLaunch s.cfg (.nttStage o)), held := .nttStage o :: s.held }
      ((upTo (nttT o)).map (newNttGroup s.cfg o)) :=
    { launch := rfl, host := hhost, cfg := rfl, dom := rfl, wf := hinv.gm_wf, frame := fun _ _ => rfl
      indices := by
        rw [List.map_map]
        exact List.map_id _
      good := fun g hg => by
        obtain ⟨index, hindex, rfl⟩ := List.mem_map.mp hg
        exact newNttGroup_good hsizes (mem_upTo.mp hindex) }
  exact ⟨_, (nttCountsDown hsizes hadm hinv.gm_wf).run ⟨_, hrunning⟩⟩

end Sys2Proof.Machine
end
